-- ==== Sys2Proof/Word.lean ====
section
/-! DEFINITION. The word types of the block: the widths that rule R8 (spec/00_scope.md) fixes. -/

namespace Sys2Proof

/-- One byte of a buffer (rules R69 to R71). -/
abbrev Byte := BitVec 8

/-- One word of the host port: DW = 32 (rule R8). -/
abbrev Word := BitVec 32

/-- A host byte address: AW = 25 (rules R8, R60). -/
abbrev Addr := BitVec 25

/-- A symbol ordinal: SYMW = 8 (rule R8), compared as an unsigned number (rule R12). -/
abbrev Symbol := BitVec 8

/-- A frequency count or a node weight: WW = 16 (rule R8). -/
abbrev Weight := BitVec 16

/-- A node index as a record or a register stores it: IDXW = 9 (rule R8). -/
abbrev NodeIdx := BitVec 9

end Sys2Proof
end

