-- ==== Sys2Proof/Syntax.lean ====
section
/-! DEFINITION. What the host can say to the block: the seven commands (rules R2, R92), the bus transaction (rule R63), and
the two events that reach the block from outside (rules R10, R230). -/

namespace Sys2Proof

/-- The command set, one constructor per row of spec/opcode_table.json (rule R92). No command carries an operand (rule R93). -/
inductive Instr where
  | nop
  | freq
  | buildTree
  | buildCodes
  | encode
  | decode
  | clear
  deriving DecidableEq, Repr

/-- The kind of a host transaction (rule R63). -/
inductive Kind where
  | read
  | write
  deriving DecidableEq, Repr

/-- A host transaction: the triple (kind, addr, wdata) of rule R63. wdata is ignored for a read. -/
structure Transaction where
  kind  : Kind
  addr  : Addr
  wdata : Word
  deriving DecidableEq, Repr

/-- What can reach the block from outside: a transaction of the one host (rule R79) or the reset input (rule R230), which is an
event between two transactions (rule R232). Nothing else ever changes the block's state (rule R212). -/
inductive HostInput where
  | transaction (t : Transaction)
  | reset
  deriving DecidableEq, Repr

end Sys2Proof
end

