-- ==== Sys2Proof/WellFormed.lean ====
section
/-! DEFINITION. The checks on the host's language: a command word (rules R90, R94) and a transaction (rule R62). An instruction
itself carries no field (rule R93), so there is nothing in it to check. -/

namespace Sys2Proof

/-- A command carries no operand and no immediate (rule R93): each is well formed. -/
def Instr.WellFormed : Instr → Bool
  | .nop => true
  | .freq => true
  | .buildTree => true
  | .buildCodes => true
  | .encode => true
  | .decode => true
  | .clear => true

/-- The ZERO field of a command word, bits [31:4] (rule R90). -/
def zeroField (w : Word) : BitVec 28 := w.extractLsb' 4 28

/-- The OPCODE field of a command word, bits [3:0] (rule R90). -/
def opcodeField (w : Word) : BitVec 4 := w.extractLsb' 0 4

/-- The reserved opcodes, 0x6 to 0xE (rule R94). -/
def reservedOpcode (op : BitVec 4) : Bool := 0x6#4 ≤ op && op ≤ 0xE#4

/-- A command word is legal when its ZERO field is zero and its OPCODE is not reserved (rule R94). -/
def commandWordLegal (w : Word) : Bool := zeroField w == 0#28 && !reservedOpcode (opcodeField w)

/-- The one alignment the port accepts: addr[1:0] = 0 (rule R62). -/
def Addr.aligned (a : Addr) : Bool := a.extractLsb' 0 2 == 0#2

/-- A transaction the port does not turn away for its alignment (rule R62). -/
def Transaction.WellFormed (t : Transaction) : Bool := Addr.aligned t.addr

end Sys2Proof
end

