-- ==== Sys2Proof/Decode.lean ====
section
/-! DEFINITION. The decoder of a command word (rule R91, cases (2) and (3)) and the encoder (the table of rule R92). What a fault
gates (rule R91, case (1)) is no matter of decoding: Machine/Ops.lean, runCommand. -/

namespace Sys2Proof

/-- Why a command word names no command (rule R94). -/
inductive DecodeError where
  | upperBitsSet
  | reservedOpcode
  deriving DecidableEq, Repr

/-- The decoder: every 32-bit word gives one command or one reason (rules R91, R92, R94). -/
def decode (w : Word) : Except DecodeError Instr :=
  if zeroField w ≠ 0#28 then .error .upperBitsSet
  else match (opcodeField w).toNat with
    | 0x0 => .ok .nop
    | 0x1 => .ok .freq
    | 0x2 => .ok .buildTree
    | 0x3 => .ok .buildCodes
    | 0x4 => .ok .encode
    | 0x5 => .ok .decode
    | 0xF => .ok .clear
    | _ => .error .reservedOpcode

/-- The encoder: the command word of each command (the table of rule R92). -/
def encode : Instr → Word
  | .nop => 0x00000000#32
  | .freq => 0x00000001#32
  | .buildTree => 0x00000002#32
  | .buildCodes => 0x00000003#32
  | .encode => 0x00000004#32
  | .decode => 0x00000005#32
  | .clear => 0x0000000F#32

/-- The command word whose bits are the low nbits of w, numbered as the opcode table numbers them, with zeros above. -/
def tableWord (nbits w : Nat) : Word := BitVec.ofNat 32 (w % 2 ^ nbits)

/-- What the decoder reads from a row of the opcode table. -/
def decodeTableWord (nbits w : Nat) : Option Instr :=
  match decode (tableWord nbits w) with
  | .ok i => some i
  | .error _ => none

end Sys2Proof
end

