-- ==== Sys2Proof/Config.lean ====
section
/-! DEFINITION. What this implementation fixes (the parameters of rule R8 and the address map of rule R61) and the free values:
what the spec leaves unspecified (rule R74; items V1 to V4 of spec/93_implementation_defined.md). -/

namespace Sys2Proof.Config

/-- NSYM (rule R8): the number of symbol values. -/
abbrev nsym : Nat := 256

/-- NODE_MAX (rule R8): the number of node slots; also the most nodes BUILD_CODES visits (rule R244). -/
abbrev nodeMax : Nat := 511

/-- NIL (rule R8): the node index that means "no node". -/
def nil : NodeIdx := 0x1FF#9

/-- The constant of the ID register (rule R30). -/
def idValue : Word := 0x48554601#32

/-- IN_MAX (rule R8): the largest input length. -/
abbrev inMax : Nat := 65535

/-- CODE_MAX (rule R8): the largest code length in bits. -/
abbrev codeMax : Nat := 255

/-- BIT_MAX (rule R8): the largest BIT_LEN. -/
abbrev bitMax : Nat := 16777215

/-- First host byte address of SYM_IN (rule R61). -/
abbrev symInBase : Nat := 0x0010000

/-- SYM_IN_BYTES (rule R8). -/
abbrev symInBytes : Nat := 65536

/-- First host byte address of BITBUF (rule R61). -/
abbrev bitbufBase : Nat := 0x0200000

/-- BITBUF_BYTES (rule R8). -/
abbrev bitbufBytes : Nat := 2097152

/-- First host byte address of SYM_OUT (rule R61). -/
abbrev symOutBase : Nat := 0x1000000

/-- SYM_OUT_BYTES (rule R8). -/
abbrev symOutBytes : Nat := 16777216

/-- FREE VALUE (rule R74, V1 to V3; log entry 3). The byte that a buffer holds at a host byte address after the draw-th time the
buffer's contents became unspecified, until the byte is written. The same draw and address always give the same byte, so reads are
idempotent (rule R64). -/
opaque freeByte (draw : Nat) (addr : Nat) : Byte

/-- FREE VALUE (rules R62, R63, R67, V4; log entry 4). The read data of a transaction result for which the spec gives none: of
a write and of a transaction answered ERROR. -/
opaque freeWord (draw : Nat) : Word

end Sys2Proof.Config
end

