-- ==== Sys2Proof/Machine/State.lean ====
section
/-! DEFINITION. The state of the block: every register, table and buffer of spec/10_state.md and spec/20_memory.md, and three
fields of the model's own (the host's inputs still to come, the answer to the last transaction, the counter of free values). -/

namespace Sys2Proof.Machine

/-- One node record of the arena NODE (rule R40). -/
structure NodeRec where
  weight : Weight
  leaf   : Bool
  sym    : Symbol
  left   : NodeIdx
  right  : NodeIdx
  deriving DecidableEq, Repr

/-- What the model stores in an invalid slot (index NODE_CNT or above): one fixed record, since the stored content of such a slot
is not architectural (item V10; log entry 5). -/
def NodeRec.blank : NodeRec :=
  { weight := 0#16, leaf := false, sym := 0#8, left := Config.nil, right := Config.nil }

/-- The arena of 511 node records (rule R40). -/
abbrev NodeArena := Vector NodeRec 511

/-- One entry of the code table (rule R44): bit j of the code is bits.getLsbD j. -/
structure CodeEntry where
  present : Bool
  len     : BitVec 8
  bits    : BitVec 255
  deriving DecidableEq, Repr

/-- The entry of a symbol that has no code (rule R44). -/
def CodeEntry.absent : CodeEntry := { present := false, len := 0#8, bits := 0#255 }

/-- The code table CODE, indexed by symbol ordinal (rule R44). -/
abbrev CodeTable := Vector CodeEntry 256

/-- The frequency table FREQ, indexed by symbol ordinal (rule R33). -/
abbrev FreqTable := Vector Weight 256

/-- The bytes of the three buffers (rule R50), keyed by host byte address (rule R61). A listed byte has been written since its
buffer's contents last became unspecified. An unlisted one reads as the free value of its buffer's draw (Memory.unlisted). -/
structure Memory where
  cells      : List Host.Cell
  symInDraw  : Nat
  bitbufDraw : Nat
  symOutDraw : Nat
  deriving DecidableEq, Repr

/-- The bus response (rule R63). -/
inductive Resp where
  | okay
  | error
  deriving DecidableEq, Repr

/-- The result (resp, rdata) of a host transaction (rule R63). -/
structure BusResult where
  resp  : Resp
  rdata : Word
  deriving DecidableEq, Repr

/-- The state of the block. STATUS, TREE_INFO and the windows are views of these fields (rules R24, R31, R35, R42, R46, R47), CMD
holds no state (rule R23) and ID is a constant (rule R30). -/
structure State where
  /-- ERR, 3 bits (rule R25). -/
  err      : BitVec 3
  /-- ERR_INFO, 32 bits (rule R26). -/
  errInfo  : Word
  /-- IN_LEN, 16 bits (rule R27). -/
  inLen    : BitVec 16
  /-- BIT_LEN, 24 bits (rule R28). -/
  bitLen   : BitVec 24
  /-- OUT_LEN, 24 bits (rule R29). -/
  outLen   : BitVec 24
  /-- NODE_CNT, 10 bits (rules R31, R43). -/
  nodeCnt  : BitVec 10
  /-- ROOT, 9 bits (rules R31, R43). -/
  root     : NodeIdx
  /-- NODE (rule R40). -/
  node     : NodeArena
  /-- FREQ (rule R33). -/
  freq     : FreqTable
  /-- CODE (rule R44). -/
  code     : CodeTable
  /-- SYM_IN, BITBUF and SYM_OUT (rule R50). -/
  mem      : Memory
  /-- The model's own: what the host does next, oldest first (rules R63, R79; log entry 1). -/
  pending  : List HostInput
  /-- The model's own: the result of the last transaction, none before the first (rule R63; log entry 2). -/
  response : Option BusResult
  /-- The model's own: how many free values have been drawn (log entries 3 and 4). -/
  freeCtr  : Nat
  deriving DecidableEq, Repr

/-- Why the machine stops. The block's own faults are NOT here: they are next states that ERR records (rule R206). -/
inductive Fault where
  /-- Raised by BUILD_CODES when the walk of rule R140 has visited as many nodes as the arena has and its stack is still not
  empty, which needs an arena that is no tree. No state that a run reaches has one (rules R41, R144). SAFE: the spec gives that
  walk no end and no effect (log entry 6). -/
  | codeWalkUnbounded
  deriving DecidableEq, Repr

/-- Why an instruction has no meaning. -/
inductive Refusal where
  /-- Raised by exec alone, for a command that is not modelled yet; no arm uses it. SAFE. -/
  | notModelled (mnemonic : String)
  deriving DecidableEq, Repr

/-- The outcome of a step of this machine. -/
abbrev Result := Host.Outcome State Fault Refusal

/-- The state after reset (rules R52, R230). Every register and table has the value the spec gives. Every byte of the three
buffers is unspecified (rule R74 (a)): nothing is listed, and each buffer has a draw of its own. -/
def State.reset : State where
  err      := 0#3
  errInfo  := 0#32
  inLen    := 0#16
  bitLen   := 0#24
  outLen   := 0#24
  nodeCnt  := 0#10
  root     := Config.nil
  node     := Vector.replicate 511 NodeRec.blank
  freq     := Vector.replicate 256 0#16
  code     := Vector.replicate 256 CodeEntry.absent
  mem      := { cells := [], symInDraw := 0, bitbufDraw := 1, symOutDraw := 2 }
  pending  := []
  response := none
  freeCtr  := 3

end Sys2Proof.Machine
end

