-- ==== Sys2Proof/Machine/Ops.lean ====
section
/-! DEFINITION. The named operations that every meaning shares: the buffers' bytes, the entries of the tables, the answer to a
transaction, TAKING A FAULT (rules R206, R207), the gate that a fault closes (rule R208), and the return from a fault, which is
CLEAR (rules R191, R210). -/

namespace Sys2Proof.Machine

/-- The byte listed at an address, if one is. -/
def lookupCell : List Host.Cell → Nat → Option Byte
  | [], _ => none
  | c :: cs, a => if a = c.1 then some c.2 else lookupCell cs a

/-- The list with one byte stored at an address, in the same rising order. -/
def putCell : List Host.Cell → Nat → Byte → List Host.Cell
  | [], a, v => [(a, v)]
  | c :: cs, a, v =>
    if a < c.1 then (a, v) :: c :: cs
    else if a = c.1 then (a, v) :: cs
    else c :: putCell cs a v

/-- The addresses of SYM_IN (rule R61). -/
def inSymIn (a : Nat) : Bool := decide (Config.symInBase ≤ a) && decide (a < Config.symInBase + Config.symInBytes)

/-- The addresses of BITBUF (rule R61). -/
def inBitbuf (a : Nat) : Bool := decide (Config.bitbufBase ≤ a) && decide (a < Config.bitbufBase + Config.bitbufBytes)

/-- The addresses of SYM_OUT (rule R61). -/
def inSymOut (a : Nat) : Bool := decide (Config.symOutBase ≤ a) && decide (a < Config.symOutBase + Config.symOutBytes)

/-- The addresses at which the block has a byte of a buffer. -/
def inBuffer (a : Nat) : Bool := inSymIn a || inBitbuf a || inSymOut a

/-- The canonical form: addresses strictly rising, each in a buffer. A listed byte is a SPECIFIED one and an unlisted byte is an
unspecified one, so no entry can stand for what an unlisted address reads as (log entry 3). -/
abbrev Memory.wf (m : Memory) : Prop :=
  m.cells.Pairwise (fun c d => c.1 < d.1) ∧ ∀ c ∈ m.cells, inBuffer c.1 = true

/-- What an unlisted address reads as: the unspecified byte of its buffer (rule R74), stable until it is written (rule R64). -/
def Memory.unlisted (m : Memory) (a : Nat) : Byte :=
  if inSymOut a then Config.freeByte m.symOutDraw a
  else if inBitbuf a then Config.freeByte m.bitbufDraw a
  else Config.freeByte m.symInDraw a

/-- The byte stored at a host byte address of a buffer. -/
def Memory.read (m : Memory) (a : Nat) : Byte :=
  match lookupCell m.cells a with
  | some v => v
  | none => m.unlisted a

/-- Stores one byte at a host byte address of a buffer. -/
def Memory.write (m : Memory) (a : Nat) (v : Byte) : Memory := { m with cells := putCell m.cells a v }

/-- Stores bytes at consecutive addresses, the first at the lowest. -/
def Memory.writeBytes (m : Memory) (a : Nat) : List Byte → Memory
  | [] => m
  | v :: vs => (m.write a v).writeBytes (a + 1) vs

/-- The word at an aligned buffer address: byte 4w+j is in bits [8j+7:8j] (rules R69 to R71, R75). -/
def Memory.readWord (m : Memory) (a : Nat) : Word :=
  m.read (a + 3) ++ m.read (a + 2) ++ m.read (a + 1) ++ m.read a

/-- The four bytes of a word in the order of their addresses (rules R69, R71). -/
def wordBytes (w : Word) : List Byte :=
  [w.extractLsb' 0 8, w.extractLsb' 8 8, w.extractLsb' 16 8, w.extractLsb' 24 8]

/-- Stores all four bytes of a word (rules R69, R71). -/
def Memory.writeWord (m : Memory) (a : Nat) (w : Word) : Memory := m.writeBytes a (wordBytes w)

/-- Every byte of BITBUF becomes unspecified (rule R74 (b)). -/
def Memory.havocBitbuf (m : Memory) (draw : Nat) : Memory :=
  { m with cells := m.cells.filter (fun c => !inBitbuf c.1), bitbufDraw := draw }

/-- Every byte of SYM_OUT becomes unspecified (rule R74 (c)). -/
def Memory.havocSymOut (m : Memory) (draw : Nat) : Memory :=
  { m with cells := m.cells.filter (fun c => !inSymOut c.1), symOutDraw := draw }

/-- Where stream bit k is stored (rule R72): the host byte address of BitByte(k div 8). -/
def streamByteAddr (k : Nat) : Nat := Config.bitbufBase + k / 8

/-- BitGet(k) of rules R15 and R72: bit 7 - (k mod 8) of BitByte(k div 8). -/
def Memory.bitGet (m : Memory) (k : Nat) : Bool := (m.read (streamByteAddr k)).getLsbD (7 - k % 8)

/-- A byte with one bit set to a value. -/
def setBit (v : Byte) (j : Nat) (b : Bool) : Byte :=
  if b then v ||| (1#8 <<< j) else v &&& ~~~(1#8 <<< j)

/-- BitPut(k, b) of rules R15 and R72. -/
def Memory.bitPut (m : Memory) (k : Nat) (b : Bool) : Memory :=
  m.write (streamByteAddr k) (setBit (m.read (streamByteAddr k)) (7 - k % 8) b)

/-- NODE[k]; the index NIL = 511 names no record (rules R8, R40). -/
def NodeArena.at (t : NodeArena) (k : Nat) : NodeRec :=
  if h : k < 511 then t[k] else NodeRec.blank

/-- NODE[k] <- r. -/
def NodeArena.put (t : NodeArena) (k : Nat) (r : NodeRec) : NodeArena :=
  if h : k < 511 then t.set k r else t

/-- The arena with no valid record (log entry 5). -/
def NodeArena.empty : NodeArena := Vector.replicate 511 NodeRec.blank

/-- FREQ[s] (rule R33). -/
def FreqTable.at (t : FreqTable) (s : Symbol) : Weight := t[s.toNat]'s.isLt

/-- FREQ[s] <- v. -/
def FreqTable.put (t : FreqTable) (s : Symbol) (v : Weight) : FreqTable := t.set s.toNat v s.isLt

/-- The empty table: all counts 0 (rule R33). -/
def FreqTable.empty : FreqTable := Vector.replicate 256 0#16

/-- CODE[s] (rule R44). -/
def CodeTable.at (t : CodeTable) (s : Symbol) : CodeEntry := t[s.toNat]'s.isLt

/-- CODE[s] <- e. -/
def CodeTable.put (t : CodeTable) (s : Symbol) (e : CodeEntry) : CodeTable := t.set s.toNat e s.isLt

/-- The table with every entry absent (rule R44). -/
def CodeTable.empty : CodeTable := Vector.replicate 256 CodeEntry.absent

/-- Takes the oldest input off the list of what the host does next. -/
def State.takeInput (s : State) (rest : List HostInput) : State := { s with pending := rest }

/-- Answers a transaction with read data (rule R63). -/
def State.answer (s : State) (r : Resp) (data : Word) : State := { s with response := some ⟨r, data⟩ }

/-- Answers a transaction for which the spec gives no read data: it is a free value (rules R62, R63, R67; log entry 4). -/
def State.answerNoData (s : State) (r : Resp) : State :=
  { s with response := some ⟨r, Config.freeWord s.freeCtr⟩, freeCtr := s.freeCtr + 1 }

/-- The five fault classes (rule R200). -/
inductive ErrClass where
  | emptyInput
  | invariantViolation
  | unknownSymbol
  | malformedBitstream
  | illegalCommand
  deriving DecidableEq, Repr

/-- The ERR code of a fault class (rules R25, R200). -/
def ErrClass.code : ErrClass → BitVec 3
  | .emptyInput => 1#3
  | .invariantViolation => 2#3
  | .unknownSymbol => 3#3
  | .malformedBitstream => 4#3
  | .illegalCommand => 5#3

/-- The output object of a command (rule R207). An illegal command word has none. -/
inductive OutputObject where
  | tree
  | codes
  | bitstream
  | recovered
  | nothing
  deriving DecidableEq, Repr

/-- Makes an output object invalid (rule R207). -/
def State.invalidate (s : State) : OutputObject → State
  | .tree => { s with node := NodeArena.empty, nodeCnt := 0#10, root := Config.nil }
  | .codes => { s with code := CodeTable.empty }
  | .bitstream => { s with bitLen := 0#24, mem := s.mem.havocBitbuf s.freeCtr, freeCtr := s.freeCtr + 1 }
  | .recovered => { s with outLen := 0#24, mem := s.mem.havocSymOut s.freeCtr, freeCtr := s.freeCtr + 1 }
  | .nothing => s

/-- TAKING A FAULT, the raise E(info) of rules R15 and R206: ERR <- the code of E, ERR_INFO <- info, and the output object of the
running command is made invalid. Nothing else is saved or changed, and control goes nowhere. -/
def State.raise (s : State) (e : ErrClass) (info : Word) (out : OutputObject) : State :=
  { s with err := e.code, errInfo := info }.invalidate out

/-- The faulted condition: ERR != 0 (rules R25, R208). -/
def State.faulted (s : State) : Bool := s.err != 0#3

/-- The gate of rules R91 (1) and R208: a faulted block does nothing at all for a command other than CLEAR. -/
def State.runCommand (s : State) (effect : State → Result) : Result :=
  if s.faulted then .next s else effect s

/-- THE RETURN FROM A FAULT (rule R210), which is what CLEAR does (rule R191): every register and table takes its reset value and
the bytes of the buffers stay. -/
def State.clearAll (s : State) : State :=
  { s with
    err := 0#3, errInfo := 0#32, inLen := 0#16, bitLen := 0#24, outLen := 0#24,
    nodeCnt := 0#10, root := Config.nil, node := NodeArena.empty,
    freq := FreqTable.empty, code := CodeTable.empty }

/-- The reset input (rules R230, R231): CLEAR's effect, and every byte of the three buffers becomes unspecified (rule R74 (a)). -/
def State.applyReset (s : State) : State :=
  { s.clearAll with
    mem := { cells := [], symInDraw := s.freeCtr, bitbufDraw := s.freeCtr + 1, symOutDraw := s.freeCtr + 2 },
    freeCtr := s.freeCtr + 3 }

end Sys2Proof.Machine
end

