-- ==== Sys2Proof/Machine/Operands.lean ====
section
/-! DEFINITION. The operands of the commands, all implicit (rule R93): the input sequence, the bitstream, the tree's records and
the code of a symbol. -/

namespace Sys2Proof.Machine

/-- SymIn(i) (rules R15, R69). -/
def State.symIn (s : State) (i : Nat) : Symbol := s.mem.read (Config.symInBase + i)

/-- SymOut(i) (rules R15, R70). -/
def State.symOut (s : State) (i : Nat) : Symbol := s.mem.read (Config.symOutBase + i)

/-- BitByte(i) (rule R71). -/
def State.bitByte (s : State) (i : Nat) : Byte := s.mem.read (Config.bitbufBase + i)

/-- BitGet(k) (rules R15, R72). -/
def State.bitGet (s : State) (k : Nat) : Bool := s.mem.bitGet k

/-- The operand `input`: SymIn(0) to SymIn(IN_LEN - 1) (rules R27, R93). -/
def State.input (s : State) : List Symbol := (List.range s.inLen.toNat).map s.symIn

/-- The operand `bits`: stream bits 0 to BIT_LEN - 1 (rules R28, R72, R93). -/
def State.stream (s : State) : List Bool := (List.range s.bitLen.toNat).map s.bitGet

/-- The bit-string of a code-table entry: len bits, bit j of the string being bits[j] (rules R16, R44). -/
def CodeEntry.string (e : CodeEntry) : List Bool := (List.range e.len.toNat).map e.bits.getLsbD

/-- The vector whose bit j is bit j of a bit-string, 0 above (rule R44). -/
def packCode : List Bool → BitVec 255
  | [] => 0#255
  | b :: p => (packCode p <<< 1) ||| BitVec.setWidth 255 (BitVec.ofBool b)

/-- The present entry whose code is a given bit-string (rules R44, R140). -/
def CodeEntry.ofString (p : List Bool) : CodeEntry :=
  { present := true, len := BitVec.ofNat 8 p.length, bits := packCode p }

/-- A step from a node to a child: 0 goes left and 1 goes right (rules R141, R171). -/
def NodeRec.child (r : NodeRec) (b : Bool) : NodeIdx := if b then r.right else r.left

/-- The byte whose bits, the most significant first, are b 0 to b 7 (rule R72). -/
def byteOfBits (b : Nat → Bool) : Byte :=
  BitVec.ofBool (b 0) ++ BitVec.ofBool (b 1) ++ BitVec.ofBool (b 2) ++ BitVec.ofBool (b 3) ++
    BitVec.ofBool (b 4) ++ BitVec.ofBool (b 5) ++ BitVec.ofBool (b 6) ++ BitVec.ofBool (b 7)

/-- The packer (rules R72, R73, R157): a bit-string of L bits as (L + 7) div 8 bytes, the unused low bits of the last byte 0. -/
def packBits (bits : List Bool) : List Byte :=
  (List.range ((bits.length + 7) / 8)).map (fun i => byteOfBits (fun j => bits.getD (8 * i + j) false))

end Sys2Proof.Machine
end

