-- ==== Sys2Proof/Machine/CodeTable.lean ====
section
/-! DEFINITION. BUILD_CODES, the code table builder (spec/42_code_table.md). -/

namespace Sys2Proof.Machine

/-- How the walk of rule R140 ends. -/
inductive WalkEnd where
  | table (t : CodeTable)
  | malformed (k : NodeIdx)
  | unbounded
  deriving DecidableEq, Repr

/-- A child index that names no valid record (rule R144 (b)). -/
def badChild (cnt : Nat) (k : NodeIdx) : Bool := k == Config.nil || decide (cnt ≤ k.toNat)

/-- The walk of rule R140 with its explicit stack, left first (rule R142): so many visits at most (rule R244). -/
def codeWalk (t : NodeArena) (cnt : Nat) : Nat → List (NodeIdx × List Bool) → CodeTable → WalkEnd
  | _, [], codes => .table codes
  | 0, _ :: _, _ => .unbounded
  | fuel + 1, (k, p) :: stack, codes =>
    let r := t.at k.toNat
    if r.leaf then codeWalk t cnt fuel stack (codes.put r.sym (CodeEntry.ofString p))
    else if badChild cnt r.left || badChild cnt r.right then .malformed k
    else codeWalk t cnt fuel ((r.left, p ++ [false]) :: (r.right, p ++ [true]) :: stack) codes

/-- The ERR_INFO of an InvariantViolation: a node index in bits [8:0] (rule R202). -/
def nodeInfo (k : NodeIdx) : Word := BitVec.setWidth 32 k

/-- BUILD_CODES (rules R140, R143, R144). -/
def execBuildCodes (s : State) : Result :=
  s.runCommand fun s =>
    if s.nodeCnt = 0#10 then .next (s.raise .invariantViolation (nodeInfo Config.nil) .codes)
    else
      let r := s.node.at s.root.toNat
      if r.leaf then .next { s with code := CodeTable.empty.put r.sym (CodeEntry.ofString [false]) }
      else
        match codeWalk s.node s.nodeCnt.toNat Config.nodeMax [(s.root, [])] CodeTable.empty with
        | .table codes => .next { s with code := codes }
        | .malformed k => .next (s.raise .invariantViolation (nodeInfo k) .codes)
        | .unbounded => .fault .codeWalkUnbounded

end Sys2Proof.Machine
end

