-- ==== Sys2Proof/Machine/Control.lean ====
section
/-! DEFINITION. NOP and CLEAR (spec/45_control.md). -/

namespace Sys2Proof.Machine

/-- NOP (rule R190): no state changes; a faulted block ignores it, which is the same. -/
def execNop (s : State) : Result := s.runCommand fun s => .next s

/-- CLEAR (rules R191, R210): the only command a faulted block executes. -/
def execClear (s : State) : Result := .next s.clearAll

end Sys2Proof.Machine
end

