-- ==== Sys2Proof/Machine/Decoder.lean ====
section
/-! DEFINITION. DECODE, the tree walker with bit unpacker and output sequencer (spec/44_decoder.md). -/

namespace Sys2Proof.Machine

/-- Why a walk is malformed: the sub-cause and the bit position (rule R204). -/
structure Malformed where
  sub : BitVec 8
  pos : Nat
  deriving DecidableEq, Repr

/-- The walk of rule R170 from bit k on: cur is the cursor and start the position of the first bit of the current code. -/
def decodeWalk (t : NodeArena) (root : NodeIdx) : List Bool → NodeIdx → Nat → Nat → Except Malformed (List Symbol)
  | [], cur, _, start => if cur = root then .ok [] else .error ⟨2#8, start⟩
  | b :: bs, cur, k, start =>
    if (t.at cur.toNat).leaf then .error ⟨1#8, k⟩
    else
      let next := (t.at cur.toNat).child b
      if (t.at next.toNat).leaf then
        match decodeWalk t root bs root (k + 1) (k + 1) with
        | .ok out => .ok ((t.at next.toNat).sym :: out)
        | .error e => .error e
      else decodeWalk t root bs next (k + 1) start

/-- The ERR_INFO of a MalformedBitstream: the bit position in [23:0], the sub-cause in [25:24], 0 above (rule R204). -/
def malformedInfo (e : Malformed) : Word := e.sub ++ BitVec.ofNat 24 e.pos

/-- A successful DECODE: symbol number m goes to byte m of SYM_OUT (rules R70, R171). -/
def State.deliver (s : State) (out : List Symbol) : State :=
  { s with mem := s.mem.writeBytes Config.symOutBase out, outLen := BitVec.ofNat 24 out.length }

/-- DECODE (rules R170 to R177). -/
def execDecode (s : State) : Result :=
  s.runCommand fun s =>
    if s.bitLen = 0#24 then .next (s.deliver [])
    else if s.nodeCnt = 0#10 then .next (s.raise .malformedBitstream (malformedInfo ⟨3#8, 0⟩) .recovered)
    else
      let r := s.node.at s.root.toNat
      if r.leaf then .next (s.deliver (List.replicate s.bitLen.toNat r.sym))
      else
        match decodeWalk s.node s.root s.stream s.root 0 0 with
        | .ok out => .next (s.deliver out)
        | .error e => .next (s.raise .malformedBitstream (malformedInfo e) .recovered)

end Sys2Proof.Machine
end

