-- ==== Sys2Proof/Machine/Encoder.lean ====
section
/-! DEFINITION. ENCODE, the symbol-to-code lookup with the bit packer (spec/43_encoder.md). -/

namespace Sys2Proof.Machine

/-- The lookups of rule R155 from input index i on: the concatenated codes, or the first index whose symbol has none. -/
def encodeFrom (codes : CodeTable) : Nat → List Symbol → Except (Nat × Symbol) (List Bool)
  | _, [] => .ok []
  | i, x :: xs =>
    if (codes.at x).present then
      match encodeFrom codes (i + 1) xs with
      | .ok bits => .ok ((codes.at x).string ++ bits)
      | .error e => .error e
    else .error (i, x)

/-- The ERR_INFO of an UnknownSymbol: symbol in [7:0], input index in [23:8], 0 above (rules R156, R203). -/
def unknownSymbolInfo (i : Nat) (x : Symbol) : Word := 0#8 ++ BitVec.ofNat 16 i ++ x

/-- ENCODE (rules R155 to R158, R73). -/
def execEncode (s : State) : Result :=
  s.runCommand fun s =>
    match encodeFrom s.code 0 s.input with
    | .ok bits => .next { s with
        mem := s.mem.writeBytes Config.bitbufBase (packBits bits),
        bitLen := BitVec.ofNat 24 bits.length }
    | .error (i, x) => .next (s.raise .unknownSymbol (unknownSymbolInfo i x) .bitstream)

end Sys2Proof.Machine
end

