-- ==== Sys2Proof/Machine/Freq.lean ====
section
/-! DEFINITION. FREQ, the frequency counter (spec/40_freq.md). -/

namespace Sys2Proof.Machine

/-- One pass of FREQ's loop: FREQ[x] <- FREQ[x] + 1 (rule R110). -/
def countOne (t : FreqTable) (x : Symbol) : FreqTable := t.put x (t.at x + 1#16)

/-- The loop of rule R110 over the input, from the empty table. -/
def countSymbols (input : List Symbol) : FreqTable := input.foldl countOne FreqTable.empty

/-- FREQ (rule R110): it cannot fault and writes FREQ alone. -/
def execFreq (s : State) : Result :=
  s.runCommand fun s => .next { s with freq := countSymbols s.input }

end Sys2Proof.Machine
end

