-- ==== Sys2Proof/Machine/TreeBuilder.lean ====
section
/-! DEFINITION. BUILD_TREE, the priority-queue merge engine (spec/41_tree_builder.md). -/

namespace Sys2Proof.Machine

/-- The keys of a frequency table in ascending symbol ordinal: the symbols with a count above zero (rules R33, R123). -/
def FreqTable.keys (t : FreqTable) : List Symbol :=
  ((List.range 256).map (BitVec.ofNat 8)).filter (fun s => t.at s != 0#16)

/-- The leaf of a key (rule R123). -/
def leafOf (t : FreqTable) (s : Symbol) : NodeRec :=
  { weight := t.at s, leaf := true, sym := s, left := Config.nil, right := Config.nil }

/-- Stores records at consecutive indices. -/
def NodeArena.putAll (t : NodeArena) (k : Nat) : List NodeRec → NodeArena
  | [] => t
  | r :: rs => (t.put k r).putAll (k + 1) rs

/-- The order in which nodes are extracted: the pair (weight, index), lexicographically (rule R122). -/
def lowerKey (t : NodeArena) (a b : Nat) : Bool :=
  decide ((t.at a).weight < (t.at b).weight) || ((t.at a).weight == (t.at b).weight && decide (a < b))

/-- The argmin of rule R17 over a candidate and a list. -/
def argmin (t : NodeArena) : Nat → List Nat → Nat
  | a, [] => a
  | a, b :: bs => argmin t (if lowerKey t b a then b else a) bs

/-- "Extract the lowest" (rule R122): the argmin of the collection, and the collection without it. -/
def extractLowest (t : NodeArena) : List Nat → Option (Nat × List Nat)
  | [] => none
  | a :: q => some (argmin t a q, (a :: q).erase (argmin t a q))

/-- The working storage of the merge loop (rule R48): the arena, the collection Q and the next free index. -/
structure Merging where
  arena : NodeArena
  queue : List Nat
  free  : Nat
  deriving DecidableEq, Repr

/-- The internal node of a merge: the first extracted is the left child (rules R124, R125). -/
def internalOf (t : NodeArena) (a b : Nat) : NodeRec :=
  { weight := (t.at a).weight + (t.at b).weight, leaf := false, sym := 0#8,
    left := BitVec.ofNat 9 a, right := BitVec.ofNat 9 b }

/-- One merge, or none when fewer than two nodes are left (rule R120). -/
def mergeOnce (m : Merging) : Option Merging :=
  match extractLowest m.arena m.queue with
  | none => none
  | some (a, q) =>
    match extractLowest m.arena q with
    | none => none
    | some (b, q') =>
      some { arena := m.arena.put m.free (internalOf m.arena a b), queue := q' ++ [m.free], free := m.free + 1 }

/-- The merge loop, at most so many merges. -/
def mergeAll : Nat → Merging → Merging
  | 0, m => m
  | fuel + 1, m =>
    match mergeOnce m with
    | none => m
    | some m' => mergeAll fuel m'

/-- The leaves of a frequency table and the collection before the first merge (rules R120, R123). -/
def startMerging (t : FreqTable) : Merging :=
  { arena := NodeArena.empty.putAll 0 (t.keys.map (leafOf t)),
    queue := List.range t.keys.length,
    free := t.keys.length }

/-- The arena that BUILD_TREE leaves: n leaves and n - 1 merges (rule R120). -/
def builtArena (t : FreqTable) : NodeArena := (mergeAll t.keys.length (startMerging t)).arena

/-- BUILD_TREE (rules R120, R121). -/
def execBuildTree (s : State) : Result :=
  s.runCommand fun s =>
    if s.freq.keys.length = 0 then .next (s.raise .emptyInput 0#32 .tree)
    else .next { s with
      node := builtArena s.freq,
      nodeCnt := BitVec.ofNat 10 (2 * s.freq.keys.length - 1),
      root := BitVec.ofNat 9 (2 * s.freq.keys.length - 2) }

end Sys2Proof.Machine
end

