-- ==== Sys2Proof/Machine/Flags.lean ====
section
/-! DEFINITION. The two status flags (rule R32) and the register views made of fields (rules R24, R31). The block has no condition
codes. -/

namespace Sys2Proof.Machine

/-- TREE_VALID = (NODE_CNT != 0) (rules R24, R32). -/
def State.treeValid (s : State) : Bool := s.nodeCnt != 0#10

/-- CODES_VALID: some entry of CODE is present (rules R24, R32). -/
def State.codesValid (s : State) : Bool := s.code.toList.any (fun e => e.present)

/-- STATUS: ERR in [2:0], TREE_VALID in [4], CODES_VALID in [5], 0 elsewhere (rule R24). -/
def State.statusWord (s : State) : Word :=
  0#26 ++ BitVec.ofBool s.codesValid ++ BitVec.ofBool s.treeValid ++ 0#1 ++ s.err

/-- TREE_INFO: NODE_CNT in [9:0], ROOT in [24:16], 0 elsewhere (rule R31). -/
def State.treeInfoWord (s : State) : Word := 0#7 ++ s.root ++ 0#6 ++ s.nodeCnt

end Sys2Proof.Machine
end

