-- ==== Sys2Proof/Machine/Bus.lean ====
section
/-! DEFINITION. The host port: the address map (rules R22, R61), what a read returns (rule R64), what a write does (rules R65 to
R68), and issuing a command (rule R91). -/

namespace Sys2Proof.Machine

/-- The control registers (rule R22). -/
inductive Reg where
  | cmd
  | status
  | errInfo
  | inLen
  | bitLen
  | outLen
  | treeInfo
  | id
  deriving DecidableEq, Repr

/-- What an aligned address names (rule R61). A buffer word is named by its own host byte address. -/
inductive Target where
  | reg (r : Reg)
  | freq (s : Symbol)
  | codeLen (s : Symbol)
  | node (slot : NodeIdx) (word1 : Bool)
  | codeBits (s : Symbol) (j : BitVec 3)
  | symIn (a : Nat)
  | bitbuf (a : Nat)
  | symOut (a : Nat)
  | unmapped
  deriving DecidableEq, Repr

/-- The register at word n of the register block (rule R22). -/
def Reg.ofIndex : Nat → Reg
  | 0 => .cmd
  | 1 => .status
  | 2 => .errInfo
  | 3 => .inLen
  | 4 => .bitLen
  | 5 => .outLen
  | 6 => .treeInfo
  | _ => .id

/-- The byte address of a register (rule R22). -/
def Reg.addr : Reg → Nat
  | .cmd => 0x0000000
  | .status => 0x0000004
  | .errInfo => 0x0000008
  | .inLen => 0x000000C
  | .bitLen => 0x0000010
  | .outLen => 0x0000014
  | .treeInfo => 0x0000018
  | .id => 0x000001C

/-- The address map (rule R61) on the byte address of an aligned word. -/
def Target.ofNat (n : Nat) : Target :=
  if n < 0x0000020 then .reg (Reg.ofIndex (n / 4))
  else if n < 0x0000400 then .unmapped
  else if n < 0x0000800 then .freq (BitVec.ofNat 8 ((n - 0x0000400) / 4))
  else if n < 0x0000C00 then .codeLen (BitVec.ofNat 8 ((n - 0x0000800) / 4))
  else if n < 0x0001000 then .unmapped
  else if n < 0x0002000 then .node (BitVec.ofNat 9 ((n - 0x0001000) / 8)) (decide (4 ≤ n % 8))
  else if n < 0x0004000 then .codeBits (BitVec.ofNat 8 ((n - 0x0002000) / 32)) (BitVec.ofNat 3 (n % 32 / 4))
  else if inSymIn n then .symIn n
  else if inBitbuf n then .bitbuf n
  else if inSymOut n then .symOut n
  else .unmapped

/-- The same for a host byte address. -/
def Target.ofAddr (a : Addr) : Target := Target.ofNat a.toNat

/-- What a control register reads (rules R23, R24, R26 to R31). -/
def State.readReg (s : State) : Reg → Word
  | .cmd => 0#32
  | .status => s.statusWord
  | .errInfo => s.errInfo
  | .inLen => BitVec.setWidth 32 s.inLen
  | .bitLen => BitVec.setWidth 32 s.bitLen
  | .outLen => BitVec.setWidth 32 s.outLen
  | .treeInfo => s.treeInfoWord
  | .id => Config.idValue

/-- The word of a CODE_LEN entry (rule R46). -/
def CodeEntry.lenWord (e : CodeEntry) : Word := BitVec.ofBool e.present ++ 0#23 ++ e.len

/-- Word j of a CODE_BITS entry: bit i is bits[32*j + i], and bits[255] reads 0 (rule R47). -/
def CodeEntry.bitsWord (e : CodeEntry) (j : BitVec 3) : Word :=
  (BitVec.setWidth 256 e.bits).extractLsb' (32 * j.toNat) 32

/-- Word 0 of a valid node slot (rule R42). -/
def NodeRec.word0 (r : NodeRec) : Word := 1#1 ++ BitVec.ofBool r.leaf ++ 0#6 ++ r.sym ++ r.weight

/-- Word 1 of a valid node slot (rule R42). -/
def NodeRec.word1 (r : NodeRec) : Word := 0#7 ++ r.right ++ 0#7 ++ r.left

/-- A word of the NODE window; an invalid slot reads 0 (rule R42). -/
def State.nodeWord (s : State) (slot : NodeIdx) (word1 : Bool) : Word :=
  if slot.toNat < s.nodeCnt.toNat ∧ slot ≠ Config.nil then
    (if word1 then (s.node.at slot.toNat).word1 else (s.node.at slot.toNat).word0)
  else 0#32

/-- The word that a target reads, none where the target is unmapped (rules R64, R67). -/
def State.readTarget (s : State) : Target → Option Word
  | .reg r => some (s.readReg r)
  | .freq x => some (BitVec.setWidth 32 (s.freq.at x))
  | .codeLen x => some (s.code.at x).lenWord
  | .node k word1 => some (s.nodeWord k word1)
  | .codeBits x j => some ((s.code.at x).bitsWord j)
  | .symIn a => some (s.mem.readWord a)
  | .bitbuf a => some (s.mem.readWord a)
  | .symOut a => some (s.mem.readWord a)
  | .unmapped => none

/-- A host read (rules R62, R64, R67): no read changes anything but the answer. -/
def State.hostRead (s : State) (a : Addr) : State :=
  if Addr.aligned a then
    match s.readTarget (Target.ofAddr a) with
    | some w => s.answer .okay w
    | none => s.answerNoData .error
  else s.answerNoData .error

/-- A write of a word that names no command (rules R94, R205); a faulted block ignores it (rule R208). -/
def execIllegal (w : Word) (s : State) : Result :=
  s.runCommand fun s => .next (s.raise .illegalCommand w .nothing)

/-- Issuing the command word w (rules R68, R91). -/
def issueCommand (w : Word) (s : State) : Result :=
  match decode w with
  | .ok i => exec i s
  | .error _ => execIllegal w s

/-- A host write to a target other than CMD: none where the write is turned away (rules R65, R66, R67). -/
def State.writeTarget (s : State) (w : Word) : Target → Option State
  | .reg .inLen => some { s with inLen := w.extractLsb' 0 16 }
  | .reg .bitLen => some { s with bitLen := w.extractLsb' 0 24 }
  | .symIn a => some { s with mem := s.mem.writeWord a w }
  | .bitbuf a => some { s with mem := s.mem.writeWord a w }
  | .reg .cmd => none
  | .reg .status => none
  | .reg .errInfo => none
  | .reg .outLen => none
  | .reg .treeInfo => none
  | .reg .id => none
  | .freq _ => none
  | .codeLen _ => none
  | .node _ _ => none
  | .codeBits _ _ => none
  | .symOut _ => none
  | .unmapped => none

/-- A host write (rules R62, R65 to R68). The CMD write is answered OKAY whatever the command does (rule R91). -/
def State.hostWrite (s : State) (a : Addr) (w : Word) : Result :=
  if Addr.aligned a then
    if Target.ofAddr a = .reg .cmd then issueCommand w (s.answerNoData .okay)
    else
      match s.writeTarget w (Target.ofAddr a) with
      | some s' => .next (s'.answerNoData .okay)
      | none => .next (s.answerNoData .error)
  else .next (s.answerNoData .error)

/-- One host transaction (rule R63). -/
def State.transact (s : State) (t : Transaction) : Result :=
  match t.kind with
  | .read => .next (s.hostRead t.addr)
  | .write => s.hostWrite t.addr t.wdata

/-- What one input of the outside does (rules R10, R230). -/
def State.accept (s : State) : HostInput → Result
  | .transaction t => s.transact t
  | .reset => .next s.applyReset

/-- One step: the oldest input, or nothing at all when the host is silent, since the block never acts on its own (rules R11, R79,
R215). -/
def State.advance (s : State) : Result :=
  match s.pending with
  | [] => .next s
  | i :: rest => (s.takeInput rest).accept i

/-- The transaction that issues the command word w (rule R90). -/
def commandInput (w : Word) : HostInput := .transaction ⟨.write, 0x0000000#25, w⟩

end Sys2Proof.Machine
end

