-- ==== Sys2Proof/Machine/Step.lean ====
section
/-! DEFINITION. One step of the machine: one input of the host (rules R10, R79). -/

namespace Sys2Proof.Machine

/-- One step (Machine/Bus.lean, State.advance). -/
def step (s : State) : Host.Outcome State Fault Refusal := s.advance

/-- The state in which the host's next transaction writes the given command word to CMD (rules R21, R90; log entry 1). -/
def State.withFetchWord (s : State) (nbits w : Nat) : State :=
  { s with pending := commandInput (tableWord nbits w) :: s.pending }

end Sys2Proof.Machine
end

