-- ==== Sys2Proof/Machine/Script.lean ====
section
/-! DEFINITION. The host script of rules R96 and R97: lines, each one transaction, and the pseudo-instructions. -/

namespace Sys2Proof.Machine

/-- The target of a WR or RD line (rule R96). Offsets and indices are as the rule writes them; the rule gives an offset no bound. -/
inductive ScriptTarget where
  | at (a : Addr)
  | reg (r : Reg)
  | symIn (off : Nat)
  | bitbuf (off : Nat)
  | symOut (off : Nat)
  | freq (s : Symbol)
  | codeLen (s : Symbol)
  | nodeW0 (k : NodeIdx)
  | nodeW1 (k : NodeIdx)
  | codeBits (s : Symbol) (j : BitVec 3)
  deriving DecidableEq, Repr

/-- The host byte address of a target (rule R96). DESIGN CHOICE (log entry 19): rule R96 does not bound the offset of SYM_IN+off,
BITBUF+off or SYM_OUT+off; any offset is taken, and a sum above 0x1FFFFFF wraps to the 25 bits of an address, so SYM_OUT+0x1000000
names CMD. -/
def ScriptTarget.addr : ScriptTarget → Addr
  | .at a => a
  | .reg r => BitVec.ofNat 25 r.addr
  | .symIn off => BitVec.ofNat 25 (0x0010000 + off)
  | .bitbuf off => BitVec.ofNat 25 (0x0200000 + off)
  | .symOut off => BitVec.ofNat 25 (0x1000000 + off)
  | .freq s => BitVec.ofNat 25 (0x0000400 + 4 * s.toNat)
  | .codeLen s => BitVec.ofNat 25 (0x0000800 + 4 * s.toNat)
  | .nodeW0 k => BitVec.ofNat 25 (0x0001000 + 8 * k.toNat)
  | .nodeW1 k => BitVec.ofNat 25 (0x0001004 + 8 * k.toNat)
  | .codeBits s j => BitVec.ofNat 25 (0x0002000 + 32 * s.toNat + 4 * j.toNat)

/-- A line of a script (rule R96). -/
inductive Line where
  | wr (target : ScriptTarget) (value : Word)
  | rd (target : ScriptTarget)
  | command (i : Instr)
  deriving DecidableEq, Repr

/-- The transaction a line encodes (rule R96). -/
def Line.transaction : Line → Transaction
  | .wr t v => ⟨.write, t.addr, v⟩
  | .rd t => ⟨.read, t.addr, 0#32⟩
  | .command i => ⟨.write, 0x0000000#25, encode i⟩

/-- A script as the inputs the host will give, in order. -/
def scriptInputs (lines : List Line) : List HostInput := lines.map (fun l => .transaction l.transaction)

/-- Bytes packed into words, missing bytes 0x00 (rules R69, R97). -/
def packWords (bytes : List Byte) : List Word :=
  (List.range ((bytes.length + 3) / 4)).map fun w =>
    bytes.getD (4 * w + 3) 0#8 ++ bytes.getD (4 * w + 2) 0#8 ++ bytes.getD (4 * w + 1) 0#8 ++ bytes.getD (4 * w) 0#8

/-- LOADSYM (rule R97). The number of bytes is cut to the 32 bits of a WR line's value (log entry 19). -/
def loadSym (bytes : List Byte) : List Line :=
  (packWords bytes).zipIdx.map (fun x => .wr (.symIn (4 * x.2)) x.1) ++
    [.wr (.reg .inLen) (BitVec.ofNat 32 bytes.length)]

/-- LOADBITS (rule R97). The number of digits is cut to the 32 bits of a WR line's value (log entry 19). -/
def loadBits (bits : List Bool) : List Line :=
  (packWords (packBits bits)).zipIdx.map (fun x => .wr (.bitbuf (4 * x.2)) x.1) ++
    [.wr (.reg .bitLen) (BitVec.ofNat 32 bits.length)]

/-- COMPRESS (rule R97). -/
def compress : List Line := [.command .freq, .command .buildTree, .command .buildCodes, .command .encode]

/-- ROUNDTRIP (rule R97). -/
def roundtrip : List Line := compress ++ [.command .decode]

end Sys2Proof.Machine
end

