-- ==== Sys2Proof/Safety.lean ====
section
/-! DEFINITION. The terms that claims use: what two states share, the shape of a tree (rule R41), paths and codes (rules R44, R45,
R141), the merge order (rule R122), the pseudocode's bit-by-bit packer (rule R155), an arbitrary binary tree over the keys (rule
R129), and the invariants of a run. -/

namespace Sys2Proof.Machine

/-- Every piece of state the spec gives the block is the same; only the model's own three fields may differ. -/
abbrev State.SameBlock (s t : State) : Prop :=
  t.err = s.err ∧ t.errInfo = s.errInfo ∧ t.inLen = s.inLen ∧ t.bitLen = s.bitLen ∧ t.outLen = s.outLen ∧
  t.nodeCnt = s.nodeCnt ∧ t.root = s.root ∧ t.node = s.node ∧ t.freq = s.freq ∧ t.code = s.code ∧ t.mem = s.mem

/-- The state after one transaction answered OKAY with no read data; its rdata is a free value (log entry 4). -/
def State.afterOkay (s : State) (rest : List HostInput) : State := (s.takeInput rest).answerNoData .okay

/-- The state after one transaction answered ERROR; its rdata is a free value (log entry 4). -/
def State.afterError (s : State) (rest : List HostInput) : State := (s.takeInput rest).answerNoData .error

/-- The state after one read answered OKAY with a word. -/
def State.afterRead (s : State) (rest : List HostInput) (w : Word) : State := (s.takeInput rest).answer .okay w

/-- A read of an address, whatever its wdata, which is ignored for a read (rule R63). -/
def readInput (a : Addr) (d : Word) : HostInput := .transaction ⟨.read, a, d⟩

/-- A write of a word to an address. -/
def writeInput (a : Addr) (w : Word) : HostInput := .transaction ⟨.write, a, w⟩

/-- The sum of all counts (rules R34, R113). -/
def FreqTable.total (t : FreqTable) : Nat :=
  ((List.range 256).map (fun i => (t.at (BitVec.ofNat 8 i)).toNat)).sum

/-- How many symbols are keys (rule R120). -/
def FreqTable.keyCount (t : FreqTable) : Nat :=
  ((List.range 256).filter (fun i => decide (0 < (t.at (BitVec.ofNat 8 i)).toNat))).length

/-- Node k has index c as a child. -/
abbrev NodeArena.hasChild (t : NodeArena) (k c : Nat) : Prop :=
  (t.at k).left.toNat = c ∨ (t.at k).right.toNat = c

/-- The invariants of rule R41 for a tree of n leaves, and the model's own form of the invalid slots (log entry 5). -/
structure NodeArena.IsTree (t : NodeArena) (n : Nat) : Prop where
  /-- Rule R41 (a). -/
  size : 1 ≤ n ∧ n ≤ 256
  /-- Rules R40, R41 (b): the leaves, each with the count of a key. -/
  leaves : ∀ k < n, (t.at k).leaf = true ∧ (t.at k).left = Config.nil ∧ (t.at k).right = Config.nil ∧
    0 < (t.at k).weight.toNat
  /-- Rule R41 (b): ascending order of sym. -/
  ascending : ∀ k < n, ∀ j < k, (t.at j).sym < (t.at k).sym
  /-- Rules R40, R41 (c): the internal nodes; the sum does not wrap (rule R127). -/
  internals : ∀ k < 2 * n - 1, n ≤ k →
    (t.at k).leaf = false ∧ (t.at k).sym = 0#8 ∧ (t.at k).left.toNat < k ∧ (t.at k).right.toNat < k ∧
    (t.at k).left ≠ (t.at k).right ∧
    (t.at k).weight.toNat = (t.at (t.at k).left.toNat).weight.toNat + (t.at (t.at k).right.toNat).weight.toNat
  /-- Rule R41 (d): every valid node but the root is a child of exactly one internal node. -/
  oneParent : ∀ c < 2 * n - 2, ∃ k < 2 * n - 1, (n ≤ k ∧ t.hasChild k c) ∧
    ∀ j < 2 * n - 1, (n ≤ j ∧ t.hasChild j c) → j = k
  /-- Rule R41 (e). -/
  rootWeight : (t.at (2 * n - 2)).weight.toNat = ((List.range n).map (fun k => (t.at k).weight.toNat)).sum
  /-- Log entry 5. -/
  rest : ∀ k < 511, 2 * n - 1 ≤ k → t.at k = NodeRec.blank

/-- The block holds a tree of n leaves (rules R41, R43). -/
structure State.HoldsTree (s : State) (n : Nat) : Prop where
  tree : s.node.IsTree n
  cnt  : s.nodeCnt = BitVec.ofNat 10 (2 * n - 1)
  root : s.root = BitVec.ofNat 9 (2 * n - 2)

/-- The block holds no tree (rule R43). -/
structure State.HoldsNoTree (s : State) : Prop where
  cnt  : s.nodeCnt = 0#10
  root : s.root = Config.nil
  node : s.node = NodeArena.empty

/-- Where a path leads from a node: 0 left, 1 right (rule R141); nowhere past a leaf. -/
def NodeArena.follow (t : NodeArena) : NodeIdx → List Bool → Option NodeIdx
  | k, [] => some k
  | k, b :: p => if (t.at k.toNat).leaf then none else t.follow ((t.at k.toNat).child b) p

/-- The path p from the root ends at the leaf of the symbol x. -/
def State.leafPath (s : State) (x : Symbol) (p : List Bool) : Prop :=
  ∃ k, s.node.follow s.root p = some k ∧ (s.node.at k.toNat).leaf = true ∧ (s.node.at k.toNat).sym = x

/-- The path p from the root ends at an internal node. -/
def State.innerPath (s : State) (p : List Bool) : Prop :=
  ∃ k, s.node.follow s.root p = some k ∧ (s.node.at k.toNat).leaf = false

/-- Index i is in the priority collection when the internal node k of a tree of n leaves is made: it exists and no internal node
made before has taken it (rules R120, R122). -/
abbrev NodeArena.inQueue (t : NodeArena) (n k i : Nat) : Prop :=
  i < k ∧ ∀ j < k, n ≤ j → ¬ t.hasChild j i

/-- The order of extraction: (weight, index), lexicographically (rule R122). -/
abbrev NodeArena.before (t : NodeArena) (a b : Nat) : Prop :=
  (t.at a).weight < (t.at b).weight ∨ ((t.at a).weight = (t.at b).weight ∧ a < b)

/-- Node k was made of the two lowest of the collection, two different nodes since the first is removed before the second is
extracted, the lowest as its left child (rules R120, R122, R124). -/
structure NodeArena.MadeOfLowest (t : NodeArena) (n k : Nat) : Prop where
  left   : t.inQueue n k (t.at k).left.toNat
  right  : t.inQueue n k (t.at k).right.toNat
  differ : (t.at k).left ≠ (t.at k).right
  first  : ∀ i < k, t.inQueue n k i → i ≠ (t.at k).left.toNat → t.before (t.at k).left.toNat i
  second : ∀ i < k, t.inQueue n k i → i ≠ (t.at k).left.toNat → i ≠ (t.at k).right.toNat →
    t.before (t.at k).right.toNat i

/-- The form of an entry (rules R44, R45 (b)): an absent one is all zero, a present one has 1 <= len and zeros above its len bits. -/
def CodeEntry.Legal (e : CodeEntry) : Prop :=
  (e.present = false → e = CodeEntry.absent) ∧
  (e.present = true → 1 ≤ e.len.toNat ∧ ∀ j, e.len.toNat ≤ j → e.bits.getLsbD j = false)

/-- No code is a prefix of another (rule R45 (c)). -/
def CodeTable.PrefixFree (t : CodeTable) : Prop :=
  ∀ x y : Symbol, x ≠ y → (t.at x).present = true → (t.at y).present = true →
    ¬ (t.at x).string <+: (t.at y).string

/-- The BitPut loop of rule R155 over a bit-string. -/
def Memory.putBits (m : Memory) (pos : Nat) : List Bool → Memory
  | [] => m
  | b :: bs => (m.bitPut pos b).putBits (pos + 1) bs

/-- The loop of rule R155, written as its pseudocode: memory and bit position after the codes of the symbols from index i on, or the
index and the symbol of an UnknownSymbol. -/
def encodeLoop (codes : CodeTable) : Memory → Nat → Nat → List Symbol → Except (Nat × Symbol) (Memory × Nat)
  | m, pos, _, [] => .ok (m, pos)
  | m, pos, i, x :: xs =>
    if (codes.at x).present then
      encodeLoop codes (m.putBits pos (codes.at x).string) (pos + (codes.at x).len.toNat) (i + 1) xs
    else .error (i, x)

/-- The zero padding of the last byte at the end of rule R155's pseudocode. -/
def Memory.zeroFill (m : Memory) (pos : Nat) : Memory :=
  if pos % 8 = 0 then m else m.putBits pos (List.replicate (8 - pos % 8) false)

/-- An arbitrary binary tree with symbols at its leaves (rule R129). -/
inductive AnyTree where
  | leaf (x : Symbol)
  | node (l r : AnyTree)
  deriving DecidableEq, Repr

/-- The symbols of a tree's leaves. -/
def AnyTree.symbols : AnyTree → List Symbol
  | .leaf x => [x]
  | .node l r => l.symbols ++ r.symbols

/-- The sum of weight times depth over the leaves, for a tree that hangs at depth d (rule R129). -/
def AnyTree.cost (w : Symbol → Nat) : AnyTree → Nat → Nat
  | .leaf x, d => w x * d
  | .node l r, d => l.cost w (d + 1) + r.cost w (d + 1)

/-- ERR is one of the codes the block produces, and ERR_INFO is 0 while there is no fault (rules R25, R26). -/
abbrev State.ErrLegal (s : State) : Prop := s.err.toNat ≤ 5 ∧ (s.err = 0#3 → s.errInfo = 0#32)

/-- The counts sum to at most IN_MAX, so no weight can wrap (rules R9, R127). -/
def State.FreqBounded (s : State) : Prop := s.freq.total ≤ Config.inMax

/-- There is no tree, or the arena holds one (rules R41, R43). -/
def State.TreeInv (s : State) : Prop := s.HoldsNoTree ∨ ∃ n, s.HoldsTree n

/-- Every entry of CODE is legal and no code is a prefix of another (rules R44, R45). -/
def State.CodesInv (s : State) : Prop := (∀ x, (s.code.at x).Legal) ∧ s.code.PrefixFree

/-- The draws that the buffers use have been taken: the draws from freeCtr on have never been used (log entries 3 and 13). -/
abbrev State.DrawsTaken (s : State) : Prop :=
  s.mem.symInDraw < s.freeCtr ∧ s.mem.bitbufDraw < s.freeCtr ∧ s.mem.symOutDraw < s.freeCtr

/-- The invariant of every run. -/
structure State.Inv (s : State) : Prop where
  err   : s.ErrLegal
  freq  : s.FreqBounded
  tree  : s.TreeInv
  codes : s.CodesInv
  mem   : s.mem.wf
  draws : s.DrawsTaken

/-- A safe step: it ends in a next state, never in a fault or a refusal. -/
def Safe (s : State) : Prop := ∃ t, step s = .next t

end Sys2Proof.Machine
end

