-- ==== Sys2Proof/Certificates/Slice0/Obligations.lean ====
section
/-! DEFINITION. The statements for the provers. Each docstring names the rule of spec/ that its statement comes from, and says
where a clause is the model's choice. -/

open Sys2Proof Sys2Proof.Machine

/-! ### Reset, CLEAR, NOP -/

/-- The values of rule R52: every piece of state after reset. That an unspecified byte is the free value of its address and its
buffer's draw, and that the three draws differ, is the model's choice (log entries 3 and 13). -/
def Obligations.ResetStateAsListed : Prop :=
  State.reset.err = 0#3 ∧ State.reset.errInfo = 0#32 ∧ State.reset.inLen = 0#16 ∧ State.reset.bitLen = 0#24 ∧
  State.reset.outLen = 0#24 ∧ State.reset.nodeCnt = 0#10 ∧ State.reset.root = 0x1FF#9 ∧ State.reset.treeValid = false ∧
  (∀ k word1, State.reset.nodeWord k word1 = 0#32) ∧
  (∀ x, State.reset.freq.at x = 0#16) ∧
  (∀ x, State.reset.code.at x = { present := false, len := 0#8, bits := 0#255 }) ∧
  State.reset.codesValid = false ∧ State.reset.readReg .id = 0x48554601#32 ∧
  (∀ a, inSymIn a = true → State.reset.mem.read a = Config.freeByte State.reset.mem.symInDraw a) ∧
  (∀ a, inBitbuf a = true → State.reset.mem.read a = Config.freeByte State.reset.mem.bitbufDraw a) ∧
  (∀ a, inSymOut a = true → State.reset.mem.read a = Config.freeByte State.reset.mem.symOutDraw a) ∧
  State.reset.mem.symInDraw ≠ State.reset.mem.bitbufDraw ∧ State.reset.mem.symInDraw ≠ State.reset.mem.symOutDraw ∧
  State.reset.mem.bitbufDraw ≠ State.reset.mem.symOutDraw

/-- Rules R230, R231: the reset input gives every register and table its reset value and leaves every byte of the three buffers
unspecified; CLEAR differs in keeping the bytes. That the list of inputs still to come and the last answer stay is the model's
choice (log entry 7), and so are the free values of the bytes and the order and freshness of their three draws (log entry 3). -/
def Obligations.ResetInputGivesResetState : Prop :=
  ∀ (s : State) (rest : List HostInput), s.pending = .reset :: rest →
    ∃ t c, step s = .next t ∧ exec .clear (s.takeInput rest) = .next c ∧
      t = { State.reset with mem := t.mem, pending := rest, response := s.response, freeCtr := t.freeCtr } ∧
      c = { t with mem := s.mem, freeCtr := s.freeCtr } ∧
      (∀ a, inSymIn a = true → t.mem.read a = Config.freeByte t.mem.symInDraw a) ∧
      (∀ a, inBitbuf a = true → t.mem.read a = Config.freeByte t.mem.bitbufDraw a) ∧
      (∀ a, inSymOut a = true → t.mem.read a = Config.freeByte t.mem.symOutDraw a) ∧
      s.freeCtr ≤ t.mem.symInDraw ∧ t.mem.symInDraw < t.mem.bitbufDraw ∧ t.mem.bitbufDraw < t.mem.symOutDraw ∧
      t.mem.symOutDraw < t.freeCtr

/-- Rule R191: CLEAR's whole effect, from every state, faulted or not; every byte of memory stays. -/
def Obligations.ClearResetsAllButBuffers : Prop :=
  ∀ s : State, ∃ t, exec .clear s = .next t ∧
    t.err = 0#3 ∧ t.errInfo = 0#32 ∧ t.inLen = 0#16 ∧ t.bitLen = 0#24 ∧ t.outLen = 0#24 ∧ t.nodeCnt = 0#10 ∧
    t.root = 0x1FF#9 ∧ t.treeValid = false ∧ t.codesValid = false ∧
    (∀ k word1, t.nodeWord k word1 = 0#32) ∧ (∀ x, t.freq.at x = 0#16) ∧
    (∀ x, t.code.at x = { present := false, len := 0#8, bits := 0#255 }) ∧
    t.mem = s.mem ∧ t.pending = s.pending ∧ t.response = s.response ∧ t.freeCtr = s.freeCtr

/-- Rule R190: NOP changes nothing, from every state. -/
def Obligations.NopChangesNothing : Prop := ∀ s : State, exec .nop s = .next s

/-! ### The command register -/

/-- Rules R208, R209: a faulted block executes no command but CLEAR, and ignores every other word written to CMD, an illegal one
too; the write is answered OKAY. -/
def Obligations.FaultedBlockExecutesOnlyClear : Prop :=
  (∀ (s : State) (i : Instr), s.err ≠ 0#3 → i ≠ .clear → exec i s = .next s) ∧
  (∀ (s : State) (rest : List HostInput) (w : Word), s.err ≠ 0#3 → s.pending = writeInput 0x0000000#25 w :: rest →
    w ≠ 0x0000000F#32 →
      step s = .next (s.afterOkay rest) ∧ s.SameBlock (s.afterOkay rest) ∧
      ∃ d, (s.afterOkay rest).response = some ⟨.okay, d⟩)

/-- Rule R91: the three cases of a write of w to CMD, in its order, and the response OKAY in every case. -/
def Obligations.CommandWriteCases : Prop :=
  ∀ (s : State) (rest : List HostInput) (w : Word), s.pending = writeInput 0x0000000#25 w :: rest →
    (s.err ≠ 0#3 → w = 0x0000000F#32 → step s = exec .clear (s.afterOkay rest)) ∧
    (s.err ≠ 0#3 → w ≠ 0x0000000F#32 → step s = .next (s.afterOkay rest)) ∧
    (s.err = 0#3 → w.extractLsb' 4 28 ≠ 0#28 ∨ (6 ≤ (w.extractLsb' 0 4).toNat ∧ (w.extractLsb' 0 4).toNat ≤ 14) →
      step s = .next { s.afterOkay rest with err := 5#3, errInfo := w }) ∧
    (s.err = 0#3 → w.extractLsb' 4 28 = 0#28 → ¬ (6 ≤ (w.extractLsb' 0 4).toNat ∧ (w.extractLsb' 0 4).toNat ≤ 14) →
      ∃ i, encode i = w ∧ step s = exec i (s.afterOkay rest)) ∧
    (∀ t, step s = .next t → ∃ d, t.response = some ⟨.okay, d⟩)

/-- Rules R68, R91: when the word that the host writes to CMD decodes to a command, the step is exec of that command at the state
that has taken the transaction off the list and answered it OKAY. -/
def Obligations.StepRunsTheDecodedCommand : Prop :=
  (∀ (s : State) (rest : List HostInput) (w : Word) (i : Instr), s.pending = writeInput 0x0000000#25 w :: rest →
    decode w = .ok i → step s = exec i (s.afterOkay rest)) ∧
  (∀ (s : State) (w : Nat) (i : Instr), decodeTableWord 32 w = some i →
    step (s.withFetchWord 32 w) = exec i (s.afterOkay s.pending))

/-- Rule R92: the words of the opcode table, written out, decode to their commands, and words of rule R94 to none. -/
def Obligations.OpcodeTableWordsDecode : Prop :=
  decode 0b00000000000000000000000000000000#32 = .ok .nop ∧ decode 0b00000000000000000000000000000001#32 = .ok .freq ∧
  decode 0b00000000000000000000000000000010#32 = .ok .buildTree ∧ decode 0b00000000000000000000000000000011#32 = .ok .buildCodes ∧
  decode 0b00000000000000000000000000000100#32 = .ok .encode ∧ decode 0b00000000000000000000000000000101#32 = .ok .decode ∧
  decode 0b00000000000000000000000000001111#32 = .ok .clear ∧
  decode 0x00000006#32 = .error .reservedOpcode ∧ decode 0x0000000E#32 = .error .reservedOpcode ∧
  decode 0x00000011#32 = .error .upperBitsSet ∧ decode 0x8000000F#32 = .error .upperBitsSet

/-- Rules R90, R92, R94: decoding an encoded command gives it back, every word that decodes is the encoding of what it decodes to,
and exactly the words of rule R94 decode to nothing. -/
def Obligations.DecodeAndEncodeAgree : Prop :=
  (∀ i : Instr, i.WellFormed = true → decode (encode i) = .ok i) ∧
  (∀ (w : Word) (i : Instr), decode w = .ok i → encode i = w) ∧
  (∀ w : Word, (∃ e, decode w = .error e) ↔
    (w.extractLsb' 4 28 ≠ 0#28 ∨ (6 ≤ (w.extractLsb' 0 4).toNat ∧ (w.extractLsb' 0 4).toNat ≤ 14)))

/-- Rules R11, R215: with no transaction the block does nothing. -/
def Obligations.IdleBlockKeepsItsState : Prop := ∀ s : State, s.pending = [] → step s = .next s

/-! ### The host port -/

/-- Rule R62: a transaction at an address that is not a multiple of 4 returns ERROR, changes no state, and its read data is
unspecified. That it is the free value Config.freeWord of the counter is the model's choice (log entry 4). -/
def Obligations.MisalignedAccessIsAnError : Prop :=
  ∀ (s : State) (rest : List HostInput) (kind : Kind) (a : Addr) (d : Word), a.toNat % 4 ≠ 0 →
    s.pending = .transaction ⟨kind, a, d⟩ :: rest →
      step s = .next (s.afterError rest) ∧ s.SameBlock (s.afterError rest) ∧
      (s.afterError rest).response = some ⟨.error, Config.freeWord s.freeCtr⟩

/-- Rules R61, R67, R213: an aligned transaction at an unmapped address returns ERROR and changes no state, ERR and ERR_INFO
included. That the unspecified read data is the free value Config.freeWord of the counter is the model's choice (log entry 4). -/
def Obligations.UnmappedAccessIsAnError : Prop :=
  ∀ (s : State) (rest : List HostInput) (kind : Kind) (a : Addr) (d : Word), a.toNat % 4 = 0 →
    (0x20 ≤ a.toNat ∧ a.toNat < 0x400) ∨ (0xC00 ≤ a.toNat ∧ a.toNat < 0x1000) ∨ (0x4000 ≤ a.toNat ∧ a.toNat < 0x10000) ∨
      (0x20000 ≤ a.toNat ∧ a.toNat < 0x200000) ∨ (0x400000 ≤ a.toNat ∧ a.toNat < 0x1000000) →
    s.pending = .transaction ⟨kind, a, d⟩ :: rest →
      step s = .next (s.afterError rest) ∧ s.SameBlock (s.afterError rest) ∧
      (s.afterError rest).response = some ⟨.error, Config.freeWord s.freeCtr⟩

/-- Rule R66: an aligned write to a read-only register, a window or SYM_OUT returns ERROR and changes no state. -/
def Obligations.ReadOnlyWriteIsAnError : Prop :=
  ∀ (s : State) (rest : List HostInput) (a : Addr) (d : Word), a.toNat % 4 = 0 →
    a.toNat = 0x4 ∨ a.toNat = 0x8 ∨ a.toNat = 0x14 ∨ a.toNat = 0x18 ∨ a.toNat = 0x1C ∨
      (0x400 ≤ a.toNat ∧ a.toNat < 0xC00) ∨ (0x1000 ≤ a.toNat ∧ a.toNat < 0x4000) ∨ 0x1000000 ≤ a.toNat →
    s.pending = writeInput a d :: rest →
      step s = .next (s.afterError rest) ∧ s.SameBlock (s.afterError rest) ∧
      ∃ r, (s.afterError rest).response = some ⟨.error, r⟩

/-- Rules R27, R28, R65: a write to IN_LEN stores bits [15:0], a write to BIT_LEN bits [23:0], faulted or not, and nothing else. -/
def Obligations.LengthRegisterWrites : Prop :=
  ∀ (s : State) (rest : List HostInput) (w : Word),
    (s.pending = writeInput 0x000000C#25 w :: rest →
      step s = .next { s.afterOkay rest with inLen := w.extractLsb' 0 16 }) ∧
    (s.pending = writeInput 0x0000010#25 w :: rest →
      step s = .next { s.afterOkay rest with bitLen := w.extractLsb' 0 24 })

/-- Rules R65, R69, R71: an aligned write to SYM_IN or BITBUF stores byte j of the word at address a + j, and nothing else. -/
def Obligations.BufferWriteStoresFourBytes : Prop :=
  ∀ (s : State) (rest : List HostInput) (a : Addr) (w : Word), a.toNat % 4 = 0 →
    (0x10000 ≤ a.toNat ∧ a.toNat < 0x20000) ∨ (0x200000 ≤ a.toNat ∧ a.toNat < 0x400000) →
    s.pending = writeInput a w :: rest →
      ∃ t, step s = .next t ∧ t = { s.afterOkay rest with mem := t.mem } ∧
        (∀ j < 4, t.mem.read (a.toNat + j) = w.extractLsb' (8 * j) 8) ∧
        (∀ b, ¬ (a.toNat ≤ b ∧ b < a.toNat + 4) → t.mem.read b = s.mem.read b)

/-- Rules R63, R64, R69 to R71, R75: an aligned read of a buffer, with any wdata, is answered OKAY with byte a + j in bits
[8j+7:8j], and changes nothing. -/
def Obligations.BufferReadLanes : Prop :=
  ∀ (s : State) (rest : List HostInput) (a : Addr) (d : Word), a.toNat % 4 = 0 →
    (0x10000 ≤ a.toNat ∧ a.toNat < 0x20000) ∨ (0x200000 ≤ a.toNat ∧ a.toNat < 0x400000) ∨ 0x1000000 ≤ a.toNat →
    s.pending = readInput a d :: rest →
      ∃ w, step s = .next (s.afterRead rest w) ∧ ∀ j < 4, w.extractLsb' (8 * j) 8 = s.mem.read (a.toNat + j)

/-- Rules R22 to R32, R63, R68: what every register reads, whatever the wdata; STATUS by its fields. -/
def Obligations.RegisterReads : Prop :=
  ∀ (s : State) (rest : List HostInput) (d : Word),
    (s.pending = readInput 0x0000000#25 d :: rest → step s = .next (s.afterRead rest 0#32)) ∧
    (s.pending = readInput 0x0000004#25 d :: rest →
      ∃ w, step s = .next (s.afterRead rest w) ∧ w.extractLsb' 0 3 = s.err ∧ w.getLsbD 3 = false ∧
        (w.getLsbD 4 = true ↔ s.nodeCnt ≠ 0#10) ∧ (w.getLsbD 5 = true ↔ ∃ x, (s.code.at x).present = true) ∧
        ∀ i, 6 ≤ i → w.getLsbD i = false) ∧
    (s.pending = readInput 0x0000008#25 d :: rest → step s = .next (s.afterRead rest s.errInfo)) ∧
    (s.pending = readInput 0x000000C#25 d :: rest → step s = .next (s.afterRead rest (BitVec.ofNat 32 s.inLen.toNat))) ∧
    (s.pending = readInput 0x0000010#25 d :: rest → step s = .next (s.afterRead rest (BitVec.ofNat 32 s.bitLen.toNat))) ∧
    (s.pending = readInput 0x0000014#25 d :: rest → step s = .next (s.afterRead rest (BitVec.ofNat 32 s.outLen.toNat))) ∧
    (s.pending = readInput 0x0000018#25 d :: rest →
      step s = .next (s.afterRead rest (BitVec.ofNat 32 (s.nodeCnt.toNat + 0x10000 * s.root.toNat)))) ∧
    (s.pending = readInput 0x000001C#25 d :: rest → step s = .next (s.afterRead rest 0x48554601#32))

/-- Rules R35, R46: the FREQ and CODE_LEN windows, whatever the wdata of the read. -/
def Obligations.FreqAndLengthWindows : Prop :=
  ∀ (s : State) (rest : List HostInput) (d : Word) (x : Symbol),
    (s.pending = readInput (BitVec.ofNat 25 (0x400 + 4 * x.toNat)) d :: rest →
      step s = .next (s.afterRead rest (BitVec.ofNat 32 (s.freq.at x).toNat))) ∧
    (s.pending = readInput (BitVec.ofNat 25 (0x800 + 4 * x.toNat)) d :: rest →
      step s = .next (s.afterRead rest
        (BitVec.ofNat 32 ((s.code.at x).len.toNat + if (s.code.at x).present then 0x80000000 else 0))))

/-- Rule R42: the NODE window, whatever the wdata of the read, an invalid slot and slot 511 reading 0. -/
def Obligations.NodeWindow : Prop :=
  ∀ (s : State) (rest : List HostInput) (d : Word) (k : NodeIdx) (hi : Bool), s.pending =
      readInput (BitVec.ofNat 25 (0x1000 + 8 * k.toNat + if hi then 4 else 0)) d :: rest →
    ∃ w, step s = .next (s.afterRead rest w) ∧
      (s.nodeCnt.toNat ≤ k.toNat ∨ k = 0x1FF#9 → w = 0#32) ∧
      (k.toNat < s.nodeCnt.toNat → k ≠ 0x1FF#9 → hi = false →
        w.extractLsb' 0 16 = (s.node.at k.toNat).weight ∧ w.extractLsb' 16 8 = (s.node.at k.toNat).sym ∧
        w.extractLsb' 24 6 = 0#6 ∧ w.getLsbD 30 = (s.node.at k.toNat).leaf ∧ w.getLsbD 31 = true) ∧
      (k.toNat < s.nodeCnt.toNat → k ≠ 0x1FF#9 → hi = true →
        w.extractLsb' 0 9 = (s.node.at k.toNat).left ∧ w.extractLsb' 9 7 = 0#7 ∧
        w.extractLsb' 16 9 = (s.node.at k.toNat).right ∧ w.extractLsb' 25 7 = 0#7)

/-- Rule R47: the CODE_BITS window, whatever the wdata of the read. -/
def Obligations.CodeBitsWindow : Prop :=
  ∀ (s : State) (rest : List HostInput) (d : Word) (x : Symbol) (j : Nat), j < 8 →
    s.pending = readInput (BitVec.ofNat 25 (0x2000 + 32 * x.toNat + 4 * j)) d :: rest →
      ∃ w, step s = .next (s.afterRead rest w) ∧
        ∀ i < 32, w.getLsbD i = (if 32 * j + i < 255 then (s.code.at x).bits.getLsbD (32 * j + i) else false)

/-- Rules R63, R64: no read, of any address and with any wdata, changes any state. -/
def Obligations.ReadsChangeNoState : Prop :=
  ∀ (s : State) (rest : List HostInput) (a : Addr) (d : Word), s.pending = readInput a d :: rest →
    ∃ t, step s = .next t ∧ s.SameBlock t ∧ t.pending = rest ∧ ∃ r, t.response = some r

/-- Rules R4, R25, R66: no transaction but a CMD write changes FREQ, the tree, CODE, OUT_LEN, ERR, ERR_INFO or a byte of SYM_OUT. -/
def Obligations.HostCannotWriteTables : Prop :=
  ∀ (s : State) (rest : List HostInput) (tr : Transaction), s.pending = .transaction tr :: rest →
    ¬ (tr.kind = .write ∧ tr.addr = 0x0000000#25) →
      ∃ t, step s = .next t ∧ t.freq = s.freq ∧ t.node = s.node ∧ t.nodeCnt = s.nodeCnt ∧ t.root = s.root ∧
        t.code = s.code ∧ t.outLen = s.outLen ∧ t.err = s.err ∧ t.errInfo = s.errInfo ∧
        ∀ a, inSymOut a = true → t.mem.read a = s.mem.read a

/-- Rule R76: a write other than to CMD, done twice, leaves the state that it leaves done once. -/
def Obligations.WritesAreIdempotent : Prop :=
  ∀ (s : State) (rest : List HostInput) (a : Addr) (w : Word), a ≠ 0x0000000#25 →
    s.pending = writeInput a w :: writeInput a w :: rest →
      ∃ t u, step s = .next t ∧ step t = .next u ∧ t.SameBlock u

/-- Rules R15, R72: BitGet after BitPut, over the whole stream. -/
def Obligations.StreamBitReadAfterWrite : Prop :=
  ∀ (m : Memory) (k j : Nat) (b : Bool), k < 16777216 → j < 16777216 →
    (m.bitPut k b).bitGet j = if j = k then b else m.bitGet j

/-- Rules R69, R97: LOADSYM puts its bytes into SYM_IN and their number into IN_LEN, and touches no register but IN_LEN. -/
def Obligations.LoadsymLoadsTheInput : Prop :=
  ∀ (s : State) (rest : List HostInput) (bytes : List Byte), bytes.length ≤ 65535 →
    s.pending = scriptInputs (loadSym bytes) ++ rest →
      ∃ t, Host.Core.run Sys2Proof.core (loadSym bytes).length s = .next t ∧
        t = { s with mem := t.mem, inLen := t.inLen, pending := rest, response := t.response, freeCtr := t.freeCtr } ∧
        t.inLen.toNat = bytes.length ∧ (∀ i < bytes.length, t.symIn i = bytes.getD i 0#8) ∧
        ∀ a, inSymIn a = false → t.mem.read a = s.mem.read a

/-! ### FREQ -/

/-- Rule R110: FREQ[s] becomes the number of indices i < IN_LEN with SymIn(i) = s, nothing else changes, FREQ issued again gives the
same table, and a faulted block ignores it. -/
def Obligations.FreqCountsTheInput : Prop :=
  (∀ s : State, s.err = 0#3 → ∃ t, exec .freq s = .next t ∧ t = { s with freq := t.freq } ∧
    (∀ x, (t.freq.at x).toNat = ((List.range s.inLen.toNat).filter (fun i => s.symIn i == x)).length) ∧
    exec .freq t = .next t) ∧
  (∀ s : State, s.err ≠ 0#3 → exec .freq s = .next s)

/-- Rules R34, R113 (the spec's own inferences): after FREQ the counts sum to IN_LEN and the keys are the symbols of the input. -/
def Obligations.FreqTotalIsInputLength : Prop :=
  ∀ s : State, s.err = 0#3 → ∃ t, exec .freq s = .next t ∧ t.freq.total = s.inLen.toNat ∧
    ∀ x, 0 < (t.freq.at x).toNat ↔ ∃ i < s.inLen.toNat, s.symIn i = x

/-! ### BUILD_TREE -/

/-- Rules R121, R201, R207: with no key, BUILD_TREE records EmptyInput, the tree is gone, and nothing else changes. -/
def Obligations.BuildTreeOfEmptyTableFaults : Prop :=
  ∀ s : State, s.err = 0#3 → (∀ x, s.freq.at x = 0#16) → ∃ t, exec .buildTree s = .next t ∧
    t = { s with err := 1#3, errInfo := 0#32, node := t.node, nodeCnt := 0#10, root := 0x1FF#9 } ∧
    t.treeValid = false ∧ ∀ k word1, t.nodeWord k word1 = 0#32

/-- Rules R120, R123, R125, R126, R131, and R41, R127, R128, the spec's own inferences: from counts that do not overflow, BUILD_TREE
completes, leaves a tree with the invariants of rule R41 over exactly the keys, whose root weighs the sum of the counts, and changes
nothing else. That the invalid slots hold one blank record is the model's choice (log entry 5). -/
def Obligations.BuildTreeBuildsATree : Prop :=
  ∀ s : State, s.err = 0#3 → s.FreqBounded → 1 ≤ s.freq.keyCount → ∃ t, exec .buildTree s = .next t ∧
    t = { s with node := t.node, nodeCnt := t.nodeCnt, root := t.root } ∧
    t.HoldsTree s.freq.keyCount ∧
    (∀ x, 0 < (s.freq.at x).toNat ↔ ∃ k < s.freq.keyCount, (t.node.at k).sym = x ∧ (t.node.at k).weight = s.freq.at x) ∧
    (t.node.at t.root.toNat).weight.toNat = s.freq.total

/-- Rules R122, R124: every internal node is made of the two lowest nodes of the collection, by (weight, index): the lowest on the
left, and on the right another node, the lowest of the rest. -/
def Obligations.BuildTreeMergesTheTwoLowest : Prop :=
  ∀ s : State, s.err = 0#3 → s.FreqBounded → 1 ≤ s.freq.keyCount → ∃ t, exec .buildTree s = .next t ∧
    ∀ k < 2 * s.freq.keyCount - 1, s.freq.keyCount ≤ k → t.node.MadeOfLowest s.freq.keyCount k

/-- Rule R129 (the spec's own inference): the sum of count times depth is the least over all binary trees with those leaves. -/
def Obligations.BuildTreeIsOptimal : Prop :=
  ∀ s : State, s.err = 0#3 → s.FreqBounded → 2 ≤ s.freq.keyCount → ∃ t, exec .buildTree s = .next t ∧
    ∀ depth : Symbol → Nat, (∀ x, 0 < (s.freq.at x).toNat → ∃ p, t.leafPath x p ∧ p.length = depth x) →
      ∀ T : AnyTree, T.symbols.Nodup → (∀ x, x ∈ T.symbols ↔ 0 < (s.freq.at x).toNat) →
        ((List.range 256).map
          (fun i => (s.freq.at (BitVec.ofNat 8 i)).toNat * depth (BitVec.ofNat 8 i))).sum ≤
          T.cost (fun x => (s.freq.at x).toNat) 0

/-! ### BUILD_CODES -/

/-- Rules R144 (a), R202, R207: with no tree, BUILD_CODES records InvariantViolation with NIL, empties CODE and changes nothing
else. -/
def Obligations.BuildCodesWithoutTreeFaults : Prop :=
  ∀ s : State, s.err = 0#3 → s.nodeCnt = 0#10 → ∃ t, exec .buildCodes s = .next t ∧
    t = { s with err := 2#3, errInfo := 0x000001FF#32, code := t.code } ∧
    ∀ x, t.code.at x = { present := false, len := 0#8, bits := 0#255 }

/-- Rules R144 (b), R202, for the root: an internal root without two valid children is reported by its index and CODE is emptied. No
run reaches such a state. -/
def Obligations.BuildCodesReportsAMalformedRoot : Prop :=
  ∀ s : State, s.err = 0#3 → s.nodeCnt ≠ 0#10 → (s.node.at s.root.toNat).leaf = false →
    (s.node.at s.root.toNat).left = 0x1FF#9 ∨ (s.node.at s.root.toNat).right = 0x1FF#9 ∨
      s.nodeCnt.toNat ≤ (s.node.at s.root.toNat).left.toNat ∨ s.nodeCnt.toNat ≤ (s.node.at s.root.toNat).right.toNat →
    ∃ t, exec .buildCodes s = .next t ∧
      t = { s with err := 2#3, errInfo := BitVec.ofNat 32 s.root.toNat, code := t.code } ∧
      ∀ x, t.code.at x = { present := false, len := 0#8, bits := 0#255 }

/-- Rule R143: for a root that is a leaf, the one present entry is the code "0" of its symbol. -/
def Obligations.BuildCodesOfASingleLeaf : Prop :=
  ∀ s : State, s.err = 0#3 → s.nodeCnt ≠ 0#10 → (s.node.at s.root.toNat).leaf = true →
    ∃ t, exec .buildCodes s = .next t ∧ t = { s with code := t.code } ∧
      t.code.at (s.node.at s.root.toNat).sym = { present := true, len := 1#8, bits := 0#255 } ∧
      ∀ x, x ≠ (s.node.at s.root.toNat).sym → t.code.at x = { present := false, len := 0#8, bits := 0#255 }

/-- Rules R140, R141, R145: for a tree of two or more leaves, BUILD_CODES completes, the code of every leaf's symbol is the path to
the leaf, every other entry is absent, and nothing else changes. -/
def Obligations.BuildCodesRecordsThePaths : Prop :=
  ∀ (s : State) (n : Nat), s.err = 0#3 → s.HoldsTree n → 2 ≤ n → ∃ t, exec .buildCodes s = .next t ∧
    t = { s with code := t.code } ∧ (∀ x, (t.code.at x).Legal) ∧
    (∀ x, (t.code.at x).present = true ↔ ∃ k < n, (s.node.at k).sym = x) ∧
    (∀ x, (t.code.at x).present = true → s.leafPath x (t.code.at x).string) ∧
    (∀ x p, s.leafPath x p → (t.code.at x).string = p)

/-- Rules R131, R147: BUILD_TREE keeps FREQ, BUILD_CODES keeps the tree, and each issued again gives the same state. That
the invalid slots hold one blank record is the model's choice (log entry 5). -/
def Obligations.RebuildingGivesTheSame : Prop :=
  (∀ s : State, s.err = 0#3 → ∃ t, exec .buildTree s = .next t ∧ t.freq = s.freq ∧ exec .buildTree t = .next t) ∧
  (∀ (s : State) (n : Nat), s.err = 0#3 → s.HoldsTree n → ∃ t, exec .buildCodes s = .next t ∧ t.HoldsTree n ∧
    exec .buildCodes t = .next t)

/-- Rules R45, R145 (the spec's own inferences): after a BUILD_CODES of any tree no code is a prefix of another. -/
def Obligations.BuiltCodesArePrefixFree : Prop :=
  ∀ (s : State) (n : Nat), s.err = 0#3 → s.HoldsTree n → ∃ t, exec .buildCodes s = .next t ∧ t.code.PrefixFree

/-- Rules R9 (c), R146 (the spec's own inferences): in a tree of n leaves, n at least 2, a leaf's path has at least 1 and at most n
- 1 bits. -/
def Obligations.CodeLengthIsBounded : Prop :=
  ∀ (s : State) (n : Nat) (x : Symbol) (p : List Bool), s.HoldsTree n → 2 ≤ n → s.leafPath x p →
    1 ≤ p.length ∧ p.length ≤ n - 1

/-! ### ENCODE -/

/-- Rules R73, R155, R157, R160: when every input symbol has a code, ENCODE completes: the stream is the codes in input order, the
fill bits are 0, BIT_LEN is the sum of the lengths, and every other byte and register stays. -/
def Obligations.EncodePacksTheCodes : Prop :=
  ∀ s : State, s.err = 0#3 → (∀ i < s.inLen.toNat, (s.code.at (s.symIn i)).present = true) →
    ∃ (t : State) (bits : List Bool), exec .encode s = .next t ∧
      bits = ((List.range s.inLen.toNat).map (fun i => (s.code.at (s.symIn i)).string)).flatten ∧
      t = { s with mem := { s.mem with cells := t.mem.cells }, bitLen := t.bitLen } ∧
      t.bitLen.toNat = bits.length ∧
      t.bitLen.toNat = ((List.range s.inLen.toNat).map (fun i => (s.code.at (s.symIn i)).len.toNat)).sum ∧
      (∀ k < bits.length, t.bitGet k = bits.getD k false) ∧
      (∀ k, bits.length ≤ k → k < 8 * ((bits.length + 7) / 8) → t.bitGet k = false) ∧
      (∀ a, ¬ (0x200000 ≤ a ∧ a < 0x200000 + (bits.length + 7) / 8) → t.mem.read a = s.mem.read a)

/-- Rules R156, R203, R207: at the lowest index whose symbol has no code, ENCODE records UnknownSymbol, BIT_LEN is 0, every byte of
BITBUF is unspecified and nothing else changes. That an unspecified byte is the free value of its address and of the draw freeCtr, which
grows, is the model's choice (log entry 3); the draw has never been used before by State.Inv. -/
def Obligations.EncodeReportsTheFirstUnknownSymbol : Prop :=
  ∀ (s : State) (i : Nat), s.err = 0#3 → i < s.inLen.toNat → (s.code.at (s.symIn i)).present = false →
    (∀ j < i, (s.code.at (s.symIn j)).present = true) →
      ∃ t, exec .encode s = .next t ∧
        t = { s with err := 3#3, errInfo := t.errInfo, bitLen := 0#24, mem := t.mem, freeCtr := t.freeCtr } ∧
        t.errInfo.extractLsb' 0 8 = s.symIn i ∧ (t.errInfo.extractLsb' 8 16).toNat = i ∧ t.errInfo.extractLsb' 24 8 = 0#8 ∧
        (∀ a, inBitbuf a = true → t.mem.read a = Config.freeByte s.freeCtr a) ∧ s.freeCtr < t.freeCtr ∧
        ∀ a, inBitbuf a = false → t.mem.read a = s.mem.read a

/-- Rule R158 (the spec's own inference): with IN_LEN = 0, ENCODE writes BIT_LEN <- 0 and nothing else, whatever CODE holds. -/
def Obligations.EncodeOfEmptyInput : Prop :=
  ∀ s : State, s.err = 0#3 → s.inLen = 0#16 → exec .encode s = .next { s with bitLen := 0#24 }

/-- Rules R155, R157, R72, R73: ENCODE's byte-wise packer leaves exactly the memory and BIT_LEN of the BitPut loop of rule R155's
pseudocode with its zero padding. -/
def Obligations.EncodeMatchesTheBitLoop : Prop :=
  ∀ (s : State) (m : Memory) (pos : Nat), s.err = 0#3 → s.mem.wf → encodeLoop s.code s.mem 0 0 s.input = .ok (m, pos) →
    exec .encode s = .next { s with mem := m.zeroFill pos, bitLen := BitVec.ofNat 24 pos }

/-! ### DECODE -/

/-- Rule R173: with BIT_LEN = 0, DECODE writes OUT_LEN <- 0 and nothing else, whether or not a tree exists. -/
def Obligations.DecodeOfEmptyStream : Prop :=
  ∀ s : State, s.err = 0#3 → s.bitLen = 0#24 → exec .decode s = .next { s with outLen := 0#24 }

/-- Rules R174, R204, R207: with bits and no tree, DECODE records MalformedBitstream, sub-cause 3 at position 0, OUT_LEN is 0, every
byte of SYM_OUT is unspecified and nothing else changes. That an unspecified byte is the free value of its address and of the draw
freeCtr, which grows, is the model's choice (log entry 3); the draw has never been used before by State.Inv. -/
def Obligations.DecodeWithoutTreeFaults : Prop :=
  ∀ s : State, s.err = 0#3 → s.bitLen ≠ 0#24 → s.nodeCnt = 0#10 → ∃ t, exec .decode s = .next t ∧
    t = { s with err := 4#3, errInfo := 0x03000000#32, outLen := 0#24, mem := t.mem, freeCtr := t.freeCtr } ∧
    (∀ a, inSymOut a = true → t.mem.read a = Config.freeByte s.freeCtr a) ∧ s.freeCtr < t.freeCtr ∧
    ∀ a, inSymOut a = false → t.mem.read a = s.mem.read a

/-- Rule R172: for a root that is a leaf, DECODE gives its symbol once per bit, whatever the bits are. -/
def Obligations.DecodeWithASingleLeaf : Prop :=
  ∀ s : State, s.err = 0#3 → s.bitLen ≠ 0#24 → s.nodeCnt ≠ 0#10 → (s.node.at s.root.toNat).leaf = true →
    ∃ t, exec .decode s = .next t ∧ t = { s with mem := { s.mem with cells := t.mem.cells }, outLen := s.bitLen } ∧
      (∀ i < s.bitLen.toNat, t.symOut i = (s.node.at s.root.toNat).sym) ∧
      ∀ a, ¬ (0x1000000 ≤ a ∧ a < 0x1000000 + s.bitLen.toNat) → t.mem.read a = s.mem.read a

/-- Rules R170, R171: a stream that is the paths to the leaves of some symbols, one after another, decodes to those symbols; every
other byte and register stays. -/
def Obligations.DecodeRecoversWholeCodes : Prop :=
  ∀ (s : State) (n : Nat) (codes : List (Symbol × List Bool)), s.err = 0#3 → s.HoldsTree n → 2 ≤ n →
    (∀ c ∈ codes, s.leafPath c.1 c.2) → s.stream = (codes.map (fun c => c.2)).flatten →
      ∃ t, exec .decode s = .next t ∧
        t = { s with mem := { s.mem with cells := t.mem.cells }, outLen := t.outLen } ∧
        t.outLen.toNat = codes.length ∧
        (∀ i < codes.length, t.symOut i = (codes.map (fun c => c.1)).getD i 0#8) ∧
        ∀ a, ¬ (0x1000000 ≤ a ∧ a < 0x1000000 + codes.length) → t.mem.read a = s.mem.read a

/-- Rules R175, R177, R204: a stream that ends inside a code is MalformedBitstream with sub-cause 2 and the position of the first
bit of that code; OUT_LEN is 0, SYM_OUT is unspecified and nothing else changes. That an unspecified byte is the free value of its
address and of the draw freeCtr, which grows, is the model's choice (log entry 3); the draw has never been used before by State.Inv. -/
def Obligations.DecodeReportsTruncation : Prop :=
  ∀ (s : State) (n : Nat) (codes : List (Symbol × List Bool)) (q : List Bool), s.err = 0#3 → s.HoldsTree n → 2 ≤ n →
    (∀ c ∈ codes, s.leafPath c.1 c.2) → s.innerPath q → q ≠ [] → s.stream = (codes.map (fun c => c.2)).flatten ++ q →
      ∃ t, exec .decode s = .next t ∧
        t = { s with err := 4#3, errInfo := t.errInfo, outLen := 0#24, mem := t.mem, freeCtr := t.freeCtr } ∧
        t.errInfo.extractLsb' 24 8 = 2#8 ∧
        (t.errInfo.extractLsb' 0 24).toNat = ((codes.map (fun c => c.2)).flatten).length ∧
        (∀ a, inSymOut a = true → t.mem.read a = Config.freeByte s.freeCtr a) ∧ s.freeCtr < t.freeCtr ∧
        ∀ a, inSymOut a = false → t.mem.read a = s.mem.read a

/-- Rules R170, R175, R179: for a tree of two or more leaves every stream is whole codes followed by an inner path, so the two
statements before this one cover every stream. -/
def Obligations.EveryStreamIsCodesAndAnInnerPath : Prop :=
  ∀ (s : State) (n : Nat) (bits : List Bool), s.HoldsTree n → 2 ≤ n →
    ∃ (codes : List (Symbol × List Bool)) (q : List Bool), (∀ c ∈ codes, s.leafPath c.1 c.2) ∧ s.innerPath q ∧
      bits = (codes.map (fun c => c.2)).flatten ++ q

/-- Rule R176 (the spec's own inference): from no state at all does DECODE report a descent from a leaf (sub-cause 1). -/
def Obligations.DecodeNeverDescendsFromALeaf : Prop :=
  ∀ s : State, s.err = 0#3 → ∃ t, exec .decode s = .next t ∧ (t.err = 0#3 ∨ (t.err = 4#3 ∧ t.errInfo.extractLsb' 24 8 ≠ 1#8))

/-- Rules R179, R180: DECODE's result depends on BIT_LEN, the stream bits below it and the tree alone. That the stream positions at
BIT_LEN and above do not matter is rule R180; that nothing else but the tree matters is the spec's own inference, rule R179. -/
def Obligations.DecodeReadsOnlyTheStream : Prop :=
  ∀ s s' : State, s.err = 0#3 → s'.err = 0#3 → s'.bitLen = s.bitLen → s'.nodeCnt = s.nodeCnt → s'.root = s.root →
    s'.node = s.node → (∀ k < s.bitLen.toNat, s'.bitGet k = s.bitGet k) →
      ∃ t t', exec .decode s = .next t ∧ exec .decode s' = .next t' ∧ t'.err = t.err ∧ t'.outLen = t.outLen ∧
        (t.err ≠ 0#3 → t'.errInfo = t.errInfo) ∧ (∀ i < t.outLen.toNat, t'.symOut i = t.symOut i)

/-! ### Whole-machine rules -/

/-- Rule R178 (the spec's own inference): FREQ, BUILD_TREE, BUILD_CODES, ENCODE, DECODE from a non-faulted state with a non-empty
input end non-faulted with the input recovered; for the empty input ENCODE and DECODE alone do. -/
def Obligations.RoundTripRecoversTheInput : Prop :=
  (∀ s : State, s.err = 0#3 → s.inLen ≠ 0#16 → ∃ s1 s2 s3 s4 s5,
    exec .freq s = .next s1 ∧ exec .buildTree s1 = .next s2 ∧ exec .buildCodes s2 = .next s3 ∧
    exec .encode s3 = .next s4 ∧ exec .decode s4 = .next s5 ∧ s5.err = 0#3 ∧ s5.outLen.toNat = s.inLen.toNat ∧
    ∀ i < s.inLen.toNat, s5.symOut i = s.symIn i) ∧
  (∀ s : State, s.err = 0#3 → s.inLen = 0#16 → ∃ s1 s2,
    exec .encode s = .next s1 ∧ exec .decode s1 = .next s2 ∧ s2.err = 0#3 ∧ s2.outLen = 0#24)

/-- Rule R51: a command other than CLEAR writes only its own output object, ERR and ERR_INFO. -/
def Obligations.CommandsWriteOnlyTheirOutput : Prop :=
  ∀ (i : Instr) (s t : State), i ≠ .clear → exec i s = .next t →
    t.inLen = s.inLen ∧ t.pending = s.pending ∧ t.response = s.response ∧
    (∀ a, inSymIn a = true → t.mem.read a = s.mem.read a) ∧
    (i ≠ .freq → t.freq = s.freq) ∧
    (i ≠ .buildTree → t.node = s.node ∧ t.nodeCnt = s.nodeCnt ∧ t.root = s.root) ∧
    (i ≠ .buildCodes → t.code = s.code) ∧
    (i ≠ .encode → t.bitLen = s.bitLen ∧ ∀ a, inBitbuf a = true → t.mem.read a = s.mem.read a) ∧
    (i ≠ .decode → t.outLen = s.outLen ∧ ∀ a, inSymOut a = true → t.mem.read a = s.mem.read a)

/-- Rules R92, R200: from a block that is not faulted, a command that completes leaves ERR 0 or the one code of its fault class;
NOP, FREQ and CLEAR leave it 0. -/
def Obligations.EachCommandHasOneFaultClass : Prop :=
  ∀ s t : State, s.err = 0#3 →
    (exec .nop s = .next t → t.err = 0#3) ∧ (exec .freq s = .next t → t.err = 0#3) ∧
    (exec .clear s = .next t → t.err = 0#3) ∧
    (exec .buildTree s = .next t → t.err = 0#3 ∨ t.err = 1#3) ∧
    (exec .buildCodes s = .next t → t.err = 0#3 ∨ t.err = 2#3) ∧
    (exec .encode s = .next t → t.err = 0#3 ∨ t.err = 3#3) ∧
    (exec .decode s = .next t → t.err = 0#3 ∨ t.err = 4#3)

/-- Rules R25, R208, R210: while the block is faulted, a step keeps ERR and ERR_INFO unless it is the CLEAR word or reset, which
make both 0. -/
def Obligations.OnlyClearAndResetEndAFault : Prop :=
  ∀ s t : State, s.err ≠ 0#3 → step s = .next t →
    (t.err = s.err ∧ t.errInfo = s.errInfo) ∨
    (t.err = 0#3 ∧ t.errInfo = 0#32 ∧ ∃ rest,
      s.pending = .reset :: rest ∨ s.pending = writeInput 0x0000000#25 0x0000000F#32 :: rest)

/-- Every step keeps the buffers' bytes in canonical form (the model's own form of rule R50; log entry 3). -/
def Obligations.StepKeepsMemoryCanonical : Prop := ∀ s t : State, s.mem.wf → step s = .next t → t.mem.wf

/-- Rules R25, R26, R200: every step keeps ERR among the codes that the block produces, and ERR_INFO 0 while there is no fault. -/
def Obligations.StepKeepsErrLegal : Prop := ∀ s t : State, s.ErrLegal → step s = .next t → t.ErrLegal

/-- Rules R9, R41, R43, R127 (the spec's own inferences): every step keeps the counts bounded and the arena either without a tree or
a tree with the invariants of rule R41; that its invalid slots are blank is the model's choice (log entry 5). -/
def Obligations.StepKeepsTheTree : Prop :=
  ∀ s t : State, s.FreqBounded → s.TreeInv → step s = .next t → t.FreqBounded ∧ t.TreeInv

/-- Rules R44, R45: every step from a state whose arena is legal keeps every code-table entry legal and the table prefix-free. -/
def Obligations.StepKeepsTheCodesPrefixFree : Prop :=
  ∀ s t : State, s.TreeInv → s.CodesInv → step s = .next t → t.CodesInv

/-- Rules R17, R78 and spec/93 part 2: from every state that meets the invariant, a step ends in a next state that meets it: no host
input leads to a fault or a refusal of the machine. That the draws in use lie below freeCtr, so that a draw taken from it has never
been used before, and the form of memory and of the blank slots, are the model's own (log entries 3, 5 and 13). -/
def Obligations.EveryStepIsSafe : Prop :=
  ∀ s : State, s.Inv → Safe s ∧ ∀ t, step s = .next t → t.Inv

/-- The state after reset meets the invariant of every run; the draws and the form of memory are the model's own (log entries 3, 5,
13). -/
def Obligations.ResetMeetsTheInvariants : Prop := State.reset.Inv
end

