-- ==== Sys2Proof/Laws/Memory.lean ====
section
/-! SUPPORT. The laws of the buffers' bytes: read after write, what a write and a loss of contents leave alone, and that every
operation keeps the canonical form. -/

namespace Sys2Proof.Machine

theorem lookupCell_putCell_self (cs : List Host.Cell) (a : Nat) (v : Byte) : lookupCell (putCell cs a v) a = some v := by
  induction cs with
  | nil => simp [putCell, lookupCell]
  | cons c cs ih =>
    unfold putCell
    split
    · simp [lookupCell]
    · split
      · simp [lookupCell]
      · rename_i h
        simp [lookupCell, h, ih]

theorem lookupCell_putCell_of_ne (cs : List Host.Cell) {a b : Nat} (v : Byte) (h : b ≠ a) :
    lookupCell (putCell cs a v) b = lookupCell cs b := by
  induction cs with
  | nil => simp [putCell, lookupCell, h]
  | cons c cs ih =>
    unfold putCell
    split
    · simp [lookupCell, h]
    · split
      · rename_i e
        have : b ≠ c.1 := fun x => h (x.trans e.symm)
        simp [lookupCell, h, this]
      · simp [lookupCell, ih]

theorem mem_putCell {cs : List Host.Cell} {a : Nat} {v : Byte} {d : Host.Cell} (h : d ∈ putCell cs a v) :
    d = (a, v) ∨ d ∈ cs := by
  induction cs with
  | nil => simpa [putCell] using h
  | cons c cs ih =>
    unfold putCell at h
    split at h
    · simpa using h
    · split at h
      · rcases List.mem_cons.mp h with h | h
        · exact .inl h
        · exact .inr (List.mem_cons_of_mem _ h)
      · rcases List.mem_cons.mp h with h | h
        · exact .inr (h ▸ List.mem_cons_self)
        · exact (ih h).imp_right (List.mem_cons_of_mem _)

theorem pairwise_putCell {cs : List Host.Cell} (a : Nat) (v : Byte) (h : cs.Pairwise (fun c d => c.1 < d.1)) :
    (putCell cs a v).Pairwise (fun c d => c.1 < d.1) := by
  induction cs with
  | nil => simp [putCell]
  | cons c cs ih =>
    obtain ⟨hc, hs⟩ := List.pairwise_cons.mp h
    unfold putCell
    split
    · rename_i hlt
      refine List.pairwise_cons.mpr ⟨fun d hd => ?_, h⟩
      rcases List.mem_cons.mp hd with rfl | hd
      · exact hlt
      · exact Nat.lt_trans hlt (hc d hd)
    · split
      · rename_i e
        exact List.pairwise_cons.mpr ⟨fun d hd => e ▸ hc d hd, hs⟩
      · rename_i h1 h2
        refine List.pairwise_cons.mpr ⟨fun d hd => ?_, ih hs⟩
        rcases mem_putCell hd with rfl | hd
        · show c.1 < a
          omega
        · exact hc d hd

/-- Storing the same byte twice is storing it once. -/
theorem putCell_putCell (cs : List Host.Cell) (a : Nat) (v w : Byte) : putCell (putCell cs a v) a w = putCell cs a w := by
  induction cs with
  | nil => simp [putCell]
  | cons c cs ih =>
    by_cases h1 : a < c.1
    · simp [putCell, h1]
    · by_cases h2 : a = c.1
      · simp [putCell, h2]
      · simp [putCell, h1, h2, ih]

theorem putCell_comm (cs : List Host.Cell) {a b : Nat} (v w : Byte) (h : a < b) :
    putCell (putCell cs a v) b w = putCell (putCell cs b w) a v := by
  induction cs with
  | nil => simp [putCell, h, Nat.lt_asymm h, Nat.ne_of_gt h]
  | cons c cs ih =>
    rcases Nat.lt_trichotomy a c.1 with h1 | h1 | h1
    · rcases Nat.lt_trichotomy b c.1 with h2 | h2 | h2
      · simp [putCell, h1, h2, h, Nat.lt_asymm h, Nat.ne_of_gt h]
      · subst h2; simp [putCell, h, Nat.lt_asymm h, Nat.ne_of_gt h]
      · simp [putCell, h1, Nat.lt_asymm h, Nat.ne_of_gt h, Nat.lt_asymm h2, Nat.ne_of_gt h2]
    · subst h1
      simp [putCell, Nat.lt_asymm h, Nat.ne_of_gt h]
    · have h2 : c.1 < b := Nat.lt_trans h1 h
      simp [putCell, Nat.lt_asymm h1, Nat.ne_of_gt h1, Nat.lt_asymm h2, Nat.ne_of_gt h2, ih]

@[simp] theorem Memory.write_symInDraw (m : Memory) (a : Nat) (v : Byte) : (m.write a v).symInDraw = m.symInDraw := rfl
@[simp] theorem Memory.write_bitbufDraw (m : Memory) (a : Nat) (v : Byte) : (m.write a v).bitbufDraw = m.bitbufDraw := rfl
@[simp] theorem Memory.write_symOutDraw (m : Memory) (a : Nat) (v : Byte) : (m.write a v).symOutDraw = m.symOutDraw := rfl
@[simp] theorem Memory.write_cells (m : Memory) (a : Nat) (v : Byte) : (m.write a v).cells = putCell m.cells a v := rfl

@[simp] theorem Memory.unlisted_write (m : Memory) (a b : Nat) (v : Byte) : (m.write a v).unlisted b = m.unlisted b := rfl

@[simp] theorem Memory.read_write_self (m : Memory) (a : Nat) (v : Byte) : (m.write a v).read a = v := by
  simp [Memory.read, lookupCell_putCell_self]

theorem Memory.read_write_of_ne (m : Memory) {a b : Nat} (v : Byte) (h : b ≠ a) : (m.write a v).read b = m.read b := by
  simp [Memory.read, lookupCell_putCell_of_ne _ _ h]

theorem Memory.write_write (m : Memory) (a : Nat) (v w : Byte) : (m.write a v).write a w = m.write a w := by
  simp [Memory.write, putCell_putCell]

theorem Memory.writeBytes_draws (m : Memory) (a : Nat) (vs : List Byte) :
    m.writeBytes a vs = { m with cells := (m.writeBytes a vs).cells } := by
  induction vs generalizing m a with
  | nil => rfl
  | cons v vs ih => rw [Memory.writeBytes, ih]; simp [Memory.write]

theorem Memory.read_writeBytes_outside (m : Memory) (a : Nat) (vs : List Byte) {b : Nat}
    (h : ¬ (a ≤ b ∧ b < a + vs.length)) : (m.writeBytes a vs).read b = m.read b := by
  induction vs generalizing m a with
  | nil => rfl
  | cons v vs ih =>
    simp only [List.length_cons] at h
    rw [Memory.writeBytes, ih _ _ (by omega), Memory.read_write_of_ne _ _ (by omega)]

theorem Memory.read_writeBytes_inside (m : Memory) (a : Nat) (vs : List Byte) {i : Nat} (h : i < vs.length) :
    (m.writeBytes a vs).read (a + i) = vs[i] := by
  induction vs generalizing m a i with
  | nil => simp at h
  | cons v vs ih =>
    rw [Memory.writeBytes]
    cases i with
    | zero => rw [Memory.read_writeBytes_outside _ _ _ (by omega)]; simp
    | succ i =>
      have := ih (m.write a v) (a + 1) (i := i) (by simpa using h)
      simpa [Nat.add_assoc, Nat.add_comm 1 i] using this

theorem Memory.wf_write {m : Memory} {a : Nat} (v : Byte) (h : m.wf) (ha : inBuffer a = true) : (m.write a v).wf := by
  refine ⟨pairwise_putCell a v h.1, fun c hc => ?_⟩
  rcases mem_putCell hc with rfl | hc
  · exact ha
  · exact h.2 c hc

theorem Memory.wf_writeBytes {m : Memory} {a : Nat} {vs : List Byte} (h : m.wf)
    (ha : ∀ i < vs.length, inBuffer (a + i) = true) : (m.writeBytes a vs).wf := by
  induction vs generalizing m a with
  | nil => exact h
  | cons v vs ih =>
    refine ih (Memory.wf_write v h (by simpa using ha 0 (by simp))) (fun i hi => ?_)
    have := ha (i + 1) (by simpa using hi)
    rwa [Nat.add_assoc, Nat.add_comm 1 i]

theorem Memory.wf_writeWord {m : Memory} {a : Nat} (w : Word) (h : m.wf)
    (ha : ∀ i < 4, inBuffer (a + i) = true) : (m.writeWord a w).wf := Memory.wf_writeBytes h ha

/-- The byte of a stream bit is in BITBUF. -/
theorem inBitbuf_streamByteAddr {k : Nat} (h : k < 16777216) : inBitbuf (streamByteAddr k) = true := by
  have hlo : Config.bitbufBase ≤ streamByteAddr k := Nat.le_add_right _ _
  have hhi : streamByteAddr k < Config.bitbufBase + Config.bitbufBytes := by
    simp only [streamByteAddr, Config.bitbufBase, Config.bitbufBytes]; omega
  rw [inBitbuf, decide_eq_true hlo, decide_eq_true hhi]; rfl

theorem Memory.wf_bitPut {m : Memory} {k : Nat} (b : Bool) (h : m.wf) (hk : k < 16777216) : (m.bitPut k b).wf :=
  Memory.wf_write _ h (by simp [inBuffer, inBitbuf_streamByteAddr hk])

theorem Memory.wf_havocBitbuf {m : Memory} (draw : Nat) (h : m.wf) : (m.havocBitbuf draw).wf :=
  ⟨h.1.filter _, fun c hc => h.2 c (List.mem_of_mem_filter hc)⟩

theorem Memory.wf_havocSymOut {m : Memory} (draw : Nat) (h : m.wf) : (m.havocSymOut draw).wf :=
  ⟨h.1.filter _, fun c hc => h.2 c (List.mem_of_mem_filter hc)⟩

theorem Memory.wf_empty (i b o : Nat) : Memory.wf { cells := [], symInDraw := i, bitbufDraw := b, symOutDraw := o } :=
  ⟨.nil, by simp⟩

theorem State.reset_mem_wf : State.reset.mem.wf := Memory.wf_empty 0 1 2

theorem lookupCell_filter (cs : List Host.Cell) (keep : Nat → Bool) (a : Nat) :
    lookupCell (cs.filter (fun c => keep c.1)) a = if keep a then lookupCell cs a else none := by
  induction cs with
  | nil => simp [lookupCell]
  | cons c cs ih =>
    by_cases hk : keep c.1 = true
    · by_cases e : a = c.1
      · subst e; simp [lookupCell, hk]
      · simp [lookupCell, hk, e, ih]
    · by_cases e : a = c.1
      · subst e; simp [hk, ih]
      · simp [lookupCell, hk, e, ih]

/-- The addresses of BITBUF and SYM_OUT have none in common. -/
theorem inSymOut_eq_false_of_inBitbuf {a : Nat} (h : inBitbuf a = true) : inSymOut a = false := by
  simp only [inBitbuf, inSymOut, Config.bitbufBase, Config.bitbufBytes, Config.symOutBase, Config.symOutBytes,
    Bool.and_eq_true, decide_eq_true_eq, Bool.and_eq_false_iff, decide_eq_false_iff_not] at h ⊢
  omega

theorem Memory.read_havocBitbuf_inside (m : Memory) (draw : Nat) {a : Nat} (h : inBitbuf a = true) :
    (m.havocBitbuf draw).read a = Config.freeByte draw a := by
  simp [Memory.read, Memory.havocBitbuf, lookupCell_filter _ (fun a => !inBitbuf a), h, Memory.unlisted,
    inSymOut_eq_false_of_inBitbuf h]

theorem Memory.read_havocBitbuf_outside (m : Memory) (draw : Nat) {a : Nat} (h : inBitbuf a = false) :
    (m.havocBitbuf draw).read a = m.read a := by
  simp [Memory.read, Memory.havocBitbuf, lookupCell_filter _ (fun a => !inBitbuf a), h, Memory.unlisted]

theorem Memory.read_havocSymOut_inside (m : Memory) (draw : Nat) {a : Nat} (h : inSymOut a = true) :
    (m.havocSymOut draw).read a = Config.freeByte draw a := by
  simp [Memory.read, Memory.havocSymOut, lookupCell_filter _ (fun a => !inSymOut a), h, Memory.unlisted]

theorem Memory.read_havocSymOut_outside (m : Memory) (draw : Nat) {a : Nat} (h : inSymOut a = false) :
    (m.havocSymOut draw).read a = m.read a := by
  simp [Memory.read, Memory.havocSymOut, lookupCell_filter _ (fun a => !inSymOut a), h, Memory.unlisted]

@[simp] theorem Memory.writeBytes_symInDraw (m : Memory) (a : Nat) (vs : List Byte) : (m.writeBytes a vs).symInDraw = m.symInDraw := by
  induction vs generalizing m a with
  | nil => rfl
  | cons v vs ih => rw [Memory.writeBytes, ih, Memory.write_symInDraw]

@[simp] theorem Memory.writeBytes_bitbufDraw (m : Memory) (a : Nat) (vs : List Byte) :
    (m.writeBytes a vs).bitbufDraw = m.bitbufDraw := by
  induction vs generalizing m a with
  | nil => rfl
  | cons v vs ih => rw [Memory.writeBytes, ih, Memory.write_bitbufDraw]

@[simp] theorem Memory.writeBytes_symOutDraw (m : Memory) (a : Nat) (vs : List Byte) :
    (m.writeBytes a vs).symOutDraw = m.symOutDraw := by
  induction vs generalizing m a with
  | nil => rfl
  | cons v vs ih => rw [Memory.writeBytes, ih, Memory.write_symOutDraw]

/-- Answering without read data takes one more draw and no buffer uses it. -/
theorem State.DrawsTaken.answerNoData {s : State} (r : Resp) (h : s.DrawsTaken) : (s.answerNoData r).DrawsTaken :=
  ⟨Nat.lt_succ_of_lt h.1, Nat.lt_succ_of_lt h.2.1, Nat.lt_succ_of_lt h.2.2⟩

/-- A fault takes the draw it gives to a buffer, if it gives one. -/
theorem State.DrawsTaken.raise {s : State} (e : ErrClass) (info : Word) (out : OutputObject) (h : s.DrawsTaken) :
    (s.raise e info out).DrawsTaken := by
  cases out with
  | tree => exact h
  | codes => exact h
  | bitstream => exact ⟨Nat.lt_succ_of_lt h.1, Nat.lt_succ_self _, Nat.lt_succ_of_lt h.2.2⟩
  | recovered => exact ⟨Nat.lt_succ_of_lt h.1, Nat.lt_succ_of_lt h.2.1, Nat.lt_succ_self _⟩
  | nothing => exact h

/-- Reset takes the three draws it gives to the buffers, from every state. -/
theorem State.applyReset_drawsTaken (s : State) : s.applyReset.DrawsTaken :=
  ⟨Nat.lt_add_of_pos_right (by decide : 0 < 3), Nat.add_lt_add_left (by decide : 1 < 3) _, Nat.add_lt_add_left (by decide : 2 < 3) _⟩

end Sys2Proof.Machine
end

