-- ==== Sys2Proof/Laws/Operands.lean ====
section
/-! SUPPORT. Bits of the packed forms: a code in its entry, a stream in its bytes; and what the lookups of ENCODE and the walk of DECODE
answer. -/

namespace Sys2Proof.Machine

theorem getLsbD_packCode (p : List Bool) (j : Nat) (hj : j < 255) : (packCode p).getLsbD j = p.getD j false := by
  induction p generalizing j with
  | nil => simp [packCode]
  | cons b p ih =>
    cases j with
    | zero => simp [packCode]
    | succ j =>
      have := ih j (by omega)
      simp only [packCode, BitVec.getLsbD_or, BitVec.getLsbD_shiftLeft, BitVec.getLsbD_setWidth, BitVec.getLsbD_ofBool]
      simp [hj, this, -BitVec.getLsbD_eq_getElem]

/-- An entry made of a bit-string of at most 255 bits holds that bit-string. -/
theorem CodeEntry.string_ofString (p : List Bool) (h : p.length ≤ 255) : (CodeEntry.ofString p).string = p := by
  have hl : (BitVec.ofNat 8 p.length).toNat = p.length := by simp [Nat.mod_eq_of_lt (show p.length < 256 by omega)]
  apply List.ext_getElem
  · simp [CodeEntry.string, CodeEntry.ofString, hl]
  · intro i h1 h2
    simp [CodeEntry.string, CodeEntry.ofString, getLsbD_packCode p i (by omega), h2]

theorem getLsbD_eight : ∀ (a b c d e f g h : Bool) (j : Fin 8),
    (BitVec.ofBool a ++ BitVec.ofBool b ++ BitVec.ofBool c ++ BitVec.ofBool d ++ BitVec.ofBool e ++ BitVec.ofBool f ++
      BitVec.ofBool g ++ BitVec.ofBool h : BitVec 8).getLsbD (7 - j.1) = [a, b, c, d, e, f, g, h][j.1] := by
  decide +kernel

/-- The bits of a packed byte, the most significant first (rule R72). -/
theorem getLsbD_byteOfBits (b : Nat → Bool) (j : Nat) (h : j < 8) : (byteOfBits b).getLsbD (7 - j) = b j := by
  rw [byteOfBits, getLsbD_eight (b 0) (b 1) (b 2) (b 3) (b 4) (b 5) (b 6) (b 7) ⟨j, h⟩]
  have : j = 0 ∨ j = 1 ∨ j = 2 ∨ j = 3 ∨ j = 4 ∨ j = 5 ∨ j = 6 ∨ j = 7 := by omega
  rcases this with rfl | rfl | rfl | rfl | rfl | rfl | rfl | rfl <;> rfl

@[simp] theorem length_packBits (bits : List Bool) : (packBits bits).length = (bits.length + 7) / 8 := by simp [packBits]

@[simp] theorem length_wordBytes (w : Word) : (wordBytes w).length = 4 := rfl

@[simp] theorem packBits_nil : packBits [] = [] := rfl

/-- ENCODE's lookups succeed exactly when every symbol has a code, with the codes in order (rule R155). -/
theorem encodeFrom_eq_ok {codes : CodeTable} {i : Nat} {xs : List Symbol} {bits : List Bool} :
    encodeFrom codes i xs = .ok bits ↔
      (∀ x ∈ xs, (codes.at x).present = true) ∧ bits = (xs.map (fun x => (codes.at x).string)).flatten := by
  induction xs generalizing i bits with
  | nil => exact ⟨fun h => ⟨by simp, (Except.ok.inj h).symm⟩, fun h => by rw [h.2]; rfl⟩
  | cons x xs ih =>
    by_cases hx : (codes.at x).present = true
    · cases hr : encodeFrom codes (i + 1) xs with
      | ok b =>
        have hb := ih.mp hr
        simp only [encodeFrom, hx, hr, if_true, Except.ok.injEq, List.forall_mem_cons, true_and, List.map_cons, List.flatten_cons, ← hb.2]
        exact ⟨fun e => ⟨hb.1, e.symm⟩, fun e => e.2.symm⟩
      | error e =>
        simp only [encodeFrom, hx, hr, if_true]
        refine ⟨fun h => (by cases h), ?_⟩
        · rintro ⟨h1, -⟩
          have := (ih (i := i + 1)).mpr ⟨fun y hy => h1 y (List.mem_cons_of_mem _ hy), rfl⟩
          simp [hr] at this
    · simp only [encodeFrom, hx, Bool.false_eq_true, if_false]
      exact ⟨fun h => (by cases h), fun h => absurd (h.1 x List.mem_cons_self) hx⟩

/-- ENCODE's lookups fail exactly at the first symbol without a code (rule R156). -/
theorem encodeFrom_eq_error {codes : CodeTable} {i j : Nat} {xs : List Symbol} {x : Symbol} :
    encodeFrom codes i xs = .error (j, x) ↔
      ∃ k, ∃ h : k < xs.length, j = i + k ∧ xs[k] = x ∧ (codes.at x).present = false ∧
        ∀ l, (hl : l < k) → (codes.at (xs[l]'(by omega))).present = true := by
  induction xs generalizing i with
  | nil => simp [encodeFrom]
  | cons y ys ih =>
    by_cases hy : (codes.at y).present = true
    · have hstep : encodeFrom codes i (y :: ys) = .error (j, x) ↔ encodeFrom codes (i + 1) ys = .error (j, x) := by
        simp only [encodeFrom, hy, if_true]
        cases encodeFrom codes (i + 1) ys <;> simp
      rw [hstep, ih]
      constructor
      · rintro ⟨k, hk, hj, hxk, hp, hall⟩
        refine ⟨k + 1, by simpa using hk, by omega, by simpa using hxk, hp, ?_⟩
        intro l hl
        cases l with
        | zero => simpa using hy
        | succ l => simpa using hall l (by omega)
      · rintro ⟨k, hk, hj, hxk, hp, hall⟩
        cases k with
        | zero =>
          simp only [List.getElem_cons_zero] at hxk
          subst hxk
          simp [hy] at hp
        | succ k =>
          refine ⟨k, by simpa using hk, by omega, by simpa using hxk, hp, ?_⟩
          intro l hl
          simpa using hall (l + 1) (by omega)
    · simp only [encodeFrom, hy]
      constructor
      · intro h
        simp only [Bool.false_eq_true, if_false, Except.error.injEq, Prod.mk.injEq] at h
        exact ⟨0, by simp, by omega, by simpa using h.2, by simpa [← h.2] using hy, by simp⟩
      · rintro ⟨k, hk, hj, hxk, hp, hall⟩
        cases k with
        | zero => simpa [hj] using hxk
        | succ k => exact absurd (by simpa using hall 0 (by omega)) hy

end Sys2Proof.Machine
end

