-- ==== Sys2Proof/Laws/Params.lean ====
section
/-! SUPPORT. The relations between the parameters on which rule R9 rests (spec/92_eei_decisions.md, open parameters). -/

namespace Sys2Proof.Config

/-- NODE_MAX = 2*NSYM - 1 and CODE_MAX = NSYM - 1. -/
theorem nodeMax_codeMax_of_nsym : nodeMax = 2 * nsym - 1 ∧ codeMax = nsym - 1 := by decide

/-- The longest stream of the longest input fits BIT_LEN, BITBUF holds the longest stream, and SYM_OUT one symbol per bit. -/
theorem capacities : inMax < 2 ^ 16 ∧ inMax * codeMax ≤ bitMax ∧ bitMax < 8 * bitbufBytes ∧ bitMax < symOutBytes ∧
    inMax < symInBytes := by decide

/-- The three buffers lie apart, in the order SYM_IN, BITBUF, SYM_OUT, and end within the address space (rules R60, R61). -/
theorem buffers_apart : symInBase + symInBytes ≤ bitbufBase ∧ bitbufBase + bitbufBytes ≤ symOutBase ∧
    symOutBase + symOutBytes = 2 ^ 25 := by decide

end Sys2Proof.Config
end

