-- ==== Sys2Proof/Laws/PerInstr.lean ====
section
/-! SUPPORT. The family LegalWord: what the encoder gives for each command is a legal command word (rules R90, R92, R94). -/

namespace Sys2Proof.Laws.LegalWord

/-- The command word of i has a zero ZERO field and an OPCODE that is not reserved. -/
def Statement (i : Instr) : Prop := commandWordLegal (encode i) = true

theorem nop : Statement .nop := by unfold Statement; decide
theorem freq : Statement .freq := by unfold Statement; decide
theorem buildTree : Statement .buildTree := by unfold Statement; decide
theorem buildCodes : Statement .buildCodes := by unfold Statement; decide
theorem encode : Statement .encode := by unfold Statement; decide
theorem decode : Statement .decode := by unfold Statement; decide
theorem clear : Statement .clear := by unfold Statement; decide

end Sys2Proof.Laws.LegalWord
end

