-- ==== Sys2Proof/Laws/State.lean ====
section
/-! SUPPORT. One lemma per field per named update of State, each true by definition. -/

namespace Sys2Proof.Machine

section
variable (s : State) (rest : List HostInput)

@[simp] theorem State.takeInput_err : (s.takeInput rest).err = s.err := rfl
@[simp] theorem State.takeInput_errInfo : (s.takeInput rest).errInfo = s.errInfo := rfl
@[simp] theorem State.takeInput_inLen : (s.takeInput rest).inLen = s.inLen := rfl
@[simp] theorem State.takeInput_bitLen : (s.takeInput rest).bitLen = s.bitLen := rfl
@[simp] theorem State.takeInput_outLen : (s.takeInput rest).outLen = s.outLen := rfl
@[simp] theorem State.takeInput_nodeCnt : (s.takeInput rest).nodeCnt = s.nodeCnt := rfl
@[simp] theorem State.takeInput_root : (s.takeInput rest).root = s.root := rfl
@[simp] theorem State.takeInput_node : (s.takeInput rest).node = s.node := rfl
@[simp] theorem State.takeInput_freq : (s.takeInput rest).freq = s.freq := rfl
@[simp] theorem State.takeInput_code : (s.takeInput rest).code = s.code := rfl
@[simp] theorem State.takeInput_mem : (s.takeInput rest).mem = s.mem := rfl
@[simp] theorem State.takeInput_pending : (s.takeInput rest).pending = rest := rfl
@[simp] theorem State.takeInput_response : (s.takeInput rest).response = s.response := rfl
@[simp] theorem State.takeInput_freeCtr : (s.takeInput rest).freeCtr = s.freeCtr := rfl

end

section
variable (s : State) (r : Resp) (d : Word)

@[simp] theorem State.answer_err : (s.answer r d).err = s.err := rfl
@[simp] theorem State.answer_errInfo : (s.answer r d).errInfo = s.errInfo := rfl
@[simp] theorem State.answer_inLen : (s.answer r d).inLen = s.inLen := rfl
@[simp] theorem State.answer_bitLen : (s.answer r d).bitLen = s.bitLen := rfl
@[simp] theorem State.answer_outLen : (s.answer r d).outLen = s.outLen := rfl
@[simp] theorem State.answer_nodeCnt : (s.answer r d).nodeCnt = s.nodeCnt := rfl
@[simp] theorem State.answer_root : (s.answer r d).root = s.root := rfl
@[simp] theorem State.answer_node : (s.answer r d).node = s.node := rfl
@[simp] theorem State.answer_freq : (s.answer r d).freq = s.freq := rfl
@[simp] theorem State.answer_code : (s.answer r d).code = s.code := rfl
@[simp] theorem State.answer_mem : (s.answer r d).mem = s.mem := rfl
@[simp] theorem State.answer_pending : (s.answer r d).pending = s.pending := rfl
@[simp] theorem State.answer_response : (s.answer r d).response = some ⟨r, d⟩ := rfl
@[simp] theorem State.answer_freeCtr : (s.answer r d).freeCtr = s.freeCtr := rfl

end

section
variable (s : State) (r : Resp)

@[simp] theorem State.answerNoData_err : (s.answerNoData r).err = s.err := rfl
@[simp] theorem State.answerNoData_errInfo : (s.answerNoData r).errInfo = s.errInfo := rfl
@[simp] theorem State.answerNoData_inLen : (s.answerNoData r).inLen = s.inLen := rfl
@[simp] theorem State.answerNoData_bitLen : (s.answerNoData r).bitLen = s.bitLen := rfl
@[simp] theorem State.answerNoData_outLen : (s.answerNoData r).outLen = s.outLen := rfl
@[simp] theorem State.answerNoData_nodeCnt : (s.answerNoData r).nodeCnt = s.nodeCnt := rfl
@[simp] theorem State.answerNoData_root : (s.answerNoData r).root = s.root := rfl
@[simp] theorem State.answerNoData_node : (s.answerNoData r).node = s.node := rfl
@[simp] theorem State.answerNoData_freq : (s.answerNoData r).freq = s.freq := rfl
@[simp] theorem State.answerNoData_code : (s.answerNoData r).code = s.code := rfl
@[simp] theorem State.answerNoData_mem : (s.answerNoData r).mem = s.mem := rfl
@[simp] theorem State.answerNoData_pending : (s.answerNoData r).pending = s.pending := rfl
@[simp] theorem State.answerNoData_response : (s.answerNoData r).response = some ⟨r, Config.freeWord s.freeCtr⟩ := rfl
@[simp] theorem State.answerNoData_freeCtr : (s.answerNoData r).freeCtr = s.freeCtr + 1 := rfl

end

section
variable (s : State)

@[simp] theorem State.clearAll_err : (s.clearAll).err = 0#3 := rfl
@[simp] theorem State.clearAll_errInfo : (s.clearAll).errInfo = 0#32 := rfl
@[simp] theorem State.clearAll_inLen : (s.clearAll).inLen = 0#16 := rfl
@[simp] theorem State.clearAll_bitLen : (s.clearAll).bitLen = 0#24 := rfl
@[simp] theorem State.clearAll_outLen : (s.clearAll).outLen = 0#24 := rfl
@[simp] theorem State.clearAll_nodeCnt : (s.clearAll).nodeCnt = 0#10 := rfl
@[simp] theorem State.clearAll_root : (s.clearAll).root = Config.nil := rfl
@[simp] theorem State.clearAll_node : (s.clearAll).node = NodeArena.empty := rfl
@[simp] theorem State.clearAll_freq : (s.clearAll).freq = FreqTable.empty := rfl
@[simp] theorem State.clearAll_code : (s.clearAll).code = CodeTable.empty := rfl
@[simp] theorem State.clearAll_mem : (s.clearAll).mem = s.mem := rfl
@[simp] theorem State.clearAll_pending : (s.clearAll).pending = s.pending := rfl
@[simp] theorem State.clearAll_response : (s.clearAll).response = s.response := rfl
@[simp] theorem State.clearAll_freeCtr : (s.clearAll).freeCtr = s.freeCtr := rfl

end

section
variable (s : State)

@[simp] theorem State.applyReset_err : (s.applyReset).err = 0#3 := rfl
@[simp] theorem State.applyReset_errInfo : (s.applyReset).errInfo = 0#32 := rfl
@[simp] theorem State.applyReset_inLen : (s.applyReset).inLen = 0#16 := rfl
@[simp] theorem State.applyReset_bitLen : (s.applyReset).bitLen = 0#24 := rfl
@[simp] theorem State.applyReset_outLen : (s.applyReset).outLen = 0#24 := rfl
@[simp] theorem State.applyReset_nodeCnt : (s.applyReset).nodeCnt = 0#10 := rfl
@[simp] theorem State.applyReset_root : (s.applyReset).root = Config.nil := rfl
@[simp] theorem State.applyReset_node : (s.applyReset).node = NodeArena.empty := rfl
@[simp] theorem State.applyReset_freq : (s.applyReset).freq = FreqTable.empty := rfl
@[simp] theorem State.applyReset_code : (s.applyReset).code = CodeTable.empty := rfl
@[simp] theorem State.applyReset_mem : (s.applyReset).mem = { cells := [], symInDraw := s.freeCtr, bitbufDraw := s.freeCtr + 1, symOutDraw := s.freeCtr + 2 } := rfl
@[simp] theorem State.applyReset_pending : (s.applyReset).pending = s.pending := rfl
@[simp] theorem State.applyReset_response : (s.applyReset).response = s.response := rfl
@[simp] theorem State.applyReset_freeCtr : (s.applyReset).freeCtr = s.freeCtr + 3 := rfl

end

section
variable (s : State) (out : List Symbol)

@[simp] theorem State.deliver_err : (s.deliver out).err = s.err := rfl
@[simp] theorem State.deliver_errInfo : (s.deliver out).errInfo = s.errInfo := rfl
@[simp] theorem State.deliver_inLen : (s.deliver out).inLen = s.inLen := rfl
@[simp] theorem State.deliver_bitLen : (s.deliver out).bitLen = s.bitLen := rfl
@[simp] theorem State.deliver_outLen : (s.deliver out).outLen = BitVec.ofNat 24 out.length := rfl
@[simp] theorem State.deliver_nodeCnt : (s.deliver out).nodeCnt = s.nodeCnt := rfl
@[simp] theorem State.deliver_root : (s.deliver out).root = s.root := rfl
@[simp] theorem State.deliver_node : (s.deliver out).node = s.node := rfl
@[simp] theorem State.deliver_freq : (s.deliver out).freq = s.freq := rfl
@[simp] theorem State.deliver_code : (s.deliver out).code = s.code := rfl
@[simp] theorem State.deliver_mem : (s.deliver out).mem = s.mem.writeBytes Config.symOutBase out := rfl
@[simp] theorem State.deliver_pending : (s.deliver out).pending = s.pending := rfl
@[simp] theorem State.deliver_response : (s.deliver out).response = s.response := rfl
@[simp] theorem State.deliver_freeCtr : (s.deliver out).freeCtr = s.freeCtr := rfl

end

section
variable (s : State) (e : ErrClass) (info : Word)

@[simp] theorem State.raise_tree_err : (s.raise e info .tree).err = e.code := rfl
@[simp] theorem State.raise_tree_errInfo : (s.raise e info .tree).errInfo = info := rfl
@[simp] theorem State.raise_tree_inLen : (s.raise e info .tree).inLen = s.inLen := rfl
@[simp] theorem State.raise_tree_bitLen : (s.raise e info .tree).bitLen = s.bitLen := rfl
@[simp] theorem State.raise_tree_outLen : (s.raise e info .tree).outLen = s.outLen := rfl
@[simp] theorem State.raise_tree_nodeCnt : (s.raise e info .tree).nodeCnt = 0#10 := rfl
@[simp] theorem State.raise_tree_root : (s.raise e info .tree).root = Config.nil := rfl
@[simp] theorem State.raise_tree_node : (s.raise e info .tree).node = NodeArena.empty := rfl
@[simp] theorem State.raise_tree_freq : (s.raise e info .tree).freq = s.freq := rfl
@[simp] theorem State.raise_tree_code : (s.raise e info .tree).code = s.code := rfl
@[simp] theorem State.raise_tree_mem : (s.raise e info .tree).mem = s.mem := rfl
@[simp] theorem State.raise_tree_pending : (s.raise e info .tree).pending = s.pending := rfl
@[simp] theorem State.raise_tree_response : (s.raise e info .tree).response = s.response := rfl
@[simp] theorem State.raise_tree_freeCtr : (s.raise e info .tree).freeCtr = s.freeCtr := rfl

end

section
variable (s : State) (e : ErrClass) (info : Word)

@[simp] theorem State.raise_codes_err : (s.raise e info .codes).err = e.code := rfl
@[simp] theorem State.raise_codes_errInfo : (s.raise e info .codes).errInfo = info := rfl
@[simp] theorem State.raise_codes_inLen : (s.raise e info .codes).inLen = s.inLen := rfl
@[simp] theorem State.raise_codes_bitLen : (s.raise e info .codes).bitLen = s.bitLen := rfl
@[simp] theorem State.raise_codes_outLen : (s.raise e info .codes).outLen = s.outLen := rfl
@[simp] theorem State.raise_codes_nodeCnt : (s.raise e info .codes).nodeCnt = s.nodeCnt := rfl
@[simp] theorem State.raise_codes_root : (s.raise e info .codes).root = s.root := rfl
@[simp] theorem State.raise_codes_node : (s.raise e info .codes).node = s.node := rfl
@[simp] theorem State.raise_codes_freq : (s.raise e info .codes).freq = s.freq := rfl
@[simp] theorem State.raise_codes_code : (s.raise e info .codes).code = CodeTable.empty := rfl
@[simp] theorem State.raise_codes_mem : (s.raise e info .codes).mem = s.mem := rfl
@[simp] theorem State.raise_codes_pending : (s.raise e info .codes).pending = s.pending := rfl
@[simp] theorem State.raise_codes_response : (s.raise e info .codes).response = s.response := rfl
@[simp] theorem State.raise_codes_freeCtr : (s.raise e info .codes).freeCtr = s.freeCtr := rfl

end

section
variable (s : State) (e : ErrClass) (info : Word)

@[simp] theorem State.raise_bitstream_err : (s.raise e info .bitstream).err = e.code := rfl
@[simp] theorem State.raise_bitstream_errInfo : (s.raise e info .bitstream).errInfo = info := rfl
@[simp] theorem State.raise_bitstream_inLen : (s.raise e info .bitstream).inLen = s.inLen := rfl
@[simp] theorem State.raise_bitstream_bitLen : (s.raise e info .bitstream).bitLen = 0#24 := rfl
@[simp] theorem State.raise_bitstream_outLen : (s.raise e info .bitstream).outLen = s.outLen := rfl
@[simp] theorem State.raise_bitstream_nodeCnt : (s.raise e info .bitstream).nodeCnt = s.nodeCnt := rfl
@[simp] theorem State.raise_bitstream_root : (s.raise e info .bitstream).root = s.root := rfl
@[simp] theorem State.raise_bitstream_node : (s.raise e info .bitstream).node = s.node := rfl
@[simp] theorem State.raise_bitstream_freq : (s.raise e info .bitstream).freq = s.freq := rfl
@[simp] theorem State.raise_bitstream_code : (s.raise e info .bitstream).code = s.code := rfl
@[simp] theorem State.raise_bitstream_mem : (s.raise e info .bitstream).mem = s.mem.havocBitbuf s.freeCtr := rfl
@[simp] theorem State.raise_bitstream_pending : (s.raise e info .bitstream).pending = s.pending := rfl
@[simp] theorem State.raise_bitstream_response : (s.raise e info .bitstream).response = s.response := rfl
@[simp] theorem State.raise_bitstream_freeCtr : (s.raise e info .bitstream).freeCtr = s.freeCtr + 1 := rfl

end

section
variable (s : State) (e : ErrClass) (info : Word)

@[simp] theorem State.raise_recovered_err : (s.raise e info .recovered).err = e.code := rfl
@[simp] theorem State.raise_recovered_errInfo : (s.raise e info .recovered).errInfo = info := rfl
@[simp] theorem State.raise_recovered_inLen : (s.raise e info .recovered).inLen = s.inLen := rfl
@[simp] theorem State.raise_recovered_bitLen : (s.raise e info .recovered).bitLen = s.bitLen := rfl
@[simp] theorem State.raise_recovered_outLen : (s.raise e info .recovered).outLen = 0#24 := rfl
@[simp] theorem State.raise_recovered_nodeCnt : (s.raise e info .recovered).nodeCnt = s.nodeCnt := rfl
@[simp] theorem State.raise_recovered_root : (s.raise e info .recovered).root = s.root := rfl
@[simp] theorem State.raise_recovered_node : (s.raise e info .recovered).node = s.node := rfl
@[simp] theorem State.raise_recovered_freq : (s.raise e info .recovered).freq = s.freq := rfl
@[simp] theorem State.raise_recovered_code : (s.raise e info .recovered).code = s.code := rfl
@[simp] theorem State.raise_recovered_mem : (s.raise e info .recovered).mem = s.mem.havocSymOut s.freeCtr := rfl
@[simp] theorem State.raise_recovered_pending : (s.raise e info .recovered).pending = s.pending := rfl
@[simp] theorem State.raise_recovered_response : (s.raise e info .recovered).response = s.response := rfl
@[simp] theorem State.raise_recovered_freeCtr : (s.raise e info .recovered).freeCtr = s.freeCtr + 1 := rfl

end

section
variable (s : State) (e : ErrClass) (info : Word)

@[simp] theorem State.raise_nothing_err : (s.raise e info .nothing).err = e.code := rfl
@[simp] theorem State.raise_nothing_errInfo : (s.raise e info .nothing).errInfo = info := rfl
@[simp] theorem State.raise_nothing_inLen : (s.raise e info .nothing).inLen = s.inLen := rfl
@[simp] theorem State.raise_nothing_bitLen : (s.raise e info .nothing).bitLen = s.bitLen := rfl
@[simp] theorem State.raise_nothing_outLen : (s.raise e info .nothing).outLen = s.outLen := rfl
@[simp] theorem State.raise_nothing_nodeCnt : (s.raise e info .nothing).nodeCnt = s.nodeCnt := rfl
@[simp] theorem State.raise_nothing_root : (s.raise e info .nothing).root = s.root := rfl
@[simp] theorem State.raise_nothing_node : (s.raise e info .nothing).node = s.node := rfl
@[simp] theorem State.raise_nothing_freq : (s.raise e info .nothing).freq = s.freq := rfl
@[simp] theorem State.raise_nothing_code : (s.raise e info .nothing).code = s.code := rfl
@[simp] theorem State.raise_nothing_mem : (s.raise e info .nothing).mem = s.mem := rfl
@[simp] theorem State.raise_nothing_pending : (s.raise e info .nothing).pending = s.pending := rfl
@[simp] theorem State.raise_nothing_response : (s.raise e info .nothing).response = s.response := rfl
@[simp] theorem State.raise_nothing_freeCtr : (s.raise e info .nothing).freeCtr = s.freeCtr := rfl

end

end Sys2Proof.Machine
end

