-- ==== Sys2Proof/Laws/Step.lean ====
section
/-! SUPPORT. What the shared control operations can do: the gate of a fault, a command, a transaction and a step, each said once. -/

namespace Sys2Proof.Machine

@[simp] theorem State.faulted_eq_true (s : State) : s.faulted = true ↔ s.err ≠ 0#3 := by simp [State.faulted]

theorem State.runCommand_of_fault {s : State} (f : State → Result) (h : s.err ≠ 0#3) : s.runCommand f = .next s := by
  simp [State.runCommand, State.faulted, h]

theorem State.runCommand_of_ok {s : State} (f : State → Result) (h : s.err = 0#3) : s.runCommand f = f s := by
  simp [State.runCommand, State.faulted, h]

/-- A command under the gate either changes nothing or runs from a state that is not faulted. -/
theorem State.runCommand_cases {s t : State} {f : State → Result} (h : s.runCommand f = .next t) :
    (s.err ≠ 0#3 ∧ t = s) ∨ (s.err = 0#3 ∧ f s = .next t) := by
  by_cases e : s.err = 0#3
  · exact .inr ⟨e, by rwa [State.runCommand_of_ok f e] at h⟩
  · rw [State.runCommand_of_fault f e] at h
    exact .inl ⟨e, (Host.Outcome.next.inj h).symm⟩

theorem exec_of_fault {s : State} {i : Instr} (h : s.err ≠ 0#3) (hi : i ≠ .clear) : exec i s = .next s := by
  cases i with
  | clear => exact absurd rfl hi
  | nop => simp [exec, execNop, State.runCommand_of_fault _ h]
  | freq => simp [exec, execFreq, State.runCommand_of_fault _ h]
  | buildTree => simp [exec, execBuildTree, State.runCommand_of_fault _ h]
  | buildCodes => simp [exec, execBuildCodes, State.runCommand_of_fault _ h]
  | encode => simp [exec, execEncode, State.runCommand_of_fault _ h]
  | decode => simp [exec, execDecode, State.runCommand_of_fault _ h]

theorem exec_clear (s : State) : exec .clear s = .next s.clearAll := rfl

/-- What a step can do, by the oldest input. -/
theorem step_cases {s t : State} (h : step s = .next t) :
    (s.pending = [] ∧ t = s) ∨
    (∃ rest, s.pending = .reset :: rest ∧ t = (s.takeInput rest).applyReset) ∨
    (∃ tr rest, s.pending = .transaction tr :: rest ∧ tr.kind = .read ∧ t = (s.takeInput rest).hostRead tr.addr) ∨
    (∃ tr rest, s.pending = .transaction tr :: rest ∧ tr.kind = .write ∧
      (s.takeInput rest).hostWrite tr.addr tr.wdata = .next t) := by
  unfold step State.advance at h
  split at h
  · exact .inl ⟨‹_›, (Host.Outcome.next.inj h).symm⟩
  · rename_i i rest hp
    cases i with
    | reset => exact .inr (.inl ⟨rest, hp, (Host.Outcome.next.inj h).symm⟩)
    | transaction tr =>
      simp only [State.accept, State.transact] at h
      cases hk : tr.kind <;> rw [hk] at h
      · exact .inr (.inr (.inl ⟨tr, rest, hp, hk, (Host.Outcome.next.inj h).symm⟩))
      · exact .inr (.inr (.inr ⟨tr, rest, hp, hk, h⟩))

/-- What a host read can do: one of the two answers. -/
theorem State.hostRead_cases (s : State) (a : Addr) :
    (∃ w, s.readTarget (Target.ofAddr a) = some w ∧ s.hostRead a = s.answer .okay w) ∨
    s.hostRead a = s.answerNoData .error := by
  unfold State.hostRead
  split
  · cases hr : s.readTarget (Target.ofAddr a) with
    | none => exact .inr rfl
    | some w => exact .inl ⟨w, rfl, rfl⟩
  · exact .inr rfl

/-- What a host write can do: it is turned away, issues a command, or stores to one of the four writable targets. -/
theorem State.hostWrite_cases {s : State} {a : Addr} {w : Word} {t : State} (h : s.hostWrite a w = .next t) :
    t = s.answerNoData .error ∨
    (Target.ofAddr a = .reg .cmd ∧ issueCommand w (s.answerNoData .okay) = .next t) ∨
    (Target.ofAddr a = .reg .inLen ∧ t = { s with inLen := w.extractLsb' 0 16 }.answerNoData .okay) ∨
    (Target.ofAddr a = .reg .bitLen ∧ t = { s with bitLen := w.extractLsb' 0 24 }.answerNoData .okay) ∨
    (∃ b, (Target.ofAddr a = .symIn b ∨ Target.ofAddr a = .bitbuf b) ∧
      t = { s with mem := s.mem.writeWord b w }.answerNoData .okay) := by
  unfold State.hostWrite at h
  split at h
  · split at h
    · exact .inr (.inl ⟨‹_›, h⟩)
    · cases ht : Target.ofAddr a with
      | reg r => cases r <;> simp_all [State.writeTarget]
      | _ => simp_all [State.writeTarget]
  · exact .inl (Host.Outcome.next.inj h).symm

end Sys2Proof.Machine
end

