-- ==== Sys2Proof/Laws/Tables.lean ====
section
/-! SUPPORT. Reading a table entry after a write, for NODE, FREQ and CODE. -/

namespace Sys2Proof.Machine

theorem NodeArena.at_put_self (t : NodeArena) {k : Nat} (r : NodeRec) (h : k < 511) : (t.put k r).at k = r := by
  simp [NodeArena.at, NodeArena.put, h]

theorem NodeArena.at_put_of_ne (t : NodeArena) {j k : Nat} (r : NodeRec) (h : j ≠ k) : (t.put k r).at j = t.at j := by
  by_cases hj : j < 511 <;> by_cases hk : k < 511 <;>
    simp [NodeArena.at, NodeArena.put, hj, hk, Ne.symm h]

theorem NodeArena.at_empty (k : Nat) : NodeArena.empty.at k = NodeRec.blank := by
  unfold NodeArena.at NodeArena.empty
  split <;> simp

theorem NodeArena.at_of_le (t : NodeArena) {k : Nat} (h : 511 ≤ k) : t.at k = NodeRec.blank := by
  simp [NodeArena.at, Nat.not_lt.mpr h]

/-- Two arenas with the same records are equal. -/
theorem NodeArena.ext_at {t u : NodeArena} (h : ∀ k < 511, t.at k = u.at k) : t = u := by
  ext k hk : 1
  simpa [NodeArena.at, hk] using h k hk

@[simp] theorem FreqTable.at_put_self (t : FreqTable) (s : Symbol) (v : Weight) : (t.put s v).at s = v := by
  simp [FreqTable.at, FreqTable.put]

theorem FreqTable.at_put_of_ne (t : FreqTable) {s x : Symbol} (v : Weight) (h : x ≠ s) : (t.put s v).at x = t.at x := by
  have : s.toNat ≠ x.toNat := fun e => h (BitVec.eq_of_toNat_eq e.symm)
  simp [FreqTable.at, FreqTable.put, this]

@[simp] theorem FreqTable.at_empty (s : Symbol) : FreqTable.empty.at s = 0#16 := by
  simp [FreqTable.at, FreqTable.empty]

@[simp] theorem CodeTable.at_put_self (t : CodeTable) (s : Symbol) (e : CodeEntry) : (t.put s e).at s = e := by
  simp [CodeTable.at, CodeTable.put]

theorem CodeTable.at_put_of_ne (t : CodeTable) {s x : Symbol} (e : CodeEntry) (h : x ≠ s) : (t.put s e).at x = t.at x := by
  have : s.toNat ≠ x.toNat := fun e => h (BitVec.eq_of_toNat_eq e.symm)
  simp [CodeTable.at, CodeTable.put, this]

@[simp] theorem CodeTable.at_empty (s : Symbol) : CodeTable.empty.at s = CodeEntry.absent := by
  simp [CodeTable.at, CodeTable.empty]

/-- Two code tables with the same entries are equal. -/
theorem CodeTable.ext_at {t u : CodeTable} (h : ∀ s, t.at s = u.at s) : t = u := by
  ext k hk : 1
  have := h (BitVec.ofNat 8 k)
  simpa [CodeTable.at, Nat.mod_eq_of_lt hk] using this

/-- Two frequency tables with the same counts are equal. -/
theorem FreqTable.ext_at {t u : FreqTable} (h : ∀ s, t.at s = u.at s) : t = u := by
  ext k hk : 1
  have := h (BitVec.ofNat 8 k)
  simp only [FreqTable.at, BitVec.toNat_ofNat] at this
  simpa [Nat.mod_eq_of_lt hk] using this

end Sys2Proof.Machine
end

