-- ==== Sys2Proof/Laws/TreeBuilder.lean ====
section
/-! SUPPORT. What extraction and one merge can do, said once (rules R120, R122). -/

namespace Sys2Proof.Machine

theorem lowerKey_eq_true (t : NodeArena) (a b : Nat) : lowerKey t a b = true ↔ t.before a b := by
  simp [lowerKey, NodeArena.before]

/-- The argmin is one of the candidates. -/
theorem argmin_mem (t : NodeArena) (a : Nat) (q : List Nat) : argmin t a q ∈ a :: q := by
  induction q generalizing a with
  | nil => simp [argmin]
  | cons b q ih =>
    have := ih (if lowerKey t b a then b else a)
    simp only [argmin, List.mem_cons] at this ⊢
    by_cases h : lowerKey t b a = true
    · simp only [h, if_true] at this ⊢
      exact .inr this
    · simp only [h, Bool.false_eq_true, if_false] at this ⊢
      exact this.imp_right .inr

theorem before_trans {t : NodeArena} {a b c : Nat} (h1 : t.before a b) (h2 : t.before b c) : t.before a c := by
  unfold NodeArena.before at *
  rcases h1 with h1 | ⟨h1, h1'⟩ <;> rcases h2 with h2 | ⟨h2, h2'⟩
  · exact .inl (BitVec.lt_trans h1 h2)
  · exact .inl (h2 ▸ h1)
  · exact .inl (h1 ▸ h2)
  · exact .inr ⟨h1.trans h2, Nat.lt_trans h1' h2'⟩

theorem before_total (t : NodeArena) (a b : Nat) : t.before a b ∨ a = b ∨ t.before b a := by
  unfold NodeArena.before
  simp only [BitVec.lt_def, ← BitVec.toNat_inj]
  omega

/-- Every other candidate comes after the argmin, or is it. -/
theorem argmin_before (t : NodeArena) (a : Nat) (q : List Nat) {b : Nat} (hb : b ∈ a :: q) :
    b = argmin t a q ∨ t.before (argmin t a q) b := by
  induction q generalizing a b with
  | nil => simp_all [argmin]
  | cons c q ih =>
    simp only [argmin]
    by_cases h : lowerKey t c a = true
    · simp only [h, if_true]
      rcases List.mem_cons.mp hb with rfl | hb
      · have hc := (lowerKey_eq_true t c b).mp h
        rcases ih c (List.mem_cons_self) with e | e
        · exact .inr (e ▸ hc)
        · exact .inr (before_trans e hc)
      · exact ih c hb
    · simp only [h, Bool.false_eq_true, if_false]
      rcases List.mem_cons.mp hb with rfl | hb
      · exact ih b List.mem_cons_self
      · rcases List.mem_cons.mp hb with rfl | hb
        · have hn : ¬ t.before b a := fun x => h ((lowerKey_eq_true t b a).mpr x)
          rcases before_total t b a with x | x | x
          · exact absurd x hn
          · subst x; exact ih b List.mem_cons_self
          · rcases ih a List.mem_cons_self with e | e
            · exact .inr (e ▸ x)
            · exact .inr (before_trans e x)
        · exact ih a (List.mem_cons_of_mem _ hb)

/-- Extraction answers the lowest of a collection that is not empty, and the collection without it (rule R122). -/
theorem extractLowest_eq_some {t : NodeArena} {q : List Nat} {a : Nat} {q' : List Nat} (h : extractLowest t q = some (a, q')) :
    a ∈ q ∧ q' = q.erase a ∧ ∀ b ∈ q, b = a ∨ t.before a b := by
  cases q with
  | nil => simp [extractLowest] at h
  | cons c q =>
    simp only [extractLowest, Option.some.injEq, Prod.mk.injEq] at h
    obtain ⟨rfl, rfl⟩ := h
    exact ⟨argmin_mem t c q, rfl, fun b hb => argmin_before t c q hb⟩

theorem extractLowest_eq_none {t : NodeArena} {q : List Nat} : extractLowest t q = none ↔ q = [] := by
  cases q <;> simp [extractLowest]

/-- What one merge can do (rules R120, R124, R125). -/
theorem mergeOnce_eq_some {m m' : Merging} (h : mergeOnce m = some m') :
    ∃ a b, a ∈ m.queue ∧ b ∈ m.queue.erase a ∧
      (∀ c ∈ m.queue, c = a ∨ m.arena.before a c) ∧ (∀ c ∈ m.queue.erase a, c = b ∨ m.arena.before b c) ∧
      m' = { arena := m.arena.put m.free (internalOf m.arena a b),
             queue := (m.queue.erase a).erase b ++ [m.free], free := m.free + 1 } := by
  unfold mergeOnce at h
  split at h
  · simp at h
  · rename_i a q ha
    split at h
    · simp at h
    · rename_i b q' hb
      obtain ⟨h1, rfl, h2⟩ := extractLowest_eq_some ha
      obtain ⟨h3, rfl, h4⟩ := extractLowest_eq_some hb
      exact ⟨a, b, h1, h3, h2, h4, (Option.some.inj h).symm⟩

/-- A merge fails only when fewer than two nodes are left. -/
theorem mergeOnce_eq_none {m : Merging} (h : mergeOnce m = none) : m.queue.length ≤ 1 := by
  unfold mergeOnce at h
  split at h
  · rename_i ha
    simp [extractLowest_eq_none.mp ha]
  · rename_i a q ha
    obtain ⟨h1, rfl, -⟩ := extractLowest_eq_some ha
    split at h
    · rename_i hb
      have := extractLowest_eq_none.mp hb
      have hl := List.length_erase_of_mem h1
      simp [this] at hl
      omega
    · simp at h

end Sys2Proof.Machine
end

