-- ==== Sys2Proof/Tests/Slice0.lean ====
section
/-! SUPPORT. Tests of this model against the vectors of spec/95_test_vectors.md and words written out from spec/30_encoding.md, the smoke
tests of WellFormed, and a witness for the hypotheses of every statement of Certificates/Slice0/Obligations.lean. -/

namespace Sys2Proof.Tests

open Sys2Proof Sys2Proof.Machine

/-! ### Small states -/

/-- The reset state with an input loaded (rules R27, R69). -/
def inputState (bytes : List Byte) : State :=
  { State.reset with
    mem := State.reset.mem.writeBytes 0x10000 bytes, inLen := BitVec.ofNat 16 bytes.length }

/-- The counts of "aabbbcc" (vector T3.1). -/
def abcFreq : FreqTable := ((FreqTable.empty.put 0x61#8 2#16).put 0x62#8 3#16).put 0x63#8 2#16

/-- The nodes of "aabbbcc" (vector T3.1). -/
def abcNodes : NodeArena :=
  ((((NodeArena.empty.put 0 ⟨2#16, true, 0x61#8, 0x1FF#9, 0x1FF#9⟩).put 1 ⟨3#16, true, 0x62#8, 0x1FF#9, 0x1FF#9⟩).put 2
    ⟨2#16, true, 0x63#8, 0x1FF#9, 0x1FF#9⟩).put 3 ⟨4#16, false, 0#8, 0#9, 2#9⟩).put 4 ⟨7#16, false, 0#8, 1#9, 3#9⟩

/-- The codes of "aabbbcc": a "10", b "0", c "11" (vector T3.1). -/
def abcCodes : CodeTable :=
  ((CodeTable.empty.put 0x61#8 ⟨true, 2#8, 1#255⟩).put 0x62#8 ⟨true, 1#8, 0#255⟩).put 0x63#8 ⟨true, 2#8, 3#255⟩

/-- The counts alone. -/
def freqState : State := { State.reset with freq := abcFreq }

/-- The tree and the codes in place, after "aabbbcc" (vector T3.1). -/
def abcState : State :=
  { State.reset with freq := abcFreq, node := abcNodes, nodeCnt := 5#10, root := 4#9, code := abcCodes }

/-- The same with an input loaded. -/
def abcInput (bytes : List Byte) : State :=
  { abcState with mem := State.reset.mem.writeBytes 0x10000 bytes, inLen := BitVec.ofNat 16 bytes.length }

/-- The same with a stream loaded. -/
def abcStream (bits : List Bool) : State :=
  { abcState with mem := State.reset.mem.writeBytes 0x200000 (packBits bits), bitLen := BitVec.ofNat 24 bits.length }

/-- A tree of one leaf, 'a', and a stream of three bits (program P2). -/
def oneLeaf : State :=
  { State.reset with
    node := NodeArena.empty.put 0 ⟨4#16, true, 0x61#8, 0x1FF#9, 0x1FF#9⟩, nodeCnt := 1#10, root := 0#9,
    mem := State.reset.mem.writeBytes 0x200000 [0xA0#8], bitLen := 3#24 }

/-- A block that has recorded a fault. -/
def faultedState : State := { State.reset with err := 4#3, errInfo := 0x02000009#32 }

/-- A state whose host does one thing next. -/
def withNext (s : State) (i : HostInput) : State := { s with pending := [i] }

/-- What holds of the next state, if there is one. -/
def nextIs (r : Result) (p : State → Bool) : Bool :=
  match r with
  | .next t => p t
  | .fault _ => false
  | .refused _ => false

/-! ### WellFormed refuses what is ill formed -/

theorem test_reserved_opcode_refused : commandWordLegal 0x00000006#32 = false ∧ commandWordLegal 0x0000000E#32 = false := by decide
theorem test_upper_bits_refused : commandWordLegal 0x00000011#32 = false ∧ commandWordLegal 0x8000000F#32 = false := by decide
theorem test_misaligned_refused : Transaction.WellFormed ⟨.read, 0x0000005#25, 0#32⟩ = false := by decide
theorem test_commands_well_formed : commandWordLegal 0x0000000F#32 = true ∧ Transaction.WellFormed ⟨.write, 0x0000000#25, 1#32⟩ = true := by
  decide

/-! ### Decode: words written out from the table of rule R92 -/

theorem test_decode_nop : decodeTableWord 32 0b00000000000000000000000000000000 = some .nop := by decide
theorem test_decode_freq : decodeTableWord 32 0b00000000000000000000000000000001 = some .freq := by decide
theorem test_decode_buildTree : decodeTableWord 32 0b00000000000000000000000000000010 = some .buildTree := by decide
theorem test_decode_buildCodes : decodeTableWord 32 0b00000000000000000000000000000011 = some .buildCodes := by decide
theorem test_decode_encode : decodeTableWord 32 0b00000000000000000000000000000100 = some .encode := by decide
theorem test_decode_decode : decodeTableWord 32 0b00000000000000000000000000000101 = some .decode := by decide
theorem test_decode_clear : decodeTableWord 32 0b00000000000000000000000000001111 = some .clear := by decide
theorem test_decode_reserved : decodeTableWord 32 0x9 = none ∧ decodeTableWord 32 0x15 = none := by decide

/-! ### One step of each command (vectors T2 to T9) -/

theorem test_freq_counts :
    nextIs (exec .freq (inputState [0x61, 0x61, 0x62, 0x62, 0x62, 0x63, 0x63]))
      (fun t => t.freq.at 0x61 == 2#16 && t.freq.at 0x62 == 3#16 && t.freq.at 0x63 == 2#16 && t.freq.at 0x64 == 0#16) = true := by
  decide +kernel

theorem test_buildTree_nodes :
    nextIs (exec .buildTree freqState)
      (fun t => (t.node.at 0).word0 == 0xC0610002#32 && (t.node.at 3).word1 == 0x00020000#32 &&
        (t.node.at 4).word0 == 0x80000007#32 && (t.node.at 4).word1 == 0x00030001#32 && t.treeInfoWord == 0x00040005#32) = true := by
  decide +kernel

/-- Vector T3.5: with three candidates of weight 2, the two leaves go first. -/
theorem test_buildTree_tie :
    nextIs (exec .buildTree { State.reset with
        freq := (((FreqTable.empty.put 0x61 1#16).put 0x62 1#16).put 0x63 2#16).put 0x64 2#16 })
      (fun t => (t.node.at 5).word1 == 0x00030002#32 && (t.node.at 6).word1 == 0x00050004#32) = true := by
  decide +kernel

theorem test_buildTree_empty :
    nextIs (exec .buildTree { abcState with freq := FreqTable.empty })
      (fun t => t.statusWord == 0x00000021#32 && t.treeInfoWord == 0x01FF0000#32) = true := by
  decide +kernel

theorem test_buildCodes_paths :
    nextIs (exec .buildCodes { abcState with code := CodeTable.empty.put 0x64#8 ⟨true, 1#8, 0#255⟩ })
      (fun t => (t.code.at 0x61).lenWord == 0x80000002#32 && (t.code.at 0x61).bitsWord 0 == 1#32 &&
        (t.code.at 0x62).lenWord == 0x80000001#32 && (t.code.at 0x63).bitsWord 0 == 3#32 && (t.code.at 0x64).lenWord == 0#32) = true := by
  decide +kernel

theorem test_buildCodes_no_tree :
    nextIs (exec .buildCodes State.reset) (fun t => t.statusWord == 2#32 && t.errInfo == 0x000001FF#32) = true := by
  decide +kernel

/-- Vector T6: "cab" gives "11100", and the byte after the last one written keeps its value. -/
theorem test_encode_packs :
    nextIs (exec .encode { abcInput [0x63, 0x61, 0x62] with mem := (abcInput [0x63, 0x61, 0x62]).mem.write 0x200001 0xFF#8 })
      (fun t => t.bitLen == 5#24 && t.bitByte 0 == 0xE0#8 && t.bitByte 1 == 0xFF#8) = true := by
  decide +kernel

/-- Vector T6 with the table of "aabbbcc": index 2, symbol 'd'. -/
theorem test_encode_unknown :
    nextIs (exec .encode (abcInput [0x61, 0x62, 0x64, 0x65]))
      (fun t => t.statusWord == 0x00000033#32 && t.errInfo == 0x00000264#32 && t.bitLen == 0#24) = true := by
  decide +kernel

theorem test_decode_walk :
    nextIs (exec .decode (abcStream [true, false, true, true, true, false, false]))
      (fun t => t.outLen == 4#24 && (List.range 4).map t.symOut == [0x61, 0x63, 0x61, 0x62]) = true := by
  decide +kernel

theorem test_decode_truncated :
    nextIs (exec .decode (abcStream [true, false, true]))
      (fun t => t.statusWord == 0x00000034#32 && t.errInfo == 0x02000002#32 && t.outLen == 0#24) = true := by
  decide +kernel

theorem test_clear_after_fault :
    nextIs (exec .clear { abcState with err := 4#3, errInfo := 0x02000009#32 })
      (fun t => t.statusWord == 0#32 && t.errInfo == 0#32 && t.treeInfoWord == 0x01FF0000#32) = true := by
  decide +kernel

theorem test_nop_in_fault : nextIs (exec .nop faultedState) (fun t => t.err == 4#3) = true := by decide

/-! ### One step of the port (vectors T1, T2, P6) -/

theorem test_illegal_word :
    nextIs (step (State.reset.withFetchWord 32 0x15)) (fun t => t.statusWord == 5#32 && t.errInfo == 0x15#32) = true := by
  decide +kernel

theorem test_fault_ignores_illegal_word :
    nextIs (step (faultedState.withFetchWord 32 0x7)) (fun t => t.err == 4#3 && t.errInfo == 0x02000009#32) = true := by
  decide +kernel

theorem test_buffer_write_lanes :
    nextIs (step (withNext State.reset (writeInput 0x0010000 0x64636261)))
      (fun t => (List.range 4).map t.symIn == [0x61, 0x62, 0x63, 0x64] && t.response.map (·.resp) == some .okay) = true := by
  decide +kernel

theorem test_node_word_read :
    nextIs (step (withNext abcState (readInput 0x0001020 0#32))) (fun t => t.response == some ⟨.okay, 0x80000007#32⟩) = true := by
  decide +kernel

theorem test_read_only_write :
    nextIs (step (withNext abcState (writeInput 0x0000584 9)))
      (fun t => t.freq.at 0x61 == 2#16 && t.err == 0#3 && t.response.map (·.resp) == some .error) = true := by
  decide +kernel

theorem test_length_write_truncates :
    nextIs (step (withNext State.reset (writeInput 0x000000C 0xABCD1234))) (fun t => t.inLen == 0x1234#16) = true := by
  decide +kernel

theorem test_loadbits_words :
    (loadBits [true, false, true]).map Line.transaction =
      [⟨.write, 0x0200000#25, 0x000000A0#32⟩, ⟨.write, 0x0000010#25, 3#32⟩] := by
  decide +kernel

/-! ### Witnesses: a concrete state and operands for the hypotheses of each statement -/

theorem abc_isTree : abcNodes.IsTree 3 where
  size := by decide
  leaves := by decide +kernel
  ascending := by decide +kernel
  internals := by decide +kernel
  oneParent := by decide +kernel
  rootWeight := by decide +kernel
  rest := fun k _ h => by
    simp [abcNodes, NodeArena.at_put_of_ne _ _ (show k ≠ 0 by omega), NodeArena.at_put_of_ne _ _ (show k ≠ 1 by omega),
      NodeArena.at_put_of_ne _ _ (show k ≠ 2 by omega), NodeArena.at_put_of_ne _ _ (show k ≠ 3 by omega),
      NodeArena.at_put_of_ne _ _ (show k ≠ 4 by omega), NodeArena.at_empty]

theorem abc_holdsTree : abcState.HoldsTree 3 where
  tree := abc_isTree
  cnt := by decide
  root := by decide

theorem abc_freqBounded : freqState.FreqBounded := by unfold State.FreqBounded; decide +kernel

theorem abc_keyCount : freqState.freq.keyCount = 3 := by decide +kernel

theorem abc_codes_at (x : Symbol) :
    (x = 0x61#8 ∧ abcCodes.at x = ⟨true, 2#8, 1#255⟩) ∨ (x = 0x62#8 ∧ abcCodes.at x = ⟨true, 1#8, 0#255⟩) ∨
    (x = 0x63#8 ∧ abcCodes.at x = ⟨true, 2#8, 3#255⟩) ∨ abcCodes.at x = CodeEntry.absent := by
  by_cases h1 : x = 0x63#8
  · exact .inr (.inr (.inl ⟨h1, by subst h1; decide +kernel⟩))
  · by_cases h2 : x = 0x62#8
    · exact .inr (.inl ⟨h2, by subst h2; decide +kernel⟩)
    · by_cases h3 : x = 0x61#8
      · exact .inl ⟨h3, by subst h3; decide +kernel⟩
      · exact .inr (.inr (.inr (by
          simp [abcCodes, CodeTable.at_put_of_ne _ _ h1, CodeTable.at_put_of_ne _ _ h2, CodeTable.at_put_of_ne _ _ h3])))

theorem no_bits_above (v : BitVec 255) (n : Nat) (h : v.toNat < 2 ^ n) (j : Nat) (hj : n ≤ j) : v.getLsbD j = false :=
  Nat.testBit_lt_two_pow (Nat.lt_of_lt_of_le h (Nat.pow_le_pow_right (by decide) hj))

theorem abc_codesInv : abcState.CodesInv := by
  refine ⟨fun x => ?_, fun x y hxy hx hy => ?_⟩
  · show (abcCodes.at x).Legal
    rcases abc_codes_at x with ⟨-, e⟩ | ⟨-, e⟩ | ⟨-, e⟩ | e <;> rw [e]
    · exact ⟨by decide, fun _ => ⟨by decide, no_bits_above _ _ (by decide)⟩⟩
    · exact ⟨by decide, fun _ => ⟨by decide, no_bits_above _ _ (by decide)⟩⟩
    · exact ⟨by decide, fun _ => ⟨by decide, no_bits_above _ _ (by decide)⟩⟩
    · exact ⟨fun _ => rfl, fun h => by cases h⟩
  · change (abcCodes.at x).present = true at hx
    change (abcCodes.at y).present = true at hy
    change ¬ (abcCodes.at x).string <+: (abcCodes.at y).string
    rcases abc_codes_at x with ⟨ex, e⟩ | ⟨ex, e⟩ | ⟨ex, e⟩ | e <;>
      rcases abc_codes_at y with ⟨ey, f⟩ | ⟨ey, f⟩ | ⟨ey, f⟩ | f <;>
      first
        | exact absurd (ex.trans ey.symm) hxy
        | (rw [e] at hx; exact absurd hx (by decide))
        | (rw [f] at hy; exact absurd hy (by decide))
        | (rw [e, f]; decide +kernel)

theorem abc_freqBounded' : abcState.FreqBounded := abc_freqBounded

/-- EveryStepIsSafe: a state that is not the reset state. -/
theorem witness_EveryStepIsSafe : abcState.Inv where
  err := by decide
  freq := abc_freqBounded
  tree := .inr ⟨3, abc_holdsTree⟩
  codes := abc_codesInv
  mem := Memory.wf_empty 0 1 2
  draws := by decide

theorem witness_ResetInputGivesResetState : (withNext abcState .reset).pending = .reset :: [] := rfl

theorem witness_FaultedBlockExecutesOnlyClear : faultedState.err ≠ 0#3 ∧ Instr.encode ≠ .clear := by decide
theorem witness_FaultedBlockExecutesOnlyClear_2 :
    (withNext faultedState (writeInput 0x0000000#25 7#32)).err ≠ 0#3 ∧
    (withNext faultedState (writeInput 0x0000000#25 7#32)).pending = writeInput 0x0000000#25 7#32 :: [] ∧ 7#32 ≠ 0x0000000F#32 := by
  decide

theorem witness_CommandWriteCases (w : Word) (s : State) :
    (withNext s (writeInput 0x0000000#25 w)).pending = writeInput 0x0000000#25 w :: [] := rfl
/-- The cases meet nowhere: a faulted block with CLEAR's word and another, and an idle one with words at the edges of rule R94. -/
theorem witness_CommandWriteCases_2 :
    faultedState.err ≠ 0#3 ∧ 0x8000000F#32 ≠ 0x0000000F#32 ∧ State.reset.err = 0#3 ∧
    BitVec.extractLsb' 4 28 0x00000010#32 ≠ 0#28 ∧ BitVec.extractLsb' 4 28 0x0000000F#32 = 0#28 ∧
    (BitVec.extractLsb' 0 4 0x00000006#32).toNat = 6 ∧ (BitVec.extractLsb' 0 4 0x0000000E#32).toNat = 14 ∧
    (BitVec.extractLsb' 0 4 0x00000005#32).toNat = 5 ∧ (BitVec.extractLsb' 0 4 0x0000000F#32).toNat = 15 := by decide

theorem witness_StepRunsTheDecodedCommand :
    (withNext abcState (writeInput 0x0000000#25 4#32)).pending = writeInput 0x0000000#25 4#32 :: [] ∧ decode 4#32 = .ok .encode ∧
    decodeTableWord 32 15 = some .clear := ⟨rfl, rfl, rfl⟩

theorem witness_DecodeAndEncodeAgree : Instr.WellFormed .decode = true ∧ decode 5#32 = .ok .decode := ⟨rfl, rfl⟩

theorem witness_IdleBlockKeepsItsState : abcState.pending = [] := rfl

theorem witness_MisalignedAccessIsAnError :
    (0x0000005#25).toNat % 4 ≠ 0 ∧ (0x1FFFFFF#25).toNat % 4 ≠ 0 ∧
    (withNext abcState (.transaction ⟨.write, 0x0000005#25, 1#32⟩)).pending = .transaction ⟨.write, 0x0000005#25, 1#32⟩ :: [] := by decide

/-- The first and the last word of every unmapped range (vector T1). -/
theorem witness_UnmappedAccessIsAnError :
    [0x20, 0x3FC, 0xC00, 0xFFC, 0x4000, 0xFFFC, 0x20000, 0x1FFFFC, 0x400000, 0xFFFFFC].all (fun n =>
      n % 4 == 0 && (BitVec.ofNat 25 n).toNat == n &&
      decide ((0x20 ≤ n ∧ n < 0x400) ∨ (0xC00 ≤ n ∧ n < 0x1000) ∨ (0x4000 ≤ n ∧ n < 0x10000) ∨
        (0x20000 ≤ n ∧ n < 0x200000) ∨ (0x400000 ≤ n ∧ n < 0x1000000)) &&
      nextIs (step (withNext State.reset (readInput (BitVec.ofNat 25 n) 0#32)))
        (fun t => t.response.map (·.resp) == some .error)) = true := by decide +kernel

/-- The read-only registers and the first and last word of every read-only window (vector T1). -/
theorem witness_ReadOnlyWriteIsAnError :
    [0x4, 0x8, 0x14, 0x18, 0x1C, 0x400, 0x7FC, 0x800, 0xBFC, 0x1000, 0x1FFC, 0x2000, 0x3FFC, 0x1000000, 0x1FFFFFC].all (fun n =>
      n % 4 == 0 && (BitVec.ofNat 25 n).toNat == n &&
      decide (n = 0x4 ∨ n = 0x8 ∨ n = 0x14 ∨ n = 0x18 ∨ n = 0x1C ∨ (0x400 ≤ n ∧ n < 0xC00) ∨ (0x1000 ≤ n ∧ n < 0x4000) ∨
        0x1000000 ≤ n) &&
      nextIs (step (withNext State.reset (writeInput (BitVec.ofNat 25 n) 9#32)))
        (fun t => t.response.map (·.resp) == some .error)) = true := by decide +kernel

theorem witness_LengthRegisterWrites :
    (withNext faultedState (writeInput 0x000000C#25 9#32)).pending = writeInput 0x000000C#25 9#32 :: [] ∧
    (withNext faultedState (writeInput 0x0000010#25 9#32)).pending = writeInput 0x0000010#25 9#32 :: [] := ⟨rfl, rfl⟩

/-- The first and the last word of SYM_IN and of BITBUF. -/
theorem witness_BufferWriteStoresFourBytes :
    [0x10000, 0x1FFFC, 0x200000, 0x3FFFFC].all (fun n =>
      n % 4 == 0 && (BitVec.ofNat 25 n).toNat == n &&
      decide ((0x10000 ≤ n ∧ n < 0x20000) ∨ (0x200000 ≤ n ∧ n < 0x400000)) &&
      nextIs (step (withNext State.reset (writeInput (BitVec.ofNat 25 n) 0x64636261#32)))
        (fun t => t.mem.read n == 0x61#8 && t.mem.read (n + 3) == 0x64#8)) = true := by decide +kernel

/-- The first and the last word of the three buffers. -/
theorem witness_BufferReadLanes :
    [0x10000, 0x1FFFC, 0x200000, 0x3FFFFC, 0x1000000, 0x1FFFFFC].all (fun n =>
      n % 4 == 0 && (BitVec.ofNat 25 n).toNat == n &&
      decide ((0x10000 ≤ n ∧ n < 0x20000) ∨ (0x200000 ≤ n ∧ n < 0x400000) ∨ 0x1000000 ≤ n) &&
      nextIs (step (withNext { State.reset with mem := State.reset.mem.writeBytes n [1, 2, 3, 4] } (readInput (BitVec.ofNat 25 n) 0#32)))
        (fun t => t.response == some ⟨.okay, 0x04030201#32⟩)) = true := by decide +kernel

theorem witness_RegisterReads (s : State) (a : Addr) (d : Word) :
    (withNext s (readInput a d)).pending = readInput a d :: [] := rfl

theorem witness_FreqAndLengthWindows (s : State) :
    (withNext s (readInput (BitVec.ofNat 25 (0x400 + 4 * (0xFF#8).toNat)) 0xFFFFFFFF#32)).pending = readInput 0x00007FC#25 0xFFFFFFFF#32 :: [] ∧
    (withNext s (readInput (BitVec.ofNat 25 (0x800 + 4 * (0xFF#8).toNat)) 0xFFFFFFFF#32)).pending = readInput 0x0000BFC#25 0xFFFFFFFF#32 :: [] := ⟨rfl, rfl⟩

/-- A valid slot by both words, the first invalid one and slot 511. -/
theorem witness_NodeWindow :
    (withNext abcState (readInput (BitVec.ofNat 25 (0x1000 + 8 * (4#9).toNat + if true then 4 else 0)) 0xFFFFFFFF#32)).pending =
      readInput 0x0001024#25 0xFFFFFFFF#32 :: [] ∧
    (withNext abcState (readInput (BitVec.ofNat 25 (0x1000 + 8 * (0x1FF#9).toNat + if false then 4 else 0)) 0xFFFFFFFF#32)).pending =
      readInput 0x0001FF8#25 0xFFFFFFFF#32 :: [] ∧
    (4#9).toNat < abcState.nodeCnt.toNat ∧ 4#9 ≠ 0x1FF#9 ∧ abcState.nodeCnt.toNat ≤ (5#9).toNat := by decide

theorem witness_CodeBitsWindow (s : State) :
    (withNext s (readInput (BitVec.ofNat 25 (0x2000 + 32 * (0xFF#8).toNat + 4 * 7)) 0xFFFFFFFF#32)).pending = readInput 0x0003FFC#25 0xFFFFFFFF#32 :: [] := rfl

theorem witness_ReadsChangeNoState (s : State) :
    (withNext s (readInput 0x0000006#25 0xFFFFFFFF#32)).pending = readInput 0x0000006#25 0xFFFFFFFF#32 :: [] := rfl

theorem witness_HostCannotWriteTables (s : State) :
    (withNext s (.transaction ⟨.write, 0x0001000#25, 9#32⟩)).pending = .transaction ⟨.write, 0x0001000#25, 9#32⟩ :: [] ∧
    ¬ (Transaction.kind ⟨.write, 0x0001000#25, 9#32⟩ = .write ∧ Transaction.addr ⟨.write, 0x0001000#25, 9#32⟩ = 0x0000000#25) := by
  exact ⟨rfl, by decide⟩

theorem witness_WritesAreIdempotent (s : State) :
    0x000000C#25 ≠ 0x0000000#25 ∧
    State.pending { s with pending := [writeInput 0x000000C#25 5#32, writeInput 0x000000C#25 5#32] } =
      writeInput 0x000000C#25 5#32 :: writeInput 0x000000C#25 5#32 :: [] := ⟨by decide, rfl⟩

theorem witness_StreamBitReadAfterWrite : 0 < 16777216 ∧ 16777215 < 16777216 := by decide

theorem witness_LoadsymLoadsTheInput (s : State) :
    ([0x61, 0x62, 0x63, 0x64, 0x65] : List Byte).length ≤ 65535 ∧
    State.pending { s with pending := scriptInputs (loadSym [0x61, 0x62, 0x63, 0x64, 0x65]) ++ [.reset] } =
      scriptInputs (loadSym [0x61, 0x62, 0x63, 0x64, 0x65]) ++ [.reset] := ⟨by decide, rfl⟩

theorem witness_FreqCountsTheInput : (inputState [0x61, 0x62]).err = 0#3 ∧ faultedState.err ≠ 0#3 := ⟨rfl, by decide⟩
theorem witness_FreqTotalIsInputLength : (inputState []).err = 0#3 := rfl

theorem witness_BuildTreeOfEmptyTableFaults : State.reset.err = 0#3 ∧ ∀ x, State.reset.freq.at x = 0#16 :=
  ⟨rfl, FreqTable.at_empty⟩

theorem witness_BuildTreeBuildsATree : freqState.err = 0#3 ∧ freqState.FreqBounded ∧ 1 ≤ freqState.freq.keyCount :=
  ⟨rfl, abc_freqBounded, by rw [abc_keyCount]; decide⟩
theorem witness_BuildTreeMergesTheTwoLowest : freqState.err = 0#3 ∧ freqState.FreqBounded ∧ 1 ≤ freqState.freq.keyCount :=
  witness_BuildTreeBuildsATree

theorem abc_keys (x : Symbol) : 0 < (freqState.freq.at x).toNat ↔ x = 0x61#8 ∨ x = 0x62#8 ∨ x = 0x63#8 := by
  show 0 < (abcFreq.at x).toNat ↔ _
  by_cases h1 : x = 0x63#8
  · subst h1; decide +kernel
  · by_cases h2 : x = 0x62#8
    · subst h2; decide +kernel
    · by_cases h3 : x = 0x61#8
      · subst h3; decide +kernel
      · simp [abcFreq, FreqTable.at_put_of_ne _ _ h1, FreqTable.at_put_of_ne _ _ h2, FreqTable.at_put_of_ne _ _ h3, h1, h2, h3]

theorem abc_path_a : abcState.leafPath 0x61#8 [true, false] := ⟨0#9, by decide +kernel⟩
theorem abc_path_b : abcState.leafPath 0x62#8 [false] := ⟨1#9, by decide +kernel⟩
theorem abc_path_c : abcState.leafPath 0x63#8 [true, true] := ⟨2#9, by decide +kernel⟩

theorem witness_BuildTreeIsOptimal : freqState.err = 0#3 ∧ freqState.FreqBounded ∧ 2 ≤ freqState.freq.keyCount :=
  ⟨rfl, abc_freqBounded, by rw [abc_keyCount]; decide⟩
/-- The depths of "aabbbcc"'s tree, and another tree over the same leaves. -/
theorem witness_BuildTreeIsOptimal_2 :
    (∀ x, 0 < (freqState.freq.at x).toNat →
      ∃ p, abcState.leafPath x p ∧ p.length = (fun y => if y = 0x62#8 then 1 else 2) x) ∧
    (AnyTree.node (.node (.leaf 0x61#8) (.leaf 0x62#8)) (.leaf 0x63#8)).symbols.Nodup ∧
    (∀ x, x ∈ (AnyTree.node (.node (.leaf 0x61#8) (.leaf 0x62#8)) (.leaf 0x63#8)).symbols ↔ 0 < (freqState.freq.at x).toNat) := by
  refine ⟨fun x hx => ?_, by decide, fun x => ?_⟩
  · rcases (abc_keys x).mp hx with rfl | rfl | rfl
    · exact ⟨_, abc_path_a, rfl⟩
    · exact ⟨_, abc_path_b, rfl⟩
    · exact ⟨_, abc_path_c, rfl⟩
  · rw [abc_keys]; simp [AnyTree.symbols]

theorem witness_RebuildingGivesTheSame : abcState.err = 0#3 ∧ abcState.HoldsTree 3 := ⟨rfl, abc_holdsTree⟩

theorem witness_BuildCodesWithoutTreeFaults : State.reset.err = 0#3 ∧ State.reset.nodeCnt = 0#10 := ⟨rfl, rfl⟩

/-- An internal root of an arena with one valid record, by its children: NIL left, NIL right, left at NODE_CNT, right at NODE_CNT. -/
def badRoot (l r : NodeIdx) : State :=
  { State.reset with node := NodeArena.empty.put 0 ⟨1#16, false, 0#8, l, r⟩, nodeCnt := 1#10, root := 0#9 }
theorem witness_BuildCodesReportsAMalformedRoot :
    (∀ l r, (badRoot l r).err = 0#3 ∧ (badRoot l r).nodeCnt ≠ 0#10) ∧
    ((badRoot 0x1FF 0).node.at 0).leaf = false ∧ ((badRoot 0x1FF 0).node.at 0).left = 0x1FF#9 ∧
    ((badRoot 0 0x1FF).node.at 0).leaf = false ∧ ((badRoot 0 0x1FF).node.at 0).right = 0x1FF#9 ∧
    ((badRoot 1 0).node.at 0).leaf = false ∧ (badRoot 1 0).nodeCnt.toNat ≤ ((badRoot 1 0).node.at 0).left.toNat ∧
    ((badRoot 0 1).node.at 0).leaf = false ∧ (badRoot 0 1).nodeCnt.toNat ≤ ((badRoot 0 1).node.at 0).right.toNat :=
  ⟨fun _ _ => ⟨rfl, by simp [badRoot]⟩, by decide +kernel⟩

theorem witness_BuildCodesOfASingleLeaf :
    oneLeaf.err = 0#3 ∧ oneLeaf.nodeCnt ≠ 0#10 ∧ (oneLeaf.node.at oneLeaf.root.toNat).leaf = true := by decide +kernel

theorem witness_BuildCodesRecordsThePaths : abcState.err = 0#3 ∧ abcState.HoldsTree 3 ∧ 2 ≤ 3 ∧ abcState.leafPath 0x61#8 [true, false] :=
  ⟨rfl, abc_holdsTree, by decide, abc_path_a⟩
theorem witness_BuiltCodesArePrefixFree : abcState.err = 0#3 ∧ abcState.HoldsTree 3 := ⟨rfl, abc_holdsTree⟩
theorem witness_CodeLengthIsBounded : abcState.HoldsTree 3 ∧ 2 ≤ 3 ∧ abcState.leafPath 0x63#8 [true, true] :=
  ⟨abc_holdsTree, by decide, abc_path_c⟩

theorem witness_EncodePacksTheCodes :
    (abcInput [0x61, 0x62, 0x63]).err = 0#3 ∧ ∀ i < (abcInput [0x61, 0x62, 0x63]).inLen.toNat,
      ((abcInput [0x61, 0x62, 0x63]).code.at ((abcInput [0x61, 0x62, 0x63]).symIn i)).present = true := by decide +kernel

theorem witness_EncodeReportsTheFirstUnknownSymbol :
    (abcInput [0x61, 0x64, 0x65]).err = 0#3 ∧ 1 < (abcInput [0x61, 0x64, 0x65]).inLen.toNat ∧
    ((abcInput [0x61, 0x64, 0x65]).code.at ((abcInput [0x61, 0x64, 0x65]).symIn 1)).present = false ∧
    ∀ j < 1, ((abcInput [0x61, 0x64, 0x65]).code.at ((abcInput [0x61, 0x64, 0x65]).symIn j)).present = true := by decide +kernel

theorem witness_EncodeOfEmptyInput : State.reset.err = 0#3 ∧ State.reset.inLen = 0#16 := ⟨rfl, rfl⟩

theorem witness_EncodeMatchesTheBitLoop :
    ∃ m pos, (abcInput [0x61]).err = 0#3 ∧ (abcInput [0x61]).mem.wf ∧
      encodeLoop (abcInput [0x61]).code (abcInput [0x61]).mem 0 0 (abcInput [0x61]).input = .ok (m, pos) := by
  refine ⟨((abcInput [0x61]).mem.bitPut 0 true).bitPut 1 false, 2, rfl, by decide +kernel, ?_⟩
  have hi : (abcInput [0x61]).input = [0x61#8] := by decide +kernel
  have hp : ((abcInput [0x61]).code.at 0x61#8).present = true := by decide +kernel
  have hs : ((abcInput [0x61]).code.at 0x61#8).string = [true, false] := by decide +kernel
  have hl : ((abcInput [0x61]).code.at 0x61#8).len.toNat = 2 := by decide +kernel
  simp only [hi, encodeLoop, hp, hs, hl, Memory.putBits, if_true]

theorem witness_DecodeOfEmptyStream : abcState.err = 0#3 ∧ abcState.bitLen = 0#24 := ⟨rfl, rfl⟩
theorem witness_DecodeWithoutTreeFaults :
    State.err { State.reset with bitLen := 1#24 } = 0#3 ∧ State.bitLen { State.reset with bitLen := 1#24 } ≠ 0#24 ∧
    State.nodeCnt { State.reset with bitLen := 1#24 } = 0#10 := by decide
theorem witness_DecodeWithASingleLeaf :
    oneLeaf.err = 0#3 ∧ oneLeaf.bitLen ≠ 0#24 ∧ oneLeaf.nodeCnt ≠ 0#10 ∧ (oneLeaf.node.at oneLeaf.root.toNat).leaf = true := by
  decide +kernel

theorem abcStream_holdsTree (bits : List Bool) : (abcStream bits).HoldsTree 3 := ⟨abc_isTree, by simp [abcStream, abcState], rfl⟩

/-- Vector T7: "1011100" is "acab". -/
theorem witness_DecodeRecoversWholeCodes :
    (abcStream [true, false, true, true, true, false, false]).err = 0#3 ∧
    (abcStream [true, false, true, true, true, false, false]).HoldsTree 3 ∧
    (∀ c ∈ [(0x61#8, [true, false]), (0x63#8, [true, true]), (0x61#8, [true, false]), (0x62#8, [false])],
      (abcStream [true, false, true, true, true, false, false]).leafPath c.1 c.2) ∧
    (abcStream [true, false, true, true, true, false, false]).stream =
      ([(0x61#8, [true, false]), (0x63#8, [true, true]), (0x61#8, [true, false]), (0x62#8, [false])].map (fun c => c.2)).flatten := by
  refine ⟨rfl, abcStream_holdsTree _, fun c hc => ?_, by decide +kernel⟩
  simp only [List.mem_cons, List.not_mem_nil, or_false] at hc
  rcases hc with rfl | rfl | rfl | rfl
  · exact abc_path_a
  · exact abc_path_c
  · exact abc_path_a
  · exact abc_path_b

/-- Vector T7: the first three bits of "10100001111". -/
theorem witness_DecodeReportsTruncation :
    (abcStream [true, false, true]).err = 0#3 ∧ (abcStream [true, false, true]).HoldsTree 3 ∧
    (∀ c ∈ [(0x61#8, [true, false])], (abcStream [true, false, true]).leafPath c.1 c.2) ∧
    (abcStream [true, false, true]).innerPath [true] ∧
    (abcStream [true, false, true]).stream = ([(0x61#8, [true, false])].map (fun c => c.2)).flatten ++ [true] := by
  refine ⟨rfl, abcStream_holdsTree _, fun c hc => ?_, ⟨3#9, by decide +kernel⟩, by decide +kernel⟩
  simp only [List.mem_cons, List.not_mem_nil, or_false] at hc
  subst hc
  exact abc_path_a

theorem witness_EveryStreamIsCodesAndAnInnerPath : abcState.HoldsTree 3 ∧ 2 ≤ 3 := ⟨abc_holdsTree, by decide⟩
theorem witness_DecodeNeverDescendsFromALeaf : (abcStream [true]).err = 0#3 := rfl

/-- Two states that differ outside the stream: an input, and the bits after position BIT_LEN. -/
theorem witness_DecodeReadsOnlyTheStream :
    ({ abcStream [true, false] with inLen := 9#16, mem := State.reset.mem.write 0x200000 0xBF#8 } : State).bitLen = 2#24 ∧
    ∀ k < (abcStream [true, false]).bitLen.toNat,
      ({ abcStream [true, false] with inLen := 9#16, mem := State.reset.mem.write 0x200000 0xBF#8 } : State).bitGet k =
        (abcStream [true, false]).bitGet k := by decide +kernel

theorem witness_RoundTripRecoversTheInput :
    (inputState [0x61, 0x62]).err = 0#3 ∧ (inputState [0x61, 0x62]).inLen ≠ 0#16 ∧ (inputState []).inLen = 0#16 := by decide

theorem witness_CommandsWriteOnlyTheirOutput : Instr.nop ≠ .clear ∧ ∃ t, exec .nop abcState = .next t := ⟨by decide, _, rfl⟩

theorem witness_EachCommandHasOneFaultClass :
    State.reset.err = 0#3 ∧ nextIs (exec .buildTree State.reset) (fun t => t.err == 1#3) = true := ⟨rfl, by decide +kernel⟩

theorem witness_OnlyClearAndResetEndAFault :
    (withNext faultedState (writeInput 0x0000000#25 0x0000000F#32)).err ≠ 0#3 ∧
    ∃ t, step (withNext faultedState (writeInput 0x0000000#25 0x0000000F#32)) = .next t ∧ t.err = 0#3 := ⟨by decide, _, rfl, rfl⟩

theorem witness_StepKeepsMemoryCanonical : ∃ t, (abcInput [0x61]).mem.wf ∧ step (abcInput [0x61]) = .next t :=
  ⟨_, by decide +kernel, rfl⟩
theorem witness_StepKeepsErrLegal : ∃ t, faultedState.ErrLegal ∧ step faultedState = .next t := ⟨_, by decide, rfl⟩
theorem witness_StepKeepsTheTree : ∃ t, abcState.FreqBounded ∧ abcState.TreeInv ∧ step abcState = .next t :=
  ⟨_, abc_freqBounded', .inr ⟨3, abc_holdsTree⟩, rfl⟩
theorem witness_StepKeepsTheCodesPrefixFree : ∃ t, abcState.TreeInv ∧ abcState.CodesInv ∧ step abcState = .next t :=
  ⟨_, .inr ⟨3, abc_holdsTree⟩, abc_codesInv, rfl⟩

end Sys2Proof.Tests
end

/-! ## The changes that a step is made of

Every step of the machine is a short chain of the elementary changes of `Change`, and so a property that each elementary change
keeps is kept by every step (`step_keeps`). -/

namespace Sys2Proof.Machine

/-- The elementary changes of the state: what the host port, reset, a fault and the commands do. -/
inductive Change (s : State) : State → Prop
  | takeInput (rest : List HostInput) : Change s (s.takeInput rest)
  | answer (r : Resp) (d : Word) : Change s (s.answer r d)
  | answerNoData (r : Resp) : Change s (s.answerNoData r)
  | reset : Change s s.applyReset
  | clear : Change s s.clearAll
  | setInLen (v : BitVec 16) : Change s { s with inLen := v }
  | setBitLen (v : BitVec 24) : Change s { s with bitLen := v }
  | store (a : Nat) (w : Word) (inside : ∀ i < 4, inBuffer (a + i) = true) :
      Change s { s with mem := s.mem.writeWord a w }
  | raise (e : ErrClass) (info : Word) (out : OutputObject) : Change s (s.raise e info out)
  | count : Change s { s with freq := countSymbols s.input }
  | buildTree (someKey : 0 < s.freq.keys.length) : Change s { s with
      node := builtArena s.freq,
      nodeCnt := BitVec.ofNat 10 (2 * s.freq.keys.length - 1),
      root := BitVec.ofNat 9 (2 * s.freq.keys.length - 2) }
  | oneCode (x : Symbol) : Change s { s with code := CodeTable.empty.put x (CodeEntry.ofString [false]) }
  | buildCodes (codes : CodeTable) (held : s.nodeCnt ≠ 0#10) (inner : (s.node.at s.root.toNat).leaf = false)
      (walk : codeWalk s.node s.nodeCnt.toNat Config.nodeMax [(s.root, [])] CodeTable.empty = .table codes) :
      Change s { s with code := codes }
  | encode (bits : List Bool) (found : encodeFrom s.code 0 s.input = .ok bits) : Change s { s with
      mem := s.mem.writeBytes Config.bitbufBase (packBits bits),
      bitLen := BitVec.ofNat 24 bits.length }
  | deliver (out : List Symbol) (short : out.length ≤ s.bitLen.toNat) : Change s (s.deliver out)

/-- Every symbol that DECODE gives takes a bit of the stream at least. -/
theorem decodeWalk_length {t : NodeArena} {root cur : NodeIdx} {bits : List Bool} {k start : Nat} {out : List Symbol}
    (h : decodeWalk t root bits cur k start = .ok out) : out.length ≤ bits.length := by
  induction bits generalizing cur k start out with
  | nil =>
    unfold decodeWalk at h
    split at h
    · simp [← Except.ok.inj h]
    · cases h
  | cons b bs ih =>
    simp only [decodeWalk] at h
    split at h
    · cases h
    · split at h
      · split at h
        · rename_i rest hrest
          rw [← Except.ok.inj h]
          exact Nat.succ_le_succ (ih hrest)
        · cases h
      · exact Nat.le_succ_of_le (ih h)

@[simp] theorem State.length_stream (s : State) : s.stream.length = s.bitLen.toNat := by simp [State.stream]

@[simp] theorem State.length_input (s : State) : s.input.length = s.inLen.toNat := by simp [State.input]

theorem execBuildTree_change {s t : State} (h : execBuildTree s = .next t) : t = s ∨ Change s t := by
  obtain ⟨-, rfl⟩ | ⟨-, h⟩ := State.runCommand_cases h
  · exact .inl rfl
  · split at h <;> cases h
    · exact .inr (.raise ..)
    · exact .inr (.buildTree (Nat.pos_of_ne_zero ‹_›))

theorem execBuildCodes_change {s t : State} (h : execBuildCodes s = .next t) : t = s ∨ Change s t := by
  obtain ⟨-, rfl⟩ | ⟨-, h⟩ := State.runCommand_cases h
  · exact .inl rfl
  · dsimp only at h
    split at h
    · cases h; exact .inr (.raise ..)
    · split at h
      · cases h; exact .inr (.oneCode _)
      · split at h <;> cases h
        · exact .inr (.buildCodes _ ‹_› (Bool.eq_false_of_not_eq_true ‹_›) ‹_›)
        · exact .inr (.raise ..)

theorem execEncode_change {s t : State} (h : execEncode s = .next t) : t = s ∨ Change s t := by
  obtain ⟨-, rfl⟩ | ⟨-, h⟩ := State.runCommand_cases h
  · exact .inl rfl
  · split at h <;> cases h
    · exact .inr (.encode _ ‹_›)
    · exact .inr (.raise ..)

theorem execDecode_change {s t : State} (h : execDecode s = .next t) : t = s ∨ Change s t := by
  obtain ⟨-, rfl⟩ | ⟨-, h⟩ := State.runCommand_cases h
  · exact .inl rfl
  · dsimp only at h
    split at h
    · cases h; exact .inr (.deliver _ (Nat.zero_le _))
    · split at h
      · cases h; exact .inr (.raise ..)
      · split at h
        · cases h; exact .inr (.deliver _ (by simp))
        · split at h <;> cases h
          · exact .inr (.deliver _ (s.length_stream ▸ decodeWalk_length ‹_›))
          · exact .inr (.raise ..)

/-- A command leaves the state as it is or makes one elementary change. -/
theorem exec_change {i : Instr} {s t : State} (h : exec i s = .next t) : t = s ∨ Change s t := by
  cases i with
  | nop =>
    change execNop s = .next t at h
    obtain ⟨-, rfl⟩ | ⟨-, h⟩ := State.runCommand_cases h
    · exact .inl rfl
    · exact .inl (Host.Outcome.next.inj h).symm
  | freq =>
    change execFreq s = .next t at h
    obtain ⟨-, rfl⟩ | ⟨-, h⟩ := State.runCommand_cases h
    · exact .inl rfl
    · cases h; exact .inr .count
  | buildTree => exact execBuildTree_change h
  | buildCodes => exact execBuildCodes_change h
  | encode => exact execEncode_change h
  | decode => exact execDecode_change h
  | clear => cases h; exact .inr .clear

theorem issueCommand_change {w : Word} {s t : State} (h : issueCommand w s = .next t) : t = s ∨ Change s t := by
  unfold issueCommand at h
  split at h
  · exact exec_change h
  · obtain ⟨-, rfl⟩ | ⟨-, h⟩ := State.runCommand_cases h
    · exact .inl rfl
    · cases h; exact .inr (.raise ..)

/-- A buffer word is named by its own address, which is in the buffer (rule R61). -/
theorem Target.ofNat_eq_buffer {n b : Nat} (h : Target.ofNat n = .symIn b ∨ Target.ofNat n = .bitbuf b) :
    n = b ∧ (inSymIn b = true ∨ inBitbuf b = true) := by
  unfold Target.ofNat at h
  split_ifs at h <;> simp_all

/-- A write that is not turned away is aligned (rule R62). -/
theorem State.hostWrite_aligned {s t : State} {a : Addr} {w : Word} (h : s.hostWrite a w = .next t) :
    t = s.answerNoData .error ∨ a.toNat % 4 = 0 := by
  by_cases ha : Addr.aligned a = true
  · right
    have := congrArg BitVec.toNat (eq_of_beq ha)
    simpa [BitVec.extractLsb'_toNat] using this
  · left
    simpa [State.hostWrite, ha] using h.symm

/-- The four bytes of an aligned word of SYM_IN or BITBUF are bytes of the same buffer. -/
theorem inBuffer_word {a : Nat} (aligned : a % 4 = 0) (h : inSymIn a = true ∨ inBitbuf a = true) :
    ∀ i < 4, inBuffer (a + i) = true := by
  intro i hi
  simp only [inBuffer, inSymIn, inBitbuf, inSymOut, Config.symInBase, Config.symInBytes, Config.bitbufBase,
    Config.bitbufBytes, Config.symOutBase, Config.symOutBytes, Bool.or_eq_true, Bool.and_eq_true, decide_eq_true_eq] at h ⊢
  omega

theorem hostWrite_changes {s t : State} {a : Addr} {w : Word} (h : s.hostWrite a w = .next t) :
    Relation.ReflTransGen Change s t := by
  obtain rfl | ⟨-, hcmd⟩ | ⟨-, rfl⟩ | ⟨-, rfl⟩ | ⟨b, hb, rfl⟩ := State.hostWrite_cases h
  · exact .single (.answerNoData _)
  · obtain rfl | hc := issueCommand_change hcmd
    · exact .single (.answerNoData _)
    · exact (Relation.ReflTransGen.single (.answerNoData _)).tail hc
  · exact (Relation.ReflTransGen.single (.setInLen _)).tail (.answerNoData _)
  · exact (Relation.ReflTransGen.single (.setBitLen _)).tail (.answerNoData _)
  · obtain ht | aligned := State.hostWrite_aligned h
    · rw [ht]
      exact .single (.answerNoData _)
    · obtain ⟨rfl, inside⟩ := Target.ofNat_eq_buffer hb
      exact (Relation.ReflTransGen.single (.store _ _ (inBuffer_word aligned inside))).tail (.answerNoData _)

/-- A step is a chain of elementary changes. -/
theorem step_changes {s t : State} (h : step s = .next t) : Relation.ReflTransGen Change s t := by
  obtain ⟨-, rfl⟩ | ⟨rest, -, rfl⟩ | ⟨tr, rest, -, -, rfl⟩ | ⟨tr, rest, -, -, hw⟩ := step_cases h
  · exact .refl
  · exact (Relation.ReflTransGen.single (.takeInput rest)).tail .reset
  · refine (Relation.ReflTransGen.single (.takeInput rest)).tail ?_
    obtain ⟨w, -, hr⟩ | hr := (s.takeInput rest).hostRead_cases tr.addr
    · rw [hr]; exact .answer ..
    · rw [hr]; exact .answerNoData _
  · exact .head (.takeInput rest) (hostWrite_changes hw)

/-- A property that every elementary change keeps is kept by every step. -/
theorem step_keeps {P : State → Prop} (keeps : ∀ s t, Change s t → P s → P t) {s t : State} (h : step s = .next t)
    (hs : P s) : P t := by
  have chain := step_changes h
  clear h
  induction chain with
  | refl => exact hs
  | tail _ hc ih => exact keeps _ _ hc ih

/-! ## The error code, the memory and the draws -/

@[simp] theorem State.raise_err (s : State) (e : ErrClass) (info : Word) (out : OutputObject) :
    (s.raise e info out).err = e.code := by
  cases out <;> rfl

/-- The code of a fault class is one of 1 to 5 (rule R200). -/
theorem ErrClass.code_range (e : ErrClass) : e.code ≠ 0#3 ∧ e.code.toNat ≤ 5 := by
  cases e <;> decide

theorem State.ErrLegal.raise (s : State) (e : ErrClass) (info : Word) (out : OutputObject) :
    (s.raise e info out).ErrLegal := by
  obtain ⟨hne, hle⟩ := e.code_range
  exact ⟨by simpa using hle, fun h => absurd h (by simpa using hne)⟩

theorem Change.keeps_errLegal {s t : State} (c : Change s t) (h : s.ErrLegal) : t.ErrLegal := by
  cases c with
  | reset => exact ⟨Nat.zero_le _, fun _ => rfl⟩
  | clear => exact ⟨Nat.zero_le _, fun _ => rfl⟩
  | raise e info out => exact .raise s e info out
  | _ => exact h

/-- A code-table entry holds at most 255 bits. -/
theorem CodeEntry.length_string_le (e : CodeEntry) : e.string.length ≤ Config.codeMax := by
  have := e.len.isLt
  simp only [CodeEntry.string, List.length_map, List.length_range, Config.codeMax]
  omega

theorem encodeFrom_length {codes : CodeTable} {i : Nat} {xs : List Symbol} {bits : List Bool}
    (h : encodeFrom codes i xs = .ok bits) : bits.length ≤ xs.length * Config.codeMax := by
  obtain ⟨-, rfl⟩ := encodeFrom_eq_ok.mp h
  rw [List.length_flatten, List.map_map]
  refine (List.sum_le_card_nsmul _ Config.codeMax ?_).trans (by simp)
  intro l hl
  obtain ⟨x, -, rfl⟩ := List.mem_map.mp hl
  exact CodeEntry.length_string_le _

/-- The packed stream of the longest input ends within BITBUF (rule R9). -/
theorem length_packBits_encode {s : State} {bits : List Bool} (h : encodeFrom s.code 0 s.input = .ok bits) :
    (packBits bits).length ≤ Config.bitbufBytes := by
  have hbits := encodeFrom_length h
  have hlen := s.inLen.isLt
  simp only [State.length_input, length_packBits, Config.codeMax, Config.bitbufBytes] at *
  omega

theorem inBuffer_bitbuf {i : Nat} (h : i < Config.bitbufBytes) : inBuffer (Config.bitbufBase + i) = true := by
  simp [inBuffer, inBitbuf, h]

theorem inBuffer_symOut {i : Nat} (h : i < Config.symOutBytes) : inBuffer (Config.symOutBase + i) = true := by
  simp [inBuffer, inSymOut, h]

theorem Memory.wf_raise {s : State} (e : ErrClass) (info : Word) (out : OutputObject) (h : s.mem.wf) :
    (s.raise e info out).mem.wf := by
  cases out with
  | bitstream => exact Memory.wf_havocBitbuf _ h
  | recovered => exact Memory.wf_havocSymOut _ h
  | _ => exact h

theorem Change.keeps_memWf {s t : State} (c : Change s t) (h : s.mem.wf) : t.mem.wf := by
  cases c with
  | reset => exact Memory.wf_empty ..
  | store a w inside => exact Memory.wf_writeWord w h inside
  | raise e info out => exact Memory.wf_raise e info out h
  | encode bits found =>
    exact Memory.wf_writeBytes h fun i hi => inBuffer_bitbuf (hi.trans_le (length_packBits_encode found))
  | deliver out short =>
    have := s.bitLen.isLt
    exact Memory.wf_writeBytes h fun i hi => inBuffer_symOut (by simp only [Config.symOutBytes]; omega)
  | _ => exact h

theorem Change.keeps_drawsTaken {s t : State} (c : Change s t) (h : s.DrawsTaken) : t.DrawsTaken := by
  cases c with
  | answerNoData r => exact h.answerNoData r
  | reset => exact s.applyReset_drawsTaken
  | raise e info out => exact h.raise e info out
  | store => simpa [State.DrawsTaken, Memory.writeWord] using h
  | encode => simpa [State.DrawsTaken] using h
  | deliver => simpa [State.DrawsTaken] using h
  | _ => exact h

/-! ## The sum of the counts -/

theorem FreqTable.total_eq_sum (t : FreqTable) :
    t.total = ∑ i ∈ Finset.range 256, (t.at (BitVec.ofNat 8 i)).toNat := rfl

@[simp] theorem FreqTable.total_empty : FreqTable.empty.total = 0 := by
  simp [FreqTable.total_eq_sum]

/-- Counting a symbol raises its own count by at most 1, and no other. -/
theorem countOne_at_le (t : FreqTable) (x y : Symbol) :
    ((countOne t x).at y).toNat ≤ (t.at y).toNat + if y = x then 1 else 0 := by
  by_cases h : y = x
  · subst h
    simp only [countOne, FreqTable.at_put_self, BitVec.toNat_add, if_true]
    exact Nat.mod_le _ _
  · simp [countOne, FreqTable.at_put_of_ne _ _ h, h]

theorem total_countOne_le (t : FreqTable) (x : Symbol) : (countOne t x).total ≤ t.total + 1 := by
  have hone : ∑ i ∈ Finset.range 256, (if BitVec.ofNat 8 i = x then 1 else 0) = 1 := by
    rw [Finset.sum_eq_single_of_mem x.toNat (Finset.mem_range.mpr x.isLt)]
    · simp
    · intro i hi hne
      have : BitVec.ofNat 8 i ≠ x := by
        rintro rfl
        exact hne (by simp [Nat.mod_eq_of_lt (Finset.mem_range.mp hi)])
      simp [this]
  calc (countOne t x).total
      ≤ ∑ i ∈ Finset.range 256, ((t.at (BitVec.ofNat 8 i)).toNat + if BitVec.ofNat 8 i = x then 1 else 0) :=
        by rw [FreqTable.total_eq_sum]; exact Finset.sum_le_sum fun i _ => countOne_at_le t x _
    _ = t.total + 1 := by rw [Finset.sum_add_distrib, hone, ← FreqTable.total_eq_sum]

theorem total_foldl_countOne_le (t : FreqTable) (xs : List Symbol) : (xs.foldl countOne t).total ≤ t.total + xs.length := by
  induction xs generalizing t with
  | nil => simp
  | cons x xs ih =>
    have h1 := ih (countOne t x)
    have h2 := total_countOne_le t x
    simp only [List.foldl_cons, List.length_cons]
    omega

/-- The counts of an input sum to at most its length (rules R34, R113). -/
theorem total_countSymbols_le (xs : List Symbol) : (countSymbols xs).total ≤ xs.length := by
  simpa [countSymbols] using total_foldl_countOne_le FreqTable.empty xs

theorem State.FreqBounded.raise {s : State} (e : ErrClass) (info : Word) (out : OutputObject) (h : s.FreqBounded) :
    (s.raise e info out).FreqBounded := by
  cases out <;> exact h

theorem FreqTable.empty_total_le : FreqTable.empty.total ≤ Config.inMax := by simp

theorem Change.keeps_freqBounded {s t : State} (c : Change s t) (h : s.FreqBounded) : t.FreqBounded := by
  cases c with
  | reset => exact FreqTable.empty_total_le
  | clear => exact FreqTable.empty_total_le
  | raise e info out => exact h.raise e info out
  | count =>
    have hlen := s.inLen.isLt
    have hsum := total_countSymbols_le s.input
    rw [State.length_input] at hsum
    exact hsum.trans (Nat.le_of_lt_succ hlen)
  | _ => exact h

/-! ## The keys of a frequency table -/

/-- The symbols in ascending order of their ordinals. -/
theorem pairwise_allSymbols : ((List.range 256).map (BitVec.ofNat 8)).Pairwise (· < ·) := by
  rw [List.pairwise_map]
  refine List.pairwise_lt_range.imp_of_mem fun {a b} ha hb hab => ?_
  rw [List.mem_range] at ha hb
  simpa [BitVec.lt_def, Nat.mod_eq_of_lt ha, Nat.mod_eq_of_lt hb] using hab

theorem FreqTable.keys_pairwise (t : FreqTable) : t.keys.Pairwise (· < ·) := pairwise_allSymbols.filter _

theorem FreqTable.length_keys_le (t : FreqTable) : t.keys.length ≤ Config.nsym :=
  (List.length_filter_le _ _).trans (by simp)

theorem FreqTable.at_ne_zero_of_mem_keys {t : FreqTable} {x : Symbol} (h : x ∈ t.keys) : t.at x ≠ 0#16 := by
  simpa using (List.mem_filter.mp h).2

/-- Dropping elements that count nothing keeps the sum. -/
theorem sum_map_filter_eq {α : Type} (f : α → Nat) (p : α → Bool) (l : List α) (h : ∀ x ∈ l, p x = false → f x = 0) :
    ((l.filter p).map f).sum = (l.map f).sum := by
  induction l with
  | nil => rfl
  | cons x l ih =>
    obtain ⟨hx, hl⟩ := List.forall_mem_cons.mp h
    cases hp : p x with
    | true => simp [hp, ih hl]
    | false => simp [hp, ih hl, hx hp]

/-- The keys' counts sum to the total (rules R34, R127). -/
theorem FreqTable.sum_keys (t : FreqTable) : (t.keys.map (fun x => (t.at x).toNat)).sum = t.total := by
  rw [FreqTable.keys, sum_map_filter_eq _ _ _ (fun x _ hx => by simpa [← BitVec.toNat_inj] using hx), List.map_map]
  rfl

/-! ## The arena before the first merge -/

theorem NodeArena.at_putAll_of_lt (t : NodeArena) {k j : Nat} (rs : List NodeRec) (h : j < k) :
    (t.putAll k rs).at j = t.at j := by
  induction rs generalizing t k with
  | nil => rfl
  | cons r rs ih => rw [NodeArena.putAll, ih _ (by omega), NodeArena.at_put_of_ne _ _ (by omega)]

theorem NodeArena.at_putAll_of_le (t : NodeArena) {k j : Nat} (rs : List NodeRec) (h : k + rs.length ≤ j) :
    (t.putAll k rs).at j = t.at j := by
  induction rs generalizing t k with
  | nil => rfl
  | cons r rs ih =>
    rw [List.length_cons] at h
    rw [NodeArena.putAll, ih _ (by omega), NodeArena.at_put_of_ne _ _ (by omega)]

theorem NodeArena.at_putAll (t : NodeArena) {k i : Nat} (rs : List NodeRec) (hi : i < rs.length) (h : k + i < 511) :
    (t.putAll k rs).at (k + i) = rs[i] := by
  induction rs generalizing t k i with
  | nil => simp at hi
  | cons r rs ih =>
    rw [NodeArena.putAll]
    cases i with
    | zero => rw [NodeArena.at_putAll_of_lt _ _ (by omega), Nat.add_zero, NodeArena.at_put_self _ _ (by omega)]; rfl
    | succ i =>
      have := ih (t.put k r) (k := k + 1) (i := i) (by simpa using hi) (by omega)
      simpa [Nat.add_assoc, Nat.add_comm 1 i] using this

/-! ## The merge loop -/

/-- Rule R41 (c) for one node: it is internal, above its two different children, and weighs their sum. -/
structure NodeArena.IsInternal (t : NodeArena) (k : Nat) : Prop where
  notLeaf : (t.at k).leaf = false
  noSymbol : (t.at k).sym = 0#8
  left : (t.at k).left.toNat < k
  right : (t.at k).right.toNat < k
  differ : (t.at k).left ≠ (t.at k).right
  weight : (t.at k).weight.toNat = (t.at (t.at k).left.toNat).weight.toNat + (t.at (t.at k).right.toNat).weight.toNat

/-- What the merge loop of rule R120 keeps, over the keys of a frequency table. -/
structure Merging.Inv (t : FreqTable) (m : Merging) : Prop where
  count : m.queue.length + m.free = 2 * t.keys.length
  leavesMade : t.keys.length ≤ m.free
  nodup : m.queue.Nodup
  queue : ∀ c, c ∈ m.queue ↔ m.arena.inQueue t.keys.length m.free c
  newest : m.free - 1 ∈ m.queue
  leaves : ∀ k (h : k < t.keys.length), m.arena.at k = leafOf t t.keys[k]
  internals : ∀ k < m.free, t.keys.length ≤ k → m.arena.IsInternal k
  oneParent : ∀ c j k, j < m.free → t.keys.length ≤ j → k < m.free → t.keys.length ≤ k →
    m.arena.hasChild j c → m.arena.hasChild k c → j = k
  weight : (m.queue.map (fun c => (m.arena.at c).weight.toNat)).sum = t.total
  rest : ∀ k, m.free ≤ k → m.arena.at k = NodeRec.blank

theorem startMerging_leaf (t : FreqTable) {k : Nat} (h : k < t.keys.length) :
    (startMerging t).arena.at k = leafOf t t.keys[k] := by
  have hn := t.length_keys_le
  have := NodeArena.empty.at_putAll (k := 0) (i := k) (t.keys.map (leafOf t)) (by simpa using h)
    (by simp only [Config.nsym] at hn; omega)
  simpa [startMerging] using this

theorem startMerging_rest (t : FreqTable) {k : Nat} (h : t.keys.length ≤ k) :
    (startMerging t).arena.at k = NodeRec.blank := by
  rw [startMerging, NodeArena.at_putAll_of_le _ _ (by simpa using h), NodeArena.at_empty]

/-- The first nodes of an arena weigh what the keys count, when they are the keys' leaves. -/
theorem sum_leaf_weights {t : FreqTable} {a : NodeArena} (h : ∀ k (h : k < t.keys.length), a.at k = leafOf t t.keys[k]) :
    ((List.range t.keys.length).map (fun k => (a.at k).weight.toNat)).sum = t.total := by
  rw [← t.sum_keys]
  congr 1
  apply List.ext_getElem
  · simp
  · intro k hk _
    simp [h k (by simpa using hk), leafOf]

/-- The merge loop starts with the keys' leaves alone (rule R123). -/
theorem startMerging_inv {t : FreqTable} (h : 0 < t.keys.length) : (startMerging t).Inv t where
  count := by simp [startMerging]; omega
  leavesMade := Nat.le_refl _
  nodup := List.nodup_range
  queue c := by
    simp only [startMerging, List.mem_range]
    exact ⟨fun hc => ⟨hc, fun j hj hn => absurd hj (Nat.not_lt.mpr hn)⟩, fun hc => hc.1⟩
  newest := by simpa [startMerging] using h
  leaves _ hk := startMerging_leaf t hk
  internals _ hk hn := absurd hk (Nat.not_lt.mpr hn)
  oneParent _ _ _ hj hn := absurd hj (Nat.not_lt.mpr hn)
  weight := sum_leaf_weights fun _ hk => startMerging_leaf t hk
  rest _ hk := startMerging_rest t hk

/-! ## One merge -/

theorem NodeArena.hasChild_put_of_ne (t : NodeArena) {j k : Nat} (r : NodeRec) (c : Nat) (h : j ≠ k) :
    (t.put k r).hasChild j c ↔ t.hasChild j c := by
  simp only [NodeArena.hasChild, NodeArena.at_put_of_ne t r h]

theorem NodeArena.hasChild_put_internalOf (t : NodeArena) {k a b : Nat} (c : Nat) (hk : k < 511) (ha : a < k) (hb : b < k) :
    (t.put k (internalOf t a b)).hasChild k c ↔ a = c ∨ b = c := by
  have ha' : a % 512 = a := Nat.mod_eq_of_lt (by omega)
  have hb' : b % 512 = b := Nat.mod_eq_of_lt (by omega)
  simp [NodeArena.hasChild, NodeArena.at_put_self t _ hk, internalOf, ha', hb']

/-- A later record leaves an internal node as it is, since its children lie below it. -/
theorem NodeArena.IsInternal.put {t : NodeArena} {j k : Nat} (r : NodeRec) (h : t.IsInternal j) (hj : j < k) :
    (t.put k r).IsInternal j := by
  obtain ⟨hleaf, hsym, hl, hr, hne, hw⟩ := h
  have hat : ∀ i ≤ j, (t.put k r).at i = t.at i := fun i hi => t.at_put_of_ne r (by omega)
  constructor <;> rw [hat j (Nat.le_refl j)]
  case weight => rw [hat _ hl.le, hat _ hr.le]; exact hw
  all_goals assumption

/-- The node of a merge is internal when the weights of its children do not overflow (rules R125, R127). -/
theorem NodeArena.isInternal_put_internalOf (t : NodeArena) {k a b : Nat} (hk : k < 511) (ha : a < k) (hb : b < k)
    (hab : a ≠ b) (hw : (t.at a).weight.toNat + (t.at b).weight.toNat < 65536) :
    (t.put k (internalOf t a b)).IsInternal k := by
  have ha' : a % 512 = a := Nat.mod_eq_of_lt (by omega)
  have hb' : b % 512 = b := Nat.mod_eq_of_lt (by omega)
  constructor <;> rw [t.at_put_self _ hk]
  case notLeaf => rfl
  case noSymbol => rfl
  case left => simpa [internalOf, ha'] using ha
  case right => simpa [internalOf, hb'] using hb
  case differ => simpa [internalOf, ← BitVec.toNat_inj, ha', hb'] using hab
  case weight =>
    simp only [internalOf, BitVec.toNat_ofNat, ha', hb', t.at_put_of_ne _ ha.ne, t.at_put_of_ne _ hb.ne, BitVec.toNat_add]
    exact Nat.mod_eq_of_lt hw

theorem Merging.Inv.mem_queue_lt {t : FreqTable} {m : Merging} (hi : m.Inv t) {c : Nat} (h : c ∈ m.queue) : c < m.free :=
  ((hi.queue c).mp h).1

/-- A node of the collection has no parent yet. -/
theorem Merging.Inv.noParent {t : FreqTable} {m : Merging} (hi : m.Inv t) {c k : Nat} (h : c ∈ m.queue) (hk : k < m.free)
    (hn : t.keys.length ≤ k) : ¬ m.arena.hasChild k c :=
  ((hi.queue c).mp h).2 k hk hn

/-- An internal node's child lies below it. -/
theorem NodeArena.IsInternal.child_lt {t : NodeArena} {k c : Nat} (h : t.IsInternal k) (hc : t.hasChild k c) : c < k := by
  obtain rfl | rfl := hc
  · exact h.left
  · exact h.right

/-- The working storage after the merge of two nodes of the collection (rules R124, R125). -/
def Merging.merged (m : Merging) (a b : Nat) : Merging :=
  { arena := m.arena.put m.free (internalOf m.arena a b),
    queue := (m.queue.erase a).erase b ++ [m.free], free := m.free + 1 }

theorem Merging.merged_at_of_ne (m : Merging) (a b : Nat) {k : Nat} (h : k ≠ m.free) :
    (m.merged a b).arena.at k = m.arena.at k := m.arena.at_put_of_ne _ h

section
variable {t : FreqTable} {m : Merging} {a b : Nat} (hi : m.Inv t) (ha : a ∈ m.queue) (hb : b ∈ m.queue) (hab : a ≠ b)
include hi

theorem Merging.Inv.mem_rest {c : Nat} : c ∈ (m.queue.erase a).erase b ↔ c ≠ b ∧ c ≠ a ∧ c ∈ m.queue := by
  rw [(hi.nodup.erase a).mem_erase_iff, hi.nodup.mem_erase_iff]

include ha hb hab

/-- The collection is the two nodes taken from it and the others. -/
theorem Merging.Inv.queue_perm : m.queue.Perm (a :: b :: (m.queue.erase a).erase b) :=
  (List.perm_cons_erase ha).trans ((List.perm_cons_erase (hi.nodup.mem_erase_iff.mpr ⟨hab.symm, hb⟩)).cons a)

/-- While two nodes are left, there is a free slot (rule R9). -/
theorem Merging.Inv.free_lt : m.free < 511 := by
  have hlen := (hi.queue_perm ha hb hab).length_eq
  have hcount := hi.count
  have hn := t.length_keys_le
  simp only [List.length_cons, Config.nsym] at hlen hn
  omega

theorem Merging.Inv.hasChild_merged_free (c : Nat) : (m.merged a b).arena.hasChild m.free c ↔ a = c ∨ b = c :=
  m.arena.hasChild_put_internalOf c (hi.free_lt ha hb hab) (hi.mem_queue_lt ha) (hi.mem_queue_lt hb)

theorem Merging.Inv.hasChild_merged {k : Nat} (c : Nat) (hk : k < m.free + 1) :
    (m.merged a b).arena.hasChild k c ↔ (k < m.free ∧ m.arena.hasChild k c) ∨ (k = m.free ∧ (a = c ∨ b = c)) := by
  rcases Nat.lt_succ_iff_lt_or_eq.mp hk with h | rfl
  · simp [Merging.merged, m.arena.hasChild_put_of_ne _ c h.ne, h, h.ne]
  · simp [hi.hasChild_merged_free ha hb hab]

/-- The weights of the collection sum to the two taken and those of the others. -/
theorem Merging.Inv.weight_split : (m.arena.at a).weight.toNat + ((m.arena.at b).weight.toNat +
    (((m.queue.erase a).erase b).map (fun c => (m.arena.at c).weight.toNat)).sum) = t.total := by
  rw [← hi.weight, ((hi.queue_perm ha hb hab).map _).sum_eq]
  rfl

/-- The node of the merge is internal: its weight does not wrap (rule R127). -/
theorem Merging.Inv.isInternal_merged_free (ht : t.total ≤ Config.inMax) : (m.merged a b).arena.IsInternal m.free := by
  have hsplit := hi.weight_split ha hb hab
  exact m.arena.isInternal_put_internalOf (hi.free_lt ha hb hab) (hi.mem_queue_lt ha) (hi.mem_queue_lt hb) hab
    (by simp only [Config.inMax] at ht; omega)

theorem Merging.Inv.merged_queue (c : Nat) :
    c ∈ (m.merged a b).queue ↔ (m.merged a b).arena.inQueue t.keys.length (m.merged a b).free c := by
  have hchild {k : Nat} (hk : k < m.free + 1) := hi.hasChild_merged ha hb hab c hk
  have hmem : c ∈ (m.merged a b).queue ↔ (c ≠ b ∧ c ≠ a ∧ c ∈ m.queue) ∨ c = m.free := by
    simp [Merging.merged, hi.mem_rest]
  have hlo := hi.leavesMade
  rw [hmem]
  constructor
  · rintro (⟨hcb, hca, hc⟩ | rfl)
    · refine ⟨Nat.lt_succ_of_lt (hi.mem_queue_lt hc), fun k hk hn hx => ?_⟩
      obtain ⟨hlt, hx⟩ | ⟨-, rfl | rfl⟩ := (hchild hk).mp hx
      · exact hi.noParent hc hlt hn hx
      · exact hca rfl
      · exact hcb rfl
    · refine ⟨Nat.lt_succ_self _, fun k hk hn hx => ?_⟩
      obtain ⟨hlt, hx⟩ | ⟨-, hx⟩ := (hchild hk).mp hx
      · exact absurd ((hi.internals k hlt hn).child_lt hx) (Nat.lt_asymm hlt)
      · have hal := hi.mem_queue_lt ha
        have hbl := hi.mem_queue_lt hb
        omega
  · rintro ⟨hlt, hnone⟩
    rcases Nat.lt_succ_iff_lt_or_eq.mp hlt with hlt | rfl
    · have hfree := hnone m.free (Nat.lt_succ_self _) hlo
      rw [hi.hasChild_merged_free ha hb hab, not_or] at hfree
      refine .inl ⟨Ne.symm hfree.2, Ne.symm hfree.1, (hi.queue c).mpr ⟨hlt, fun k hk hn hx => ?_⟩⟩
      exact hnone k (Nat.lt_succ_of_lt hk) hn ((hchild (Nat.lt_succ_of_lt hk)).mpr (.inl ⟨hk, hx⟩))
    · exact .inr rfl

theorem Merging.Inv.merged_oneParent (c j k : Nat) (hj : j < (m.merged a b).free) (hnj : t.keys.length ≤ j)
    (hk : k < (m.merged a b).free) (hnk : t.keys.length ≤ k) (hxj : (m.merged a b).arena.hasChild j c)
    (hxk : (m.merged a b).arena.hasChild k c) : j = k := by
  have hnone : ∀ i < m.free, t.keys.length ≤ i → (a = c ∨ b = c) → ¬ m.arena.hasChild i c := by
    rintro i hi' hn (rfl | rfl)
    · exact hi.noParent ha hi' hn
    · exact hi.noParent hb hi' hn
  obtain ⟨hj, hoj⟩ | ⟨rfl, hab'⟩ := (hi.hasChild_merged ha hb hab c hj).mp hxj
  · obtain ⟨hk, hok⟩ | ⟨rfl, hab'⟩ := (hi.hasChild_merged ha hb hab c hk).mp hxk
    · exact hi.oneParent c j k hj hnj hk hnk hoj hok
    · exact absurd hoj (hnone j hj hnj hab')
  · obtain ⟨hk, hok⟩ | ⟨rfl, -⟩ := (hi.hasChild_merged ha hb hab c hk).mp hxk
    · exact absurd hok (hnone k hk hnk hab')
    · rfl

theorem Merging.Inv.merged_weight (ht : t.total ≤ Config.inMax) :
    ((m.merged a b).queue.map (fun c => ((m.merged a b).arena.at c).weight.toNat)).sum = t.total := by
  have hfree := hi.free_lt ha hb hab
  have hnew : ((m.merged a b).arena.at m.free).weight.toNat =
      (m.arena.at a).weight.toNat + (m.arena.at b).weight.toNat := by
    have hsplit := hi.weight_split ha hb hab
    rw [Merging.merged, m.arena.at_put_self _ hfree]
    exact Nat.mod_eq_of_lt (by simp only [Config.inMax] at ht; omega)
  have hold : ((m.queue.erase a).erase b).map (fun c => ((m.merged a b).arena.at c).weight.toNat) =
      ((m.queue.erase a).erase b).map (fun c => (m.arena.at c).weight.toNat) := by
    refine List.map_congr_left fun c hc => ?_
    rw [m.merged_at_of_ne a b (hi.mem_queue_lt (hi.mem_rest.mp hc).2.2).ne]
  rw [← hi.weight_split ha hb hab, show (m.merged a b).queue = (m.queue.erase a).erase b ++ [m.free] from rfl,
    List.map_append, List.sum_append, hold, List.map_singleton, List.sum_singleton, hnew]
  omega

/-- A merge of two different nodes of the collection keeps the invariant of the loop. -/
theorem Merging.Inv.merged (ht : t.total ≤ Config.inMax) : (m.merged a b).Inv t where
  count := by
    have hlen := (hi.queue_perm ha hb hab).length_eq
    have hcount := hi.count
    simp only [Merging.merged, List.length_cons, List.length_append, List.length_nil] at hlen ⊢
    omega
  leavesMade := Nat.le_succ_of_le hi.leavesMade
  nodup := by
    refine List.nodup_append.mpr ⟨(hi.nodup.erase a).erase b, List.nodup_singleton _, fun c hc d hd => ?_⟩
    rw [List.mem_singleton.mp hd]
    exact (hi.mem_queue_lt (hi.mem_rest.mp hc).2.2).ne
  queue := hi.merged_queue ha hb hab
  newest := by simp [Merging.merged]
  leaves k hk := by rw [m.merged_at_of_ne a b (hk.trans_le hi.leavesMade).ne, hi.leaves k hk]
  internals k hk hn := by
    rcases Nat.lt_succ_iff_lt_or_eq.mp hk with hk | rfl
    · exact (hi.internals k hk hn).put _ hk
    · exact hi.isInternal_merged_free ha hb hab ht
  oneParent := hi.merged_oneParent ha hb hab
  weight := hi.merged_weight ha hb hab ht
  rest k hk := by
    have hk' : m.free + 1 ≤ k := hk
    rw [m.merged_at_of_ne a b (by omega), hi.rest k (by omega)]

end

theorem mergeOnce_inv {t : FreqTable} {m m' : Merging} (hi : m.Inv t) (ht : t.total ≤ Config.inMax)
    (h : mergeOnce m = some m') : m'.Inv t ∧ m'.queue.length + 1 = m.queue.length := by
  obtain ⟨a, b, ha, hb, -, -, rfl⟩ := mergeOnce_eq_some h
  obtain ⟨hba, hb⟩ := hi.nodup.mem_erase_iff.mp hb
  have hi' := hi.merged ha hb hba.symm ht
  have hcount := hi.count
  have hcount' : (m.merged a b).queue.length + (m.free + 1) = 2 * t.keys.length := hi'.count
  have hlen : (m.merged a b).queue.length + 1 = m.queue.length := by omega
  exact ⟨hi', hlen⟩

/-- With enough fuel the loop ends with the root alone in the collection (rules R120, R126). -/
theorem mergeAll_inv {t : FreqTable} (ht : t.total ≤ Config.inMax) (fuel : Nat) {m : Merging} (hi : m.Inv t)
    (hfuel : m.queue.length ≤ fuel + 1) : (mergeAll fuel m).Inv t ∧ (mergeAll fuel m).queue.length ≤ 1 := by
  induction fuel generalizing m with
  | zero => exact ⟨hi, hfuel⟩
  | succ fuel ih =>
    rw [mergeAll]
    cases h : mergeOnce m with
    | none => exact ⟨hi, mergeOnce_eq_none h⟩
    | some m' =>
      obtain ⟨hi', hlen⟩ := mergeOnce_inv hi ht h
      exact ih hi' (by omega)

/-- The end of the merge loop over the keys of a frequency table: the root is the last of 2n - 1 nodes. -/
theorem mergeAll_startMerging {t : FreqTable} (ht : t.total ≤ Config.inMax) (hkeys : 0 < t.keys.length) :
    ∃ m : Merging, m.arena = builtArena t ∧ m.Inv t ∧ m.free = 2 * t.keys.length - 1 ∧
      m.queue = [2 * t.keys.length - 2] := by
  obtain ⟨hi, hlen⟩ := mergeAll_inv ht t.keys.length (startMerging_inv hkeys) (by simp [startMerging])
  refine ⟨_, rfl, hi, ?_⟩
  have hpos := List.length_pos_of_mem hi.newest
  have hcount := hi.count
  obtain ⟨c, hc⟩ := List.length_eq_one_iff.mp (Nat.le_antisymm hlen hpos)
  have hnewest := hi.newest
  rw [hc, List.mem_singleton] at hnewest
  have hfree : (mergeAll t.keys.length (startMerging t)).free = 2 * t.keys.length - 1 := by omega
  refine ⟨hfree, ?_⟩
  rw [hc, ← hnewest, hfree]
  rfl

/-- The arena that BUILD_TREE leaves is a tree over the keys (rules R41, R120 to R128). -/
theorem builtArena_isTree {t : FreqTable} (ht : t.total ≤ Config.inMax) (hkeys : 0 < t.keys.length) :
    (builtArena t).IsTree t.keys.length := by
  obtain ⟨m, harena, hi, hfree, hqueue⟩ := mergeAll_startMerging ht hkeys
  rw [← harena]
  constructor
  case size => exact ⟨hkeys, t.length_keys_le⟩
  case leaves =>
    intro k hk
    have hpos := FreqTable.at_ne_zero_of_mem_keys (List.getElem_mem hk)
    rw [hi.leaves k hk]
    exact ⟨rfl, rfl, rfl, Nat.pos_of_ne_zero fun h => hpos (BitVec.eq_of_toNat_eq h)⟩
  case ascending =>
    intro k hk j hj
    rw [hi.leaves k hk, hi.leaves j (hj.trans hk)]
    exact List.pairwise_iff_getElem.mp t.keys_pairwise j k _ _ hj
  case internals =>
    intro k hk hn
    obtain ⟨hleaf, hsym, hl, hr, hne, hw⟩ := hi.internals k (hfree ▸ hk) hn
    exact ⟨hleaf, hsym, hl, hr, hne, hw⟩
  case oneParent =>
    intro c hc
    have hnot : c ∉ m.queue := by rw [hqueue, List.mem_singleton]; omega
    rw [hi.queue] at hnot
    simp only [NodeArena.inQueue, hfree, not_and, not_forall, not_not] at hnot
    obtain ⟨k, hk, hn, hx⟩ := hnot (by omega)
    exact ⟨k, hk, ⟨hn, hx⟩, fun j hj hx' => hi.oneParent c j k (hfree ▸ hj) hx'.1 (hfree ▸ hk) hn hx'.2 hx⟩
  case rootWeight =>
    have hroot := hi.weight
    rw [hqueue, List.map_singleton, List.sum_singleton] at hroot
    rw [hroot, sum_leaf_weights hi.leaves]
  case rest => exact fun k _ hk => hi.rest k (hfree ▸ hk)

/-! ## Paths in a tree -/

theorem NodeArena.IsTree.isInternal {t : NodeArena} {n k : Nat} (h : t.IsTree n) (hk : k < 2 * n - 1)
    (inner : (t.at k).leaf = false) : n ≤ k ∧ t.IsInternal k := by
  have hn : n ≤ k := by
    by_contra hlt
    obtain ⟨hleaf, -⟩ := h.leaves k (Nat.lt_of_not_le hlt)
    simp [hleaf] at inner
  obtain ⟨hleaf, hsym, hl, hr, hne, hw⟩ := h.internals k hk hn
  exact ⟨hn, hleaf, hsym, hl, hr, hne, hw⟩

theorem NodeArena.hasChild_child (t : NodeArena) (k : Nat) (b : Bool) : t.hasChild k ((t.at k).child b).toNat := by
  cases b
  · exact .inl rfl
  · exact .inr rfl

theorem NodeArena.follow_append (t : NodeArena) (k : NodeIdx) (p q : List Bool) :
    t.follow k (p ++ q) = (t.follow k p).bind fun j => t.follow j q := by
  induction p generalizing k with
  | nil => rfl
  | cons b p ih =>
    simp only [List.cons_append, NodeArena.follow]
    split
    · rfl
    · exact ih _

/-- A path to an internal node goes on to either child. -/
theorem NodeArena.follow_child {t : NodeArena} {root k : NodeIdx} {p : List Bool} (h : t.follow root p = some k)
    (inner : (t.at k.toNat).leaf = false) (b : Bool) : t.follow root (p ++ [b]) = some ((t.at k.toNat).child b) := by
  simp [NodeArena.follow_append, h, NodeArena.follow, inner]

/-- No leaf's path is the beginning of another leaf's (rule R45). -/
theorem State.leafPath_prefix {s : State} {x y : Symbol} {p q : List Bool} (hp : s.leafPath x p) (hq : s.leafPath y q)
    (h : p <+: q) : x = y := by
  obtain ⟨r, rfl⟩ := h
  obtain ⟨j, hj, hleaf, rfl⟩ := hp
  obtain ⟨k, hk, -, rfl⟩ := hq
  rw [NodeArena.follow_append, hj, Option.bind_some] at hk
  cases r with
  | nil => rw [Option.some.inj hk]
  | cons b r => simp [NodeArena.follow, hleaf] at hk

/-- A path goes down from internal node to internal node, each at a lower index, and there are none below index n. -/
theorem NodeArena.IsTree.length_follow {t : NodeArena} {n : Nat} (h : t.IsTree n) {k j : NodeIdx} {p : List Bool}
    (hk : k.toNat < 2 * n - 1) (hp : t.follow k p = some j) : p.length ≤ k.toNat + 1 - n := by
  induction p generalizing k with
  | nil => exact Nat.zero_le _
  | cons b p ih =>
    cases hleaf : (t.at k.toNat).leaf with
    | true => simp [NodeArena.follow, hleaf] at hp
    | false =>
      obtain ⟨hn, hint⟩ := h.isInternal hk hleaf
      have hlt := hint.child_lt (t.hasChild_child k.toNat b)
      have := ih (hlt.trans hk) (by simpa [NodeArena.follow, hleaf] using hp)
      rw [List.length_cons]
      omega

theorem State.HoldsTree.root_toNat {s : State} {n : Nat} (h : s.HoldsTree n) : s.root.toNat = 2 * n - 2 := by
  obtain ⟨-, hn⟩ := h.tree.size
  rw [h.root, BitVec.toNat_ofNat]
  exact Nat.mod_eq_of_lt (by omega)

theorem State.HoldsTree.root_lt {s : State} {n : Nat} (h : s.HoldsTree n) : s.root.toNat < 2 * n - 1 := by
  obtain ⟨hn, -⟩ := h.tree.size
  have := h.root_toNat
  omega

/-- A leaf's path is at most n - 1 bits long (rules R9, R146). -/
theorem State.HoldsTree.length_leafPath {s : State} {n : Nat} (h : s.HoldsTree n) {x : Symbol} {p : List Bool}
    (hp : s.leafPath x p) : p.length ≤ n - 1 := by
  obtain ⟨k, hk, -⟩ := hp
  have := h.tree.length_follow h.root_lt hk
  have := h.root_toNat
  have := h.tree.size
  omega

/-- A leaf's path is not empty when the root is internal. -/
theorem State.length_pos_leafPath {s : State} {x : Symbol} {p : List Bool} (hp : s.leafPath x p)
    (inner : (s.node.at s.root.toNat).leaf = false) : 1 ≤ p.length := by
  obtain ⟨k, hk, hleaf, -⟩ := hp
  cases p with
  | nil =>
    cases hk
    simp [hleaf] at inner
  | cons b p => exact Nat.le_add_left ..

/-! ## Code tables made of bit-strings -/

/-- Every entry of the table is absent or is a bit-string that stands in a relation to its symbol. -/
def CodeTable.Records (c : CodeTable) (P : Symbol → List Bool → Prop) : Prop :=
  ∀ x, c.at x = CodeEntry.absent ∨ ∃ p, P x p ∧ c.at x = CodeEntry.ofString p

theorem CodeTable.records_empty (P : Symbol → List Bool → Prop) : CodeTable.empty.Records P :=
  fun x => .inl (CodeTable.at_empty x)

theorem CodeTable.Records.put {c : CodeTable} {P : Symbol → List Bool → Prop} (h : c.Records P) {x : Symbol} {p : List Bool}
    (hp : P x p) : (c.put x (CodeEntry.ofString p)).Records P := by
  intro y
  by_cases hy : y = x
  · subst hy
    exact .inr ⟨p, hp, c.at_put_self y _⟩
  · rw [c.at_put_of_ne _ hy]
    exact h y

theorem CodeEntry.legal_absent : CodeEntry.absent.Legal := ⟨fun _ => rfl, fun h => (nomatch h)⟩

theorem CodeEntry.legal_ofString {p : List Bool} (hpos : 1 ≤ p.length) (hle : p.length ≤ Config.codeMax) :
    (CodeEntry.ofString p).Legal := by
  have hlen : (CodeEntry.ofString p).len.toNat = p.length := by
    simp only [CodeEntry.ofString, BitVec.toNat_ofNat, Config.codeMax] at *
    omega
  refine ⟨fun h => (nomatch h), fun _ => ⟨hlen.symm ▸ hpos, fun j hj => ?_⟩⟩
  rw [hlen] at hj
  by_cases h255 : j < 255
  · rw [CodeEntry.ofString, getLsbD_packCode p j h255, List.getD_eq_default _ _ hj]
  · exact BitVec.getLsbD_of_ge _ _ (Nat.le_of_not_lt h255)

/-- A table of bit-strings of legal length, of which none begins another symbol's, meets rules R44 and R45. -/
theorem CodeTable.Records.codesInv {s : State} {P : Symbol → List Bool → Prop} (h : s.code.Records P)
    (len : ∀ x p, P x p → 1 ≤ p.length ∧ p.length ≤ Config.codeMax)
    (pre : ∀ x y p q, P x p → P y q → p <+: q → x = y) :
    s.CodesInv := by
  constructor
  · intro x
    obtain hx | ⟨p, hp, hx⟩ := h x
    · rw [hx]; exact CodeEntry.legal_absent
    · obtain ⟨hpos, hle⟩ := len x p hp
      rw [hx]; exact CodeEntry.legal_ofString hpos hle
  · intro x y hne hx hy hxy
    have present : ∀ z, (s.code.at z).present = true → ∃ p, P z p ∧ (s.code.at z).string = p := by
      intro z hz
      obtain h' | ⟨p, hp, h'⟩ := h z
      · simp [h', CodeEntry.absent] at hz
      · exact ⟨p, hp, by rw [h', CodeEntry.string_ofString p (len z p hp).2]⟩
    obtain ⟨p, hp, hpx⟩ := present x hx
    obtain ⟨q, hq, hqy⟩ := present y hy
    exact hne (pre x y p q hp hq (hpx ▸ hqy ▸ hxy))

/-! ## The walk of BUILD_CODES -/

/-- The walk records paths to leaves, and nothing else (rules R140, R141). -/
theorem codeWalk_records {s : State} {cnt fuel : Nat} {stack : List (NodeIdx × List Bool)} {codes codes' : CodeTable}
    (hstack : ∀ e ∈ stack, s.node.follow s.root e.2 = some e.1) (hcodes : codes.Records s.leafPath)
    (h : codeWalk s.node cnt fuel stack codes = .table codes') : codes'.Records s.leafPath := by
  induction fuel generalizing stack codes with
  | zero =>
    cases stack with
    | nil => cases h; exact hcodes
    | cons e stack => cases h
  | succ fuel ih =>
    cases stack with
    | nil => cases h; exact hcodes
    | cons e stack =>
      obtain ⟨k, p⟩ := e
      obtain ⟨hk, hstack⟩ := List.forall_mem_cons.mp hstack
      simp only [codeWalk] at h
      split at h
      · rename_i hleaf
        exact ih hstack (hcodes.put ⟨k, hk, hleaf, rfl⟩) h
      · split at h
        · cases h
        · have inner := Bool.eq_false_of_not_eq_true ‹¬ (s.node.at k.toNat).leaf = true›
          refine ih (List.forall_mem_cons.mpr ⟨?_, List.forall_mem_cons.mpr ⟨?_, hstack⟩⟩) hcodes h
          · exact NodeArena.follow_child hk inner false
          · exact NodeArena.follow_child hk inner true

/-- What bounds the walk over a tree of n leaves: the nodes seen and the nodes on the stack are all different, and each but the root
has been reached from its parent, which has been seen. -/
structure NodeArena.WalkInv (t : NodeArena) (n : Nat) (seen stack : List Nat) : Prop where
  nodup : (stack ++ seen).Nodup
  valid : ∀ c ∈ stack ++ seen, c < 2 * n - 1
  parent : ∀ c ∈ stack ++ seen, c = 2 * n - 2 ∨ ∃ k ∈ seen, n ≤ k ∧ t.hasChild k c

theorem NodeArena.walkInv_root (t : NodeArena) {n : Nat} (hn : 1 ≤ n) : t.WalkInv n [] [2 * n - 2] where
  nodup := List.nodup_singleton _
  valid c hc := by
    have := List.mem_singleton.mp hc
    omega
  parent c hc := .inl (List.mem_singleton.mp hc)

/-- There are no more nodes to see than the tree has. -/
theorem NodeArena.WalkInv.length_le {t : NodeArena} {n : Nat} {seen stack : List Nat} (h : t.WalkInv n seen stack) :
    stack.length + seen.length ≤ 2 * n - 1 := by
  have := (h.nodup.subperm fun c hc => List.mem_range.mpr (h.valid c hc)).length_le
  simpa using this

theorem NodeArena.WalkInv.visit {t : NodeArena} {n k : Nat} {seen stack : List Nat} (h : t.WalkInv n seen (k :: stack)) :
    t.WalkInv n (k :: seen) stack := by
  have hperm : (stack ++ k :: seen).Perm (k :: stack ++ seen) := List.perm_middle
  refine ⟨hperm.nodup_iff.mpr h.nodup, fun c hc => h.valid c (hperm.mem_iff.mp hc), fun c hc => ?_⟩
  obtain hroot | ⟨j, hj, hx⟩ := h.parent c (hperm.mem_iff.mp hc)
  · exact .inl hroot
  · exact .inr ⟨j, List.mem_cons_of_mem _ hj, hx⟩

/-- A child of the node on top of the stack has not been reached: it would have a second parent (rule R41 (d)). -/
theorem NodeArena.WalkInv.child_notMem {t : NodeArena} {n k c : Nat} {seen stack : List Nat}
    (h : t.WalkInv n seen (k :: stack)) (tree : t.IsTree n) (inner : (t.at k).leaf = false) (hc : t.hasChild k c) :
    c ∉ stack ++ k :: seen := by
  intro hmem
  have hk := h.valid k List.mem_cons_self
  obtain ⟨hn, hint⟩ := tree.isInternal hk inner
  have hlt := hint.child_lt hc
  obtain rfl | ⟨j, hj, hnj, hcj⟩ := h.parent c (List.perm_middle.mem_iff.mp hmem)
  · omega
  · have hj' := h.valid j (List.mem_append_right _ hj)
    obtain ⟨i, -, -, unique⟩ := tree.oneParent c (by omega)
    have hkj : k = j := (unique k hk ⟨hn, hc⟩).trans (unique j hj' ⟨hnj, hcj⟩).symm
    exact (List.nodup_cons.mp h.nodup).1 (List.mem_append_right _ (hkj ▸ hj))

theorem NodeArena.WalkInv.descend {t : NodeArena} {n k : Nat} {seen stack : List Nat} (h : t.WalkInv n seen (k :: stack))
    (tree : t.IsTree n) (inner : (t.at k).leaf = false) :
    t.WalkInv n (k :: seen) ((t.at k).left.toNat :: (t.at k).right.toNat :: stack) := by
  have hk := h.valid k List.mem_cons_self
  obtain ⟨hn, hint⟩ := tree.isInternal hk inner
  have hl := h.child_notMem tree inner (.inl rfl)
  have hr := h.child_notMem tree inner (.inr rfl)
  have hne : (t.at k).left.toNat ≠ (t.at k).right.toNat := fun e => hint.differ (BitVec.eq_of_toNat_eq e)
  obtain ⟨nodup, valid, parent⟩ := h.visit
  constructor
  · exact List.nodup_cons.mpr ⟨fun hmem => (List.mem_cons.mp hmem).elim hne hl, List.nodup_cons.mpr ⟨hr, nodup⟩⟩
  · exact List.forall_mem_cons.mpr ⟨hint.left.trans hk, List.forall_mem_cons.mpr ⟨hint.right.trans hk, valid⟩⟩
  · exact List.forall_mem_cons.mpr ⟨.inr ⟨k, List.mem_cons_self, hn, .inl rfl⟩,
      List.forall_mem_cons.mpr ⟨.inr ⟨k, List.mem_cons_self, hn, .inr rfl⟩, parent⟩⟩

/-- Over a tree the walk ends within one visit of each node (rule R244). -/
theorem codeWalk_ne_unbounded {t : NodeArena} {n cnt fuel : Nat} (tree : t.IsTree n) {seen : List Nat}
    {stack : List (NodeIdx × List Bool)} {codes : CodeTable} (h : t.WalkInv n seen (stack.map (fun e => e.1.toNat)))
    (hfuel : 2 * n - 1 ≤ fuel + seen.length) : codeWalk t cnt fuel stack codes ≠ .unbounded := by
  induction fuel generalizing stack codes seen with
  | zero =>
    cases stack with
    | nil => simp [codeWalk]
    | cons e stack =>
      have := h.length_le
      simp only [List.map_cons, List.length_cons] at this
      omega
  | succ fuel ih =>
    cases stack with
    | nil => simp [codeWalk]
    | cons e stack =>
      obtain ⟨k, p⟩ := e
      have hfuel' : 2 * n - 1 ≤ fuel + (k.toNat :: seen).length := by rw [List.length_cons]; omega
      simp only [codeWalk]
      split
      · exact ih h.visit hfuel'
      · split
        · exact WalkEnd.noConfusion
        · exact ih (h.descend tree (Bool.eq_false_of_not_eq_true ‹_›)) hfuel'

/-! ## The invariant of a run -/

theorem State.TreeInv.of_same {s t : State} (h : s.TreeInv) (node : t.node = s.node) (cnt : t.nodeCnt = s.nodeCnt)
    (root : t.root = s.root) : t.TreeInv := by
  obtain hno | ⟨n, htree⟩ := h
  · exact .inl ⟨cnt.trans hno.cnt, root.trans hno.root, node.trans hno.node⟩
  · exact .inr ⟨n, node ▸ htree.tree, cnt.trans htree.cnt, root.trans htree.root⟩

theorem State.TreeInv.raise {s : State} (e : ErrClass) (info : Word) (out : OutputObject) (h : s.TreeInv) :
    (s.raise e info out).TreeInv := by
  cases out with
  | tree => exact .inl ⟨rfl, rfl, rfl⟩
  | _ => exact h.of_same rfl rfl rfl

/-- BUILD_TREE needs the counts bounded, or a weight could wrap (rule R127). -/
theorem Change.keeps_treeInv {s t : State} (c : Change s t) (bounded : s.FreqBounded) (h : s.TreeInv) : t.TreeInv := by
  cases c with
  | reset => exact .inl ⟨rfl, rfl, rfl⟩
  | clear => exact .inl ⟨rfl, rfl, rfl⟩
  | raise e info out => exact h.raise e info out
  | buildTree someKey => exact .inr ⟨s.freq.keys.length, builtArena_isTree bounded someKey, rfl, rfl⟩
  | _ => exact h.of_same rfl rfl rfl

theorem State.codesInv_of_empty {s : State} (h : s.code = CodeTable.empty) : s.CodesInv :=
  CodeTable.Records.codesInv (h ▸ CodeTable.records_empty fun _ _ => False) (fun _ _ => False.elim) (fun _ _ _ _ => False.elim)

theorem State.CodesInv.raise {s : State} (e : ErrClass) (info : Word) (out : OutputObject) (h : s.CodesInv) :
    (s.raise e info out).CodesInv := by
  cases out with
  | codes => exact State.codesInv_of_empty rfl
  | _ => exact h

/-- The one code of a tree of one leaf (rule R143). -/
theorem State.codesInv_of_oneCode {s : State} {x : Symbol} (h : s.code = CodeTable.empty.put x (CodeEntry.ofString [false])) :
    s.CodesInv := by
  refine CodeTable.Records.codesInv (P := fun y p => y = x ∧ p = [false]) ?_ ?_ ?_
  · exact h ▸ (CodeTable.records_empty _).put ⟨rfl, rfl⟩
  · rintro y p ⟨-, rfl⟩
    decide
  · rintro y z p q ⟨hy, -⟩ ⟨hz, -⟩ -
    exact hy.trans hz.symm

/-- The table that the walk leaves over a tree with an internal root (rules R44, R45, R145). -/
theorem State.codesInv_of_walk {s t : State} {n : Nat} (tree : s.HoldsTree n)
    (inner : (s.node.at s.root.toNat).leaf = false)
    (walk : codeWalk s.node s.nodeCnt.toNat Config.nodeMax [(s.root, [])] CodeTable.empty = .table t.code) : t.CodesInv := by
  have hrec : t.code.Records s.leafPath := by
    refine codeWalk_records ?_ (CodeTable.records_empty _) walk
    simp [NodeArena.follow]
  refine hrec.codesInv (fun x p hp => ⟨State.length_pos_leafPath hp inner, ?_⟩) (fun _ _ _ _ => State.leafPath_prefix)
  obtain ⟨-, hn⟩ := tree.tree.size
  exact (tree.length_leafPath hp).trans (Nat.sub_le_sub_right hn 1)

theorem Change.keeps_codesInv {s t : State} (c : Change s t) (tree : s.TreeInv) (h : s.CodesInv) : t.CodesInv := by
  cases c with
  | reset => exact State.codesInv_of_empty rfl
  | clear => exact State.codesInv_of_empty rfl
  | raise e info out => exact h.raise e info out
  | oneCode x => exact State.codesInv_of_oneCode rfl
  | buildCodes codes held inner walk =>
    obtain hno | ⟨n, htree⟩ := tree
    · exact absurd hno.cnt held
    · exact State.codesInv_of_walk htree inner walk
  | _ => exact h

theorem Change.keeps_inv {s t : State} (c : Change s t) (h : s.Inv) : t.Inv where
  err := c.keeps_errLegal h.err
  freq := c.keeps_freqBounded h.freq
  tree := c.keeps_treeInv h.freq h.tree
  codes := c.keeps_codesInv h.tree h.codes
  mem := c.keeps_memWf h.mem
  draws := c.keeps_drawsTaken h.draws

/-! ## No step stops the machine -/

/-- The gate of a fault completes, so a command completes when its effect on a block without a fault does. -/
theorem State.runCommand_completes {s : State} {f : State → Result} (h : ∃ t, f s = .next t) :
    ∃ t, s.runCommand f = .next t := by
  by_cases e : s.err = 0#3
  · rwa [State.runCommand_of_ok f e]
  · exact ⟨s, State.runCommand_of_fault f e⟩

theorem codeWalk_root_ne_unbounded {s : State} {n : Nat} (h : s.HoldsTree n) (codes : CodeTable) :
    codeWalk s.node s.nodeCnt.toNat Config.nodeMax [(s.root, [])] codes ≠ .unbounded := by
  obtain ⟨hpos, hle⟩ := h.tree.size
  refine codeWalk_ne_unbounded h.tree (seen := []) ?_ (by simp only [Config.nodeMax]; omega)
  rw [List.map_singleton, h.root_toNat]
  exact s.node.walkInv_root hpos

/-- Over a tree, or none, BUILD_CODES ends in a next state (rule R244, log entry 6). -/
theorem execBuildCodes_completes {s : State} (h : s.TreeInv) : ∃ t, execBuildCodes s = .next t := by
  refine State.runCommand_completes ?_
  dsimp only
  split
  · exact ⟨_, rfl⟩
  · obtain hno | ⟨n, htree⟩ := h
    · exact absurd hno.cnt ‹_›
    · split
      · exact ⟨_, rfl⟩
      · split
        · exact ⟨_, rfl⟩
        · exact ⟨_, rfl⟩
        · exact absurd ‹_› (codeWalk_root_ne_unbounded htree _)

theorem execBuildTree_completes (s : State) : ∃ t, execBuildTree s = .next t := by
  refine State.runCommand_completes ?_
  split <;> exact ⟨_, rfl⟩

theorem execEncode_completes (s : State) : ∃ t, execEncode s = .next t := by
  refine State.runCommand_completes ?_
  split <;> exact ⟨_, rfl⟩

theorem execDecode_completes (s : State) : ∃ t, execDecode s = .next t := by
  refine State.runCommand_completes ?_
  dsimp only
  split
  · exact ⟨_, rfl⟩
  · split
    · exact ⟨_, rfl⟩
    · split
      · exact ⟨_, rfl⟩
      · split <;> exact ⟨_, rfl⟩

theorem exec_completes (i : Instr) {s : State} (h : s.TreeInv) : ∃ t, exec i s = .next t := by
  cases i with
  | nop => exact State.runCommand_completes ⟨_, rfl⟩
  | freq =>
    change ∃ t, execFreq s = .next t
    exact State.runCommand_completes ⟨_, rfl⟩
  | buildTree => exact execBuildTree_completes s
  | buildCodes => exact execBuildCodes_completes h
  | encode => exact execEncode_completes s
  | decode => exact execDecode_completes s
  | clear => exact ⟨_, exec_clear s⟩

theorem issueCommand_completes (w : Word) {s : State} (h : s.TreeInv) : ∃ t, issueCommand w s = .next t := by
  unfold issueCommand
  split
  · exact exec_completes _ h
  · exact State.runCommand_completes ⟨_, rfl⟩

theorem hostWrite_completes (a : Addr) (w : Word) {s : State} (h : s.TreeInv) : ∃ t, s.hostWrite a w = .next t := by
  unfold State.hostWrite
  split
  · split
    · exact issueCommand_completes w (h.of_same rfl rfl rfl)
    · split <;> exact ⟨_, rfl⟩
  · exact ⟨_, rfl⟩

/-- With a tree or none in the arena, every input completes (rules R17, R78). -/
theorem safe_of_treeInv {s : State} (h : s.TreeInv) : Safe s := by
  unfold Safe step State.advance
  split
  · exact ⟨_, rfl⟩
  · rename_i input rest _
    cases input with
    | reset => exact ⟨_, rfl⟩
    | transaction tr =>
      simp only [State.accept, State.transact]
      split
      · exact ⟨_, rfl⟩
      · exact hostWrite_completes _ _ (h.of_same rfl rfl rfl)

/-! ## The statements -/

/-- Settles O10: no input is taken when none is pending. -/
theorem idleBlockKeepsItsState : Obligations.IdleBlockKeepsItsState := by
  intro s h
  simp [step, State.advance, h]

/-- Settles O59: a step is a chain of elementary changes, each of which keeps the invariant; and no walk of BUILD_CODES over a tree
is unbounded. -/
theorem everyStepIsSafe : Obligations.EveryStepIsSafe :=
  fun _ hs => ⟨safe_of_treeInv hs.tree, fun _ h => step_keeps (fun _ _ c => c.keeps_inv) h hs⟩

end Sys2Proof.Machine

/-! ## The last change of a step

A chain of changes forgets that a step holds at most one command. `step_lastChange` keeps it: what comes before the last change
leaves the tree and the code table alone, so a claim about CODE needs the tree in the step's first state only. -/

namespace Sys2Proof.Machine

/-- A read changes nothing of the block (rule R64). -/
theorem State.hostRead_sameBlock (s : State) (a : Addr) : s.SameBlock (s.hostRead a) := by
  obtain ⟨w, -, hr⟩ | hr := s.hostRead_cases a
  · simp [State.SameBlock, hr]
  · simp [State.SameBlock, hr]

/-- Two states have the same tree and the same code table. -/
abbrev State.SameTables (s u : State) : Prop :=
  u.node = s.node ∧ u.nodeCnt = s.nodeCnt ∧ u.root = s.root ∧ u.code = s.code

/-- A step ends in a state with the tables it began with, or makes one elementary change of such a state. -/
theorem step_lastChange {s t : State} (h : step s = .next t) : ∃ u, s.SameTables u ∧ (t = u ∨ Change u t) := by
  have kept (same : s.SameTables t) : ∃ u, s.SameTables u ∧ (t = u ∨ Change u t) := ⟨t, same, .inl rfl⟩
  obtain ⟨-, rfl⟩ | ⟨rest, -, rfl⟩ | ⟨tr, rest, -, -, rfl⟩ | ⟨tr, rest, -, -, hw⟩ := step_cases h
  · exact kept ⟨rfl, rfl, rfl, rfl⟩
  · exact ⟨s.takeInput rest, ⟨rfl, rfl, rfl, rfl⟩, .inr .reset⟩
  · obtain ⟨-, -, -, -, -, hcnt, hroot, hnode, -, hcode, -⟩ := (s.takeInput rest).hostRead_sameBlock tr.addr
    exact kept ⟨hnode, hcnt, hroot, hcode⟩
  · obtain rfl | ⟨-, hcmd⟩ | ⟨-, rfl⟩ | ⟨-, rfl⟩ | ⟨b, -, rfl⟩ := State.hostWrite_cases hw
    · exact kept ⟨rfl, rfl, rfl, rfl⟩
    · exact ⟨(s.takeInput rest).answerNoData .okay, ⟨rfl, rfl, rfl, rfl⟩, issueCommand_change hcmd⟩
    · exact kept ⟨rfl, rfl, rfl, rfl⟩
    · exact kept ⟨rfl, rfl, rfl, rfl⟩
    · exact kept ⟨rfl, rfl, rfl, rfl⟩

theorem State.CodesInv.of_same {s t : State} (h : s.CodesInv) (code : t.code = s.code) : t.CodesInv := by
  unfold State.CodesInv
  rwa [code]

/-! ## What a faulted block does -/

theorem decode_eq_clear {w : Word} (h : decode w = .ok .clear) : w = 0x0000000F#32 := by
  unfold decode at h
  split at h
  · cases h
  · rename_i hzero
    split at h <;> cases h
    rename_i hop
    have hupper := congrArg BitVec.toNat (not_not.mp hzero)
    simp only [zeroField, opcodeField, BitVec.extractLsb'_toNat, BitVec.toNat_ofNat] at hupper hop
    have := w.isLt
    apply BitVec.eq_of_toNat_eq
    simp only [BitVec.toNat_ofNat]
    omega

/-- A faulted block takes no word written to CMD but CLEAR's (rules R91, R208). -/
theorem issueCommand_of_fault {s t : State} {w : Word} (fault : s.err ≠ 0#3) (h : issueCommand w s = .next t) :
    t = s ∨ (w = 0x0000000F#32 ∧ t = s.clearAll) := by
  unfold issueCommand at h
  split at h
  · rename_i i hi
    by_cases hc : i = .clear
    · subst hc
      exact .inr ⟨decode_eq_clear hi, (Host.Outcome.next.inj h).symm⟩
    · rw [exec_of_fault fault hc] at h
      exact .inl (Host.Outcome.next.inj h).symm
  · rw [execIllegal, State.runCommand_of_fault _ fault] at h
    exact .inl (Host.Outcome.next.inj h).symm

/-- CMD is the word at address 0 (rules R22, R61). -/
theorem Target.ofAddr_eq_cmd {a : Addr} (aligned : a.toNat % 4 = 0) (h : Target.ofAddr a = .reg .cmd) : a = 0x0000000#25 := by
  have hindex : a.toNat / 4 = 0 := by
    unfold Target.ofAddr Target.ofNat at h
    split_ifs at h with hreg
    rw [Target.reg.injEq] at h
    unfold Reg.ofIndex at h
    split at h <;> simp_all
  apply BitVec.eq_of_toNat_eq
  simp only [BitVec.toNat_ofNat]
  omega

/-- A write to a faulted block keeps ERR and ERR_INFO, unless it is the CLEAR word's to CMD (rules R208, R210). -/
theorem hostWrite_of_fault {s t : State} {a : Addr} {w : Word} (fault : s.err ≠ 0#3) (h : s.hostWrite a w = .next t) :
    (t.err = s.err ∧ t.errInfo = s.errInfo) ∨
    (a = 0x0000000#25 ∧ w = 0x0000000F#32 ∧ t = (s.answerNoData .okay).clearAll) := by
  obtain rfl | ⟨ha, hcmd⟩ | ⟨-, rfl⟩ | ⟨-, rfl⟩ | ⟨b, -, rfl⟩ := State.hostWrite_cases h
  · exact .inl ⟨rfl, rfl⟩
  · obtain rfl | ⟨rfl, rfl⟩ := issueCommand_of_fault (s := s.answerNoData .okay) fault hcmd
    · exact .inl ⟨rfl, rfl⟩
    · obtain ht | aligned := State.hostWrite_aligned h
      · rw [ht]
        exact .inl ⟨rfl, rfl⟩
      · exact .inr ⟨Target.ofAddr_eq_cmd aligned ha, rfl, rfl⟩
  · exact .inl ⟨rfl, rfl⟩
  · exact .inl ⟨rfl, rfl⟩
  · exact .inl ⟨rfl, rfl⟩

/-! ## The statements on the invariants -/

/-- Settles O58: only the last change of a step can be a command, and it starts from the tree the step began with. -/
theorem stepKeepsTheCodesPrefixFree : Obligations.StepKeepsTheCodesPrefixFree := by
  intro s t tree codes h
  obtain ⟨u, ⟨hnode, hcnt, hroot, hcode⟩, rfl | hc⟩ := step_lastChange h
  · exact codes.of_same hcode
  · exact hc.keeps_codesInv (tree.of_same hnode hcnt hroot) (codes.of_same hcode)

/-- Settles O54: each input in turn; under a fault a CMD write does nothing unless its word is CLEAR's. -/
theorem onlyClearAndResetEndAFault : Obligations.OnlyClearAndResetEndAFault := by
  intro s t fault h
  obtain ⟨-, rfl⟩ | ⟨rest, hp, rfl⟩ | ⟨tr, rest, -, -, rfl⟩ | ⟨⟨kind, a, w⟩, rest, hp, rfl, hw⟩ := step_cases h
  · exact .inl ⟨rfl, rfl⟩
  · exact .inr ⟨rfl, rfl, rest, .inl hp⟩
  · obtain ⟨herr, hinfo, -⟩ := (s.takeInput rest).hostRead_sameBlock tr.addr
    exact .inl ⟨herr, hinfo⟩
  · obtain hkept | ⟨rfl, rfl, rfl⟩ := hostWrite_of_fault (s := s.takeInput rest) fault hw
    · exact .inl hkept
    · exact .inr ⟨rfl, rfl, rest, .inr hp⟩

/-- Settles O55: every elementary change keeps the canonical form. -/
theorem stepKeepsMemoryCanonical : Obligations.StepKeepsMemoryCanonical :=
  fun _ _ hs h => step_keeps (fun _ _ c => c.keeps_memWf) h hs

/-- Settles O56: every elementary change keeps ERR and ERR_INFO legal. -/
theorem stepKeepsErrLegal : Obligations.StepKeepsErrLegal :=
  fun _ _ hs h => step_keeps (fun _ _ c => c.keeps_errLegal) h hs

/-- Settles O60: every clause but the canonical memory is about empty tables. -/
theorem resetMeetsTheInvariants : Obligations.ResetMeetsTheInvariants where
  err := ⟨Nat.zero_le _, fun _ => rfl⟩
  freq := FreqTable.empty_total_le
  tree := .inl ⟨rfl, rfl, rfl⟩
  codes := State.codesInv_of_empty rfl
  mem := State.reset_mem_wf
  draws := by decide

end Sys2Proof.Machine

/-! ## What the host reads and writes at an address -/

namespace Sys2Proof.Machine

theorem Addr.aligned_ofNat {n : Nat} (h : n % 4 = 0) : Addr.aligned (BitVec.ofNat 25 n) = true := by
  rw [Addr.aligned, beq_iff_eq]
  apply BitVec.eq_of_toNat_eq
  simp only [BitVec.extractLsb'_toNat, BitVec.toNat_ofNat]
  omega

theorem Target.ofAddr_ofNat {n : Nat} (h : n < 0x2000000) : Target.ofAddr (BitVec.ofNat 25 n) = Target.ofNat n := by
  rw [Target.ofAddr, BitVec.toNat_ofNat, Nat.mod_eq_of_lt h]

/-- An aligned read of a mapped address is answered OKAY with the word of its target (rules R62, R64). -/
theorem step_read {s : State} {rest : List HostInput} {n : Nat} {d w : Word}
    (h : s.pending = readInput (BitVec.ofNat 25 n) d :: rest) (aligned : n % 4 = 0) (hn : n < 0x2000000)
    (hw : s.readTarget (Target.ofNat n) = some w) : step s = .next (s.afterRead rest w) := by
  have hw' : (s.takeInput rest).readTarget (Target.ofNat n) = some w := by
    rw [← hw]
    cases Target.ofNat n with
    | reg r => cases r <;> rfl
    | _ => rfl
  simp [step, State.advance, h, readInput, State.accept, State.transact, State.hostRead, Addr.aligned_ofNat aligned,
    Target.ofAddr_ofNat hn, hw', State.afterRead]

/-- An aligned write to a writable target other than CMD stores there and is answered OKAY (rules R62, R65). -/
theorem step_write {s s' : State} {rest : List HostInput} {n : Nat} {w : Word}
    (h : s.pending = writeInput (BitVec.ofNat 25 n) w :: rest) (aligned : n % 4 = 0) (hn : n < 0x2000000)
    (hcmd : Target.ofNat n ≠ .reg .cmd) (hw : (s.takeInput rest).writeTarget w (Target.ofNat n) = some s') :
    step s = .next (s'.answerNoData .okay) := by
  simp [step, State.advance, h, writeInput, State.accept, State.transact, State.hostWrite, Addr.aligned_ofNat aligned,
    Target.ofAddr_ofNat hn, hcmd, hw]

/-! ### The windows of the address map (rule R61) -/

theorem Target.ofNat_freq (x : Symbol) : Target.ofNat (0x400 + 4 * x.toNat) = .freq x := by
  have hx := x.isLt
  have hidx : (0x400 + 4 * x.toNat - 0x400) / 4 = x.toNat := by omega
  rw [Target.ofNat, if_neg (by omega), if_neg (by omega), if_pos (by omega), hidx, BitVec.ofNat_toNat, BitVec.setWidth_eq]

theorem Target.ofNat_codeLen (x : Symbol) : Target.ofNat (0x800 + 4 * x.toNat) = .codeLen x := by
  have hx := x.isLt
  have hidx : (0x800 + 4 * x.toNat - 0x800) / 4 = x.toNat := by omega
  rw [Target.ofNat, if_neg (by omega), if_neg (by omega), if_neg (by omega), if_pos (by omega), hidx, BitVec.ofNat_toNat,
    BitVec.setWidth_eq]

/-- The byte offset of a word in its node slot. -/
theorem nodeWordOffset (hi : Bool) : (if hi then 4 else 0) = 4 * hi.toNat := by cases hi <;> rfl

theorem Target.ofNat_node (k : NodeIdx) (hi : Bool) :
    Target.ofNat (0x1000 + 8 * k.toNat + if hi then 4 else 0) = .node k hi := by
  have hk := k.isLt
  have hb := hi.toNat_le
  have hidx : (0x1000 + 8 * k.toNat + 4 * hi.toNat - 0x1000) / 8 = k.toNat := by omega
  have hword : decide (4 ≤ (0x1000 + 8 * k.toNat + 4 * hi.toNat) % 8) = hi := by
    rw [Bool.eq_iff_iff, decide_eq_true_eq, ← Bool.toNat_eq_one]
    omega
  rw [nodeWordOffset, Target.ofNat, if_neg (by omega), if_neg (by omega), if_neg (by omega), if_neg (by omega),
    if_neg (by omega), if_pos (by omega), hidx, hword, BitVec.ofNat_toNat, BitVec.setWidth_eq]

theorem Target.ofNat_codeBits (x : Symbol) {j : Nat} (hj : j < 8) :
    Target.ofNat (0x2000 + 32 * x.toNat + 4 * j) = .codeBits x (BitVec.ofNat 3 j) := by
  have hx := x.isLt
  have hidx : (0x2000 + 32 * x.toNat + 4 * j - 0x2000) / 32 = x.toNat := by omega
  have hword : (0x2000 + 32 * x.toNat + 4 * j) % 32 / 4 = j := by omega
  rw [Target.ofNat, if_neg (by omega), if_neg (by omega), if_neg (by omega), if_neg (by omega), if_neg (by omega),
    if_neg (by omega), if_pos (by omega), hidx, hword, BitVec.ofNat_toNat, BitVec.setWidth_eq]

/-! ### The fields of the words read -/

theorem State.codesValid_eq_true (s : State) : s.codesValid = true ↔ ∃ x, (s.code.at x).present = true := by
  rw [State.codesValid, List.any_eq_true]
  constructor
  · rintro ⟨e, he, hp⟩
    obtain ⟨i, hi, rfl⟩ := List.getElem_of_mem he
    have hi' : i < 256 := by simpa using hi
    exact ⟨BitVec.ofNat 8 i, by simpa [CodeTable.at, Nat.mod_eq_of_lt hi'] using hp⟩
  · rintro ⟨x, hp⟩
    exact ⟨s.code.at x, by simp [CodeTable.at], hp⟩

theorem State.treeValid_eq_true (s : State) : s.treeValid = true ↔ s.nodeCnt ≠ 0#10 := by
  simp [State.treeValid]

theorem toNat_append_eq_add {m n : Nat} (x : BitVec m) (y : BitVec n) : (x ++ y).toNat = 2 ^ n * x.toNat + y.toNat := by
  rw [BitVec.toNat_append, Nat.mul_comm, ← Nat.shiftLeft_eq, Nat.shiftLeft_add_eq_or_of_lt y.isLt]

/-- STATUS as the sum of its fields (rule R24). -/
theorem State.toNat_statusWord (s : State) :
    s.statusWord.toNat = s.err.toNat + 16 * s.treeValid.toNat + 32 * s.codesValid.toNat := by
  rw [State.statusWord, toNat_append_eq_add, toNat_append_eq_add, toNat_append_eq_add, toNat_append_eq_add]
  simp only [BitVec.toNat_ofNat, BitVec.toNat_ofBool]
  omega

/-- TREE_INFO as the sum of its fields (rule R31). -/
theorem State.toNat_treeInfoWord (s : State) : s.treeInfoWord.toNat = s.nodeCnt.toNat + 0x10000 * s.root.toNat := by
  rw [State.treeInfoWord, toNat_append_eq_add, toNat_append_eq_add, toNat_append_eq_add]
  simp only [BitVec.toNat_ofNat]
  omega

/-- A CODE_LEN word as the sum of its fields (rule R46). -/
theorem CodeEntry.toNat_lenWord (e : CodeEntry) : e.lenWord.toNat = e.len.toNat + 0x80000000 * e.present.toNat := by
  rw [CodeEntry.lenWord, toNat_append_eq_add, toNat_append_eq_add]
  simp only [BitVec.toNat_ofNat, BitVec.toNat_ofBool]
  omega

/-- Word 0 of a valid node as the sum of its fields (rule R42). -/
theorem NodeRec.toNat_word0 (r : NodeRec) :
    r.word0.toNat = r.weight.toNat + 0x10000 * r.sym.toNat + 0x40000000 * r.leaf.toNat + 0x80000000 := by
  rw [NodeRec.word0, toNat_append_eq_add, toNat_append_eq_add, toNat_append_eq_add, toNat_append_eq_add]
  simp only [BitVec.toNat_ofNat, BitVec.toNat_ofBool]
  omega

/-- Word 1 of a valid node as the sum of its fields (rule R42). -/
theorem NodeRec.toNat_word1 (r : NodeRec) : r.word1.toNat = r.left.toNat + 0x10000 * r.right.toNat := by
  rw [NodeRec.word1, toNat_append_eq_add, toNat_append_eq_add, toNat_append_eq_add]
  simp only [BitVec.toNat_ofNat]
  omega

theorem extractLsb'_eq_iff {w start len : Nat} (x : BitVec w) (v : BitVec len) :
    x.extractLsb' start len = v ↔ x.toNat / 2 ^ start % 2 ^ len = v.toNat := by
  rw [← BitVec.toNat_inj, BitVec.extractLsb'_toNat, Nat.shiftRight_eq_div_pow]

theorem getLsbD_eq_iff {w : Nat} (x : BitVec w) (i : Nat) (b : Bool) : x.getLsbD i = b ↔ x.toNat / 2 ^ i % 2 = b.toNat := by
  rw [BitVec.getLsbD, Nat.testBit_eq_decide_div_mod_eq]
  cases b
  · rw [decide_eq_false_iff_not, Nat.mod_two_not_eq_one, Bool.toNat_false]
  · rw [decide_eq_true_eq, Bool.toNat_true]

/-- STATUS by its fields (rule R24). -/
theorem State.statusWord_fields (s : State) :
    s.statusWord.extractLsb' 0 3 = s.err ∧ s.statusWord.getLsbD 3 = false ∧ s.statusWord.getLsbD 4 = s.treeValid ∧
    s.statusWord.getLsbD 5 = s.codesValid ∧ ∀ i, 6 ≤ i → s.statusWord.getLsbD i = false := by
  have hword := s.toNat_statusWord
  have herr := s.err.isLt
  have htree := s.treeValid.toNat_le
  have hcodes := s.codesValid.toNat_le
  have hhigh : ∀ i, 6 ≤ i → s.statusWord.getLsbD i = false := fun i hi =>
    Nat.testBit_lt_two_pow (Nat.lt_of_lt_of_le (m := 2 ^ 6) (by omega) (Nat.pow_le_pow_right (by decide) hi))
  simp only [extractLsb'_eq_iff, getLsbD_eq_iff, Bool.toNat_false] at hhigh ⊢
  refine ⟨?_, ?_, ?_, ?_, hhigh⟩ <;> omega

/-- Word 0 of a valid node by its fields (rule R42). -/
theorem NodeRec.word0_fields (r : NodeRec) :
    r.word0.extractLsb' 0 16 = r.weight ∧ r.word0.extractLsb' 16 8 = r.sym ∧ r.word0.extractLsb' 24 6 = 0#6 ∧
    r.word0.getLsbD 30 = r.leaf ∧ r.word0.getLsbD 31 = true := by
  have hword := r.toNat_word0
  have hweight := r.weight.isLt
  have hsym := r.sym.isLt
  have hleaf := r.leaf.toNat_le
  simp only [extractLsb'_eq_iff, getLsbD_eq_iff, BitVec.toNat_ofNat, Bool.toNat_true]
  omega

/-- Word 1 of a valid node by its fields (rule R42). -/
theorem NodeRec.word1_fields (r : NodeRec) :
    r.word1.extractLsb' 0 9 = r.left ∧ r.word1.extractLsb' 9 7 = 0#7 ∧ r.word1.extractLsb' 16 9 = r.right ∧
    r.word1.extractLsb' 25 7 = 0#7 := by
  have hword := r.toNat_word1
  have hleft := r.left.isLt
  have hright := r.right.isLt
  simp only [extractLsb'_eq_iff, BitVec.toNat_ofNat]
  omega

/-- Bit i of word j of a CODE_BITS entry; bits[255] reads 0 (rule R47). -/
theorem CodeEntry.getLsbD_bitsWord (e : CodeEntry) {j i : Nat} (hj : j < 8) (hi : i < 32) :
    (e.bitsWord (BitVec.ofNat 3 j)).getLsbD i =
      if 32 * j + i < 255 then e.bits.getLsbD (32 * j + i) else false := by
  have hj' : (BitVec.ofNat 3 j).toNat = j := by rw [BitVec.toNat_ofNat, Nat.mod_eq_of_lt hj]
  rw [CodeEntry.bitsWord, hj', BitVec.getLsbD_extractLsb', BitVec.getLsbD_setWidth]
  have hin : 32 * j + i < 256 := by omega
  by_cases hbit : 32 * j + i < 255
  · simp [hi, hin, hbit]
  · simp [hbit, BitVec.getLsbD_of_ge _ _ (Nat.le_of_not_lt hbit)]

/-- A slot that is not valid reads 0 (rule R42). -/
theorem State.nodeWord_of_invalid {s : State} {k : NodeIdx} (hi : Bool) (h : s.nodeCnt.toNat ≤ k.toNat ∨ k = 0x1FF#9) :
    s.nodeWord k hi = 0#32 := by
  refine if_neg ?_
  rintro ⟨hlt, hne⟩
  exact h.elim (Nat.not_le_of_lt hlt) hne

theorem State.nodeWord_of_valid {s : State} {k : NodeIdx} (hi : Bool) (hlt : k.toNat < s.nodeCnt.toNat) (hne : k ≠ 0x1FF#9) :
    s.nodeWord k hi = if hi then (s.node.at k.toNat).word1 else (s.node.at k.toNat).word0 :=
  if_pos ⟨hlt, hne⟩

/-! ## The statements on the registers and the windows -/

/-- Settles O14: the two length registers are writable targets. -/
theorem lengthRegisterWrites : Obligations.LengthRegisterWrites :=
  fun _ _ _ => ⟨fun h => step_write h (by decide) (by decide) (by decide) rfl,
    fun h => step_write h (by decide) (by decide) (by decide) rfl⟩

/-- Settles O17: each register is a target of its own, STATUS and TREE_INFO read by their fields. -/
theorem registerReads : Obligations.RegisterReads := by
  intro s rest d
  refine ⟨fun h => step_read h (by decide) (by decide) rfl, fun h => ?_,
    fun h => step_read h (by decide) (by decide) rfl, fun h => ?_, fun h => ?_, fun h => ?_, fun h => ?_,
    fun h => step_read h (by decide) (by decide) rfl⟩
  · obtain ⟨herr, hzero, htree, hcodes, hhigh⟩ := s.statusWord_fields
    exact ⟨_, step_read h (by decide) (by decide) rfl, herr, hzero, htree ▸ s.treeValid_eq_true,
      hcodes ▸ s.codesValid_eq_true, hhigh⟩
  · exact step_read h (by decide) (by decide) (congrArg some (BitVec.ofNat_toNat ..).symm)
  · exact step_read h (by decide) (by decide) (congrArg some (BitVec.ofNat_toNat ..).symm)
  · exact step_read h (by decide) (by decide) (congrArg some (BitVec.ofNat_toNat ..).symm)
  · rw [← s.toNat_treeInfoWord, BitVec.ofNat_toNat, BitVec.setWidth_eq]
    exact step_read h (by decide) (by decide) rfl

/-- Settles O18: each window names the entry of its symbol. -/
theorem freqAndLengthWindows : Obligations.FreqAndLengthWindows := by
  intro s rest d x
  have hx := x.isLt
  refine ⟨fun h => step_read h (by omega) (by omega) ?_, fun h => step_read h (by omega) (by omega) ?_⟩
  · rw [Target.ofNat_freq, BitVec.ofNat_toNat]
    rfl
  · have hlen : (s.code.at x).len.toNat + (if (s.code.at x).present then 0x80000000 else 0) = (s.code.at x).lenWord.toNat := by
      rw [CodeEntry.toNat_lenWord]
      cases (s.code.at x).present <;> rfl
    rw [Target.ofNat_codeLen, hlen, BitVec.ofNat_toNat, BitVec.setWidth_eq]
    rfl

/-- Settles O19: a valid slot's words are read by their fields. -/
theorem nodeWindow : Obligations.NodeWindow := by
  intro s rest d k hi h
  have hk := k.isLt
  have hb := hi.toNat_le
  have hoff := nodeWordOffset hi
  refine ⟨s.nodeWord k hi, step_read h (by omega) (by omega) ?_, State.nodeWord_of_invalid hi, ?_, ?_⟩
  · rw [Target.ofNat_node]
    rfl
  · rintro hlt hne rfl
    rw [State.nodeWord_of_valid _ hlt hne]
    exact NodeRec.word0_fields _
  · rintro hlt hne rfl
    rw [State.nodeWord_of_valid _ hlt hne]
    exact NodeRec.word1_fields _

/-- Settles O20: word j of the entry holds the bits from 32j on. -/
theorem codeBitsWindow : Obligations.CodeBitsWindow := by
  intro s rest d x j hj h
  have hx := x.isLt
  refine ⟨(s.code.at x).bitsWord (BitVec.ofNat 3 j), step_read h (by omega) (by omega) ?_,
    fun i hi => (s.code.at x).getLsbD_bitsWord hj hi⟩
  rw [Target.ofNat_codeBits x hj]
  rfl

end Sys2Proof.Machine

/-! ## What each command does -/

namespace Sys2Proof.Machine

/-- What a command that is not ignored makes of the state: one constructor for each way it can end (rule R92). -/
inductive Effect (s : State) : Instr → State → Prop
  | nop : Effect s .nop s
  | freq : Effect s .freq { s with freq := countSymbols s.input }
  | emptyInput : Effect s .buildTree (s.raise .emptyInput 0#32 .tree)
  | tree : Effect s .buildTree { s with
      node := builtArena s.freq,
      nodeCnt := BitVec.ofNat 10 (2 * s.freq.keys.length - 1),
      root := BitVec.ofNat 9 (2 * s.freq.keys.length - 2) }
  | invariantViolation (k : NodeIdx) : Effect s .buildCodes (s.raise .invariantViolation (nodeInfo k) .codes)
  | codes (c : CodeTable) : Effect s .buildCodes { s with code := c }
  | unknownSymbol (i : Nat) (x : Symbol) :
      Effect s .encode (s.raise .unknownSymbol (unknownSymbolInfo i x) .bitstream)
  | bitstream (bits : List Bool) (found : encodeFrom s.code 0 s.input = .ok bits) : Effect s .encode { s with
      mem := s.mem.writeBytes Config.bitbufBase (packBits bits),
      bitLen := BitVec.ofNat 24 bits.length }
  | malformedBitstream (e : Malformed) :
      Effect s .decode (s.raise .malformedBitstream (malformedInfo e) .recovered)
  | recovered (out : List Symbol) (short : out.length ≤ s.bitLen.toNat) : Effect s .decode (s.deliver out)
  | clear : Effect s .clear s.clearAll

theorem execBuildTree_effect {s t : State} (h : execBuildTree s = .next t) : t = s ∨ Effect s .buildTree t := by
  obtain ⟨-, rfl⟩ | ⟨-, h⟩ := State.runCommand_cases h
  · exact .inl rfl
  · split at h <;> cases h
    · exact .inr .emptyInput
    · exact .inr .tree

theorem execBuildCodes_effect {s t : State} (h : execBuildCodes s = .next t) : t = s ∨ Effect s .buildCodes t := by
  obtain ⟨-, rfl⟩ | ⟨-, h⟩ := State.runCommand_cases h
  · exact .inl rfl
  · dsimp only at h
    split at h
    · cases h; exact .inr (.invariantViolation _)
    · split at h
      · cases h; exact .inr (.codes _)
      · split at h <;> cases h
        · exact .inr (.codes _)
        · exact .inr (.invariantViolation _)

theorem execEncode_effect {s t : State} (h : execEncode s = .next t) : t = s ∨ Effect s .encode t := by
  obtain ⟨-, rfl⟩ | ⟨-, h⟩ := State.runCommand_cases h
  · exact .inl rfl
  · split at h <;> cases h
    · exact .inr (.bitstream _ ‹_›)
    · exact .inr (.unknownSymbol _ _)

theorem execDecode_effect {s t : State} (h : execDecode s = .next t) : t = s ∨ Effect s .decode t := by
  obtain ⟨-, rfl⟩ | ⟨-, h⟩ := State.runCommand_cases h
  · exact .inl rfl
  · dsimp only at h
    split at h
    · cases h; exact .inr (.recovered _ (Nat.zero_le _))
    · split at h
      · cases h; exact .inr (.malformedBitstream _)
      · split at h
        · cases h; exact .inr (.recovered _ (by simp))
        · split at h <;> cases h
          · exact .inr (.recovered _ (s.length_stream ▸ decodeWalk_length ‹_›))
          · exact .inr (.malformedBitstream _)

/-- A command that completes is ignored or has its effect (rules R91, R92). -/
theorem exec_effect {i : Instr} {s t : State} (h : exec i s = .next t) : t = s ∨ Effect s i t := by
  cases i with
  | nop =>
    obtain ⟨-, rfl⟩ | ⟨-, h⟩ := State.runCommand_cases (f := fun s => .next s) h
    · exact .inl rfl
    · exact .inl (Host.Outcome.next.inj h).symm
  | freq =>
    obtain ⟨-, rfl⟩ | ⟨-, h⟩ := State.runCommand_cases (f := fun s => .next { s with freq := countSymbols s.input }) h
    · exact .inl rfl
    · cases h; exact .inr .freq
  | buildTree => exact execBuildTree_effect h
  | buildCodes => exact execBuildCodes_effect h
  | encode => exact execEncode_effect h
  | decode => exact execDecode_effect h
  | clear => cases h; exact .inr .clear

/-- The addresses of the buffer that a command has for its output (rule R51). -/
def outputBuffer : Instr → Nat → Bool
  | .encode => inBitbuf
  | .decode => inSymOut
  | _ => fun _ => false

/-- A command leaves every byte outside its output buffer as it is (rules R51, R207). -/
theorem Effect.read_outside {i : Instr} {s t : State} (c : Effect s i t) {a : Nat} (ha : outputBuffer i a = false) :
    t.mem.read a = s.mem.read a := by
  cases c with
  | unknownSymbol i x => exact Memory.read_havocBitbuf_outside _ _ ha
  | bitstream bits found =>
    have hlen := length_packBits_encode found
    refine Memory.read_writeBytes_outside _ _ _ ?_
    simp only [outputBuffer, inBitbuf, Bool.and_eq_false_iff, decide_eq_false_iff_not] at ha
    omega
  | malformedBitstream e => exact Memory.read_havocSymOut_outside _ _ ha
  | recovered out short =>
    have hlen := s.bitLen.isLt
    refine Memory.read_writeBytes_outside _ _ _ ?_
    simp only [outputBuffer, inSymOut, Config.symOutBytes, Bool.and_eq_false_iff, decide_eq_false_iff_not] at ha
    omega
  | _ => rfl

/-- SYM_IN is no command's output buffer. -/
theorem outputBuffer_of_inSymIn (i : Instr) {a : Nat} (h : inSymIn a = true) : outputBuffer i a = false := by
  simp only [inSymIn, Config.symInBase, Config.symInBytes, Bool.and_eq_true, decide_eq_true_eq] at h
  cases i with
  | encode =>
    simp only [outputBuffer, inBitbuf, Config.bitbufBase, Bool.and_eq_false_iff, decide_eq_false_iff_not]
    omega
  | decode =>
    simp only [outputBuffer, inSymOut, Config.symOutBase, Bool.and_eq_false_iff, decide_eq_false_iff_not]
    omega
  | _ => rfl

theorem outputBuffer_of_inBitbuf {i : Instr} (hi : i ≠ .encode) {a : Nat} (h : inBitbuf a = true) :
    outputBuffer i a = false := by
  cases i with
  | encode => exact absurd rfl hi
  | decode => exact inSymOut_eq_false_of_inBitbuf h
  | _ => rfl

theorem outputBuffer_of_inSymOut {i : Instr} (hi : i ≠ .decode) {a : Nat} (h : inSymOut a = true) :
    outputBuffer i a = false := by
  cases i with
  | encode =>
    refine Bool.eq_false_of_not_eq_true fun hb => ?_
    rw [inSymOut_eq_false_of_inBitbuf hb] at h
    cases h
  | decode => exact absurd rfl hi
  | _ => rfl

/-- The tables and registers that are not a command's output, and the model's own list and answer, stay (rule R51). -/
theorem Effect.keeps {i : Instr} {s t : State} (c : Effect s i t) (hi : i ≠ .clear) :
    t.inLen = s.inLen ∧ t.pending = s.pending ∧ t.response = s.response ∧ (i ≠ .freq → t.freq = s.freq) ∧
    (i ≠ .buildTree → t.node = s.node ∧ t.nodeCnt = s.nodeCnt ∧ t.root = s.root) ∧ (i ≠ .buildCodes → t.code = s.code) ∧
    (i ≠ .encode → t.bitLen = s.bitLen) ∧ (i ≠ .decode → t.outLen = s.outLen) := by
  cases c with
  | clear => exact absurd rfl hi
  | _ => simp

/-- Settles O52: what each way a command can end keeps, the registers and the bytes. -/
theorem commandsWriteOnlyTheirOutput : Obligations.CommandsWriteOnlyTheirOutput := by
  intro i s t hi h
  obtain rfl | c := exec_effect h
  · simp
  · obtain ⟨hin, hpending, hresponse, hfreq, htree, hcode, hbit, hout⟩ := c.keeps hi
    exact ⟨hin, hpending, hresponse, fun a ha => c.read_outside (outputBuffer_of_inSymIn i ha), hfreq, htree, hcode,
      fun ne => ⟨hbit ne, fun a ha => c.read_outside (outputBuffer_of_inBitbuf ne ha)⟩,
      fun ne => ⟨hout ne, fun a ha => c.read_outside (outputBuffer_of_inSymOut ne ha)⟩⟩

/-! ## The state after reset -/

theorem Memory.unlisted_of_inSymOut (m : Memory) {a : Nat} (h : inSymOut a = true) :
    m.unlisted a = Config.freeByte m.symOutDraw a := if_pos h

theorem Memory.unlisted_of_inBitbuf (m : Memory) {a : Nat} (h : inBitbuf a = true) :
    m.unlisted a = Config.freeByte m.bitbufDraw a := by
  simp [Memory.unlisted, h, inSymOut_eq_false_of_inBitbuf h]

theorem Memory.unlisted_of_inSymIn (m : Memory) {a : Nat} (h : inSymIn a = true) :
    m.unlisted a = Config.freeByte m.symInDraw a := by
  have hbit : inBitbuf a = false := outputBuffer_of_inSymIn .encode h
  have hout : inSymOut a = false := outputBuffer_of_inSymIn .decode h
  simp [Memory.unlisted, hbit, hout]

theorem State.codesValid_of_empty {s : State} (h : s.code = CodeTable.empty) : s.codesValid = false := by
  refine Bool.eq_false_of_not_eq_true fun hv => ?_
  obtain ⟨x, hx⟩ := s.codesValid_eq_true.mp hv
  rw [h, CodeTable.at_empty] at hx
  cases hx

theorem State.nodeWord_of_noTree {s : State} (h : s.nodeCnt = 0#10) (k : NodeIdx) (hi : Bool) : s.nodeWord k hi = 0#32 :=
  State.nodeWord_of_invalid hi (.inl (by simp [h]))

/-- Settles O1: the tables are the empty ones, and no byte is listed, so that each reads as its buffer's free value. -/
theorem resetStateAsListed : Obligations.ResetStateAsListed :=
  ⟨rfl, rfl, rfl, rfl, rfl, rfl, rfl, rfl, State.nodeWord_of_noTree rfl, FreqTable.at_empty, CodeTable.at_empty,
    State.codesValid_of_empty rfl, rfl, fun _ => Memory.unlisted_of_inSymIn _, fun _ => Memory.unlisted_of_inBitbuf _,
    fun _ => Memory.unlisted_of_inSymOut _, by decide, by decide, by decide⟩

end Sys2Proof.Machine

/-! ## Transactions by their address -/

namespace Sys2Proof.Machine

theorem Addr.aligned_eq_true (a : Addr) : Addr.aligned a = true ↔ a.toNat % 4 = 0 := by
  rw [Addr.aligned, beq_iff_eq, extractLsb'_eq_iff, Nat.pow_zero, Nat.div_one]
  rfl

theorem inSymIn_eq_true {a : Nat} : inSymIn a = true ↔ 0x10000 ≤ a ∧ a < 0x20000 := by
  simp [inSymIn, Config.symInBase, Config.symInBytes]

theorem inBitbuf_eq_true {a : Nat} : inBitbuf a = true ↔ 0x200000 ≤ a ∧ a < 0x400000 := by
  simp [inBitbuf, Config.bitbufBase, Config.bitbufBytes]

theorem inSymOut_eq_true {a : Nat} : inSymOut a = true ↔ 0x1000000 ≤ a ∧ a < 0x2000000 := by
  simp [inSymOut, Config.symOutBase, Config.symOutBytes]

theorem step_transaction {s : State} {rest : List HostInput} {tr : Transaction}
    (h : s.pending = .transaction tr :: rest) : step s = (s.takeInput rest).transact tr := by
  simp [step, State.advance, h, State.accept]

theorem step_writeInput {s : State} {rest : List HostInput} {a : Addr} {w : Word} (h : s.pending = writeInput a w :: rest) :
    step s = (s.takeInput rest).hostWrite a w := step_transaction h

/-! ### The transactions that are turned away -/

/-- The targets that take a write (rules R65, R68). -/
def Target.writable : Target → Bool
  | .reg .cmd => true
  | .reg .inLen => true
  | .reg .bitLen => true
  | .symIn _ => true
  | .bitbuf _ => true
  | _ => false

/-- The targets that turn a transaction away, by its kind (rules R66, R67). -/
def Target.refuses (x : Target) : Kind → Prop
  | .read => x = .unmapped
  | .write => x.writable = false

theorem State.writeTarget_of_not_writable (s : State) (w : Word) {x : Target} (h : x.writable = false) :
    x ≠ .reg .cmd ∧ s.writeTarget w x = none := by
  cases x with
  | reg r =>
    cases r with
    | cmd => cases h
    | inLen => cases h
    | bitLen => cases h
    | _ => exact ⟨nofun, rfl⟩
  | symIn b => cases h
  | bitbuf b => cases h
  | _ => exact ⟨nofun, rfl⟩

/-- A transaction that is misaligned, or that its target refuses, is answered ERROR (rules R62, R66, R67). -/
theorem State.transact_refused (s : State) {tr : Transaction}
    (h : tr.addr.toNat % 4 ≠ 0 ∨ (Target.ofAddr tr.addr).refuses tr.kind) : s.transact tr = .next (s.answerNoData .error) := by
  obtain ⟨kind, a, w⟩ := tr
  by_cases aligned : Addr.aligned a = true
  · have refused := h.resolve_left (not_not.mpr ((Addr.aligned_eq_true a).mp aligned))
    cases kind with
    | read =>
      have unmapped : Target.ofAddr a = .unmapped := refused
      simp [State.transact, State.hostRead, State.readTarget, unmapped]
    | write =>
      obtain ⟨notCmd, notStored⟩ := s.writeTarget_of_not_writable w refused
      simp [State.transact, State.hostWrite, notCmd, notStored]
  · cases kind with
    | read => simp [State.transact, State.hostRead, aligned]
    | write => simp [State.transact, State.hostWrite, aligned]

theorem State.sameBlock_afterError (s : State) (rest : List HostInput) : s.SameBlock (s.afterError rest) :=
  ⟨rfl, rfl, rfl, rfl, rfl, rfl, rfl, rfl, rfl, rfl, rfl⟩

/-- The step of a transaction that is turned away: ERROR, with a free value as read data, and nothing else. -/
theorem step_refused {s : State} {rest : List HostInput} {tr : Transaction} (h : s.pending = .transaction tr :: rest)
    (refused : tr.addr.toNat % 4 ≠ 0 ∨ (Target.ofAddr tr.addr).refuses tr.kind) :
    step s = .next (s.afterError rest) ∧ s.SameBlock (s.afterError rest) ∧
      (s.afterError rest).response = some ⟨.error, Config.freeWord s.freeCtr⟩ :=
  ⟨(step_transaction h).trans (State.transact_refused _ refused), s.sameBlock_afterError rest, rfl⟩

theorem Target.refuses_unmapped (kind : Kind) : Target.unmapped.refuses kind := by
  cases kind <;> rfl

/-- The gaps of the address map (rule R61). -/
theorem Target.ofNat_unmapped {n : Nat}
    (h : (0x20 ≤ n ∧ n < 0x400) ∨ (0xC00 ≤ n ∧ n < 0x1000) ∨ (0x4000 ≤ n ∧ n < 0x10000) ∨
      (0x20000 ≤ n ∧ n < 0x200000) ∨ (0x400000 ≤ n ∧ n < 0x1000000)) : Target.ofNat n = .unmapped := by
  unfold Target.ofNat
  simp only [inSymIn_eq_true, inBitbuf_eq_true, inSymOut_eq_true]
  split_ifs <;> grind only

/-- The read-only places of the address map (rules R61, R66). -/
theorem Target.writable_ofNat_readOnly {n : Nat}
    (h : n = 0x4 ∨ n = 0x8 ∨ n = 0x14 ∨ n = 0x18 ∨ n = 0x1C ∨ (0x400 ≤ n ∧ n < 0xC00) ∨ (0x1000 ≤ n ∧ n < 0x4000) ∨
      0x1000000 ≤ n) : (Target.ofNat n).writable = false := by
  obtain rfl | rfl | rfl | rfl | rfl | window := h
  · rfl
  · rfl
  · rfl
  · rfl
  · rfl
  · unfold Target.ofNat
    simp only [inSymIn_eq_true, inBitbuf_eq_true, inSymOut_eq_true]
    split_ifs <;> simp only [Target.writable, reduceCtorEq] <;> omega

/-! ### The words of the buffers -/

theorem ofNat_toNat_addr (a : Addr) : BitVec.ofNat 25 a.toNat = a := by rw [BitVec.ofNat_toNat, BitVec.setWidth_eq]

theorem Target.ofNat_symIn {n : Nat} (h : 0x10000 ≤ n ∧ n < 0x20000) : Target.ofNat n = .symIn n := by
  rw [Target.ofNat, if_neg (by omega), if_neg (by omega), if_neg (by omega), if_neg (by omega), if_neg (by omega),
    if_neg (by omega), if_neg (by omega), if_pos (inSymIn_eq_true.mpr h)]

theorem Target.ofNat_bitbuf {n : Nat} (h : 0x200000 ≤ n ∧ n < 0x400000) : Target.ofNat n = .bitbuf n := by
  rw [Target.ofNat, if_neg (by omega), if_neg (by omega), if_neg (by omega), if_neg (by omega), if_neg (by omega),
    if_neg (by omega), if_neg (by omega), if_neg (by rw [inSymIn_eq_true]; omega), if_pos (inBitbuf_eq_true.mpr h)]

theorem Target.ofNat_symOut {n : Nat} (h : 0x1000000 ≤ n ∧ n < 0x2000000) : Target.ofNat n = .symOut n := by
  rw [Target.ofNat, if_neg (by omega), if_neg (by omega), if_neg (by omega), if_neg (by omega), if_neg (by omega),
    if_neg (by omega), if_neg (by omega), if_neg (by rw [inSymIn_eq_true]; omega),
    if_neg (by rw [inBitbuf_eq_true]; omega), if_pos (inSymOut_eq_true.mpr h)]

/-- A write to SYM_IN or BITBUF stores the word at its own address (rule R65). -/
theorem State.writeTarget_buffer (s : State) (w : Word) {n : Nat}
    (h : (0x10000 ≤ n ∧ n < 0x20000) ∨ (0x200000 ≤ n ∧ n < 0x400000)) :
    Target.ofNat n ≠ .reg .cmd ∧ s.writeTarget w (Target.ofNat n) = some { s with mem := s.mem.writeWord n w } := by
  obtain symIn | bitbuf := h
  · rw [Target.ofNat_symIn symIn]
    exact ⟨nofun, rfl⟩
  · rw [Target.ofNat_bitbuf bitbuf]
    exact ⟨nofun, rfl⟩

/-- A read of a buffer gives the word at its own address (rule R64). -/
theorem State.readTarget_buffer (s : State) {n : Nat} (h : (0x10000 ≤ n ∧ n < 0x20000) ∨ (0x200000 ≤ n ∧ n < 0x400000) ∨
    (0x1000000 ≤ n ∧ n < 0x2000000)) : s.readTarget (Target.ofNat n) = some (s.mem.readWord n) := by
  obtain symIn | bitbuf | symOut := h
  · rw [Target.ofNat_symIn symIn]
    rfl
  · rw [Target.ofNat_bitbuf bitbuf]
    rfl
  · rw [Target.ofNat_symOut symOut]
    rfl

/-- Byte j of a word is its lane j (rules R69, R71). -/
theorem getElem_wordBytes (w : Word) {j : Nat} (h : j < 4) : (wordBytes w)[j]'h = w.extractLsb' (8 * j) 8 := by
  interval_cases j <;> rfl

theorem Memory.read_writeWord_inside (m : Memory) (a : Nat) (w : Word) {j : Nat} (h : j < 4) :
    (m.writeWord a w).read (a + j) = w.extractLsb' (8 * j) 8 :=
  (Memory.read_writeBytes_inside m a (wordBytes w) h).trans (getElem_wordBytes w h)

theorem Memory.read_writeWord_outside (m : Memory) (a : Nat) (w : Word) {b : Nat} (h : ¬ (a ≤ b ∧ b < a + 4)) :
    (m.writeWord a w).read b = m.read b :=
  Memory.read_writeBytes_outside m a (wordBytes w) h

/-- A word as the sum of its four bytes (rules R69 to R71). -/
theorem Memory.toNat_readWord (m : Memory) (a : Nat) : (m.readWord a).toNat =
    (m.read a).toNat + 2 ^ 8 * (m.read (a + 1)).toNat + 2 ^ 16 * (m.read (a + 2)).toNat + 2 ^ 24 * (m.read (a + 3)).toNat := by
  rw [Memory.readWord, toNat_append_eq_add, toNat_append_eq_add, toNat_append_eq_add]
  omega

/-- Lane j of a word read is byte j (rules R69 to R71, R75). -/
theorem Memory.extractLsb'_readWord (m : Memory) (a : Nat) {j : Nat} (h : j < 4) :
    (m.readWord a).extractLsb' (8 * j) 8 = m.read (a + j) := by
  have hword := m.toNat_readWord a
  have h0 := (m.read a).isLt
  have h1 := (m.read (a + 1)).isLt
  have h2 := (m.read (a + 2)).isLt
  have h3 := (m.read (a + 3)).isLt
  rw [extractLsb'_eq_iff]
  have hzero : (m.read (a + 0)).toNat = (m.read a).toNat := rfl
  interval_cases j <;> omega

/-! ### The writes other than to CMD -/

/-- What a write other than to CMD does is decided by its address alone: it is turned away, or stores to one of the four writable
targets (rules R62, R65 to R67). -/
theorem State.hostWrite_of_ne_cmd {a : Addr} (w : Word) (h : a ≠ 0x0000000#25) :
    (∀ s : State, s.hostWrite a w = .next (s.answerNoData .error)) ∨
    (∀ s : State, s.hostWrite a w = .next ({ s with inLen := w.extractLsb' 0 16 }.answerNoData .okay)) ∨
    (∀ s : State, s.hostWrite a w = .next ({ s with bitLen := w.extractLsb' 0 24 }.answerNoData .okay)) ∨
    (a.toNat % 4 = 0 ∧ (inSymIn a.toNat = true ∨ inBitbuf a.toNat = true) ∧ ∀ s : State,
      s.hostWrite a w = .next ({ s with mem := s.mem.writeWord a.toNat w }.answerNoData .okay)) := by
  by_cases aligned : Addr.aligned a = true
  · have haligned := (Addr.aligned_eq_true a).mp aligned
    have hcmd : Target.ofAddr a ≠ .reg .cmd := mt (Target.ofAddr_eq_cmd haligned) h
    have hbuffer := @Target.ofNat_eq_buffer a.toNat
    simp only [State.hostWrite, if_pos aligned, if_neg hcmd]
    cases htarget : Target.ofAddr a with
    | reg r =>
      cases r with
      | inLen => exact .inr (.inl fun _ => rfl)
      | bitLen => exact .inr (.inr (.inl fun _ => rfl))
      | _ => exact .inl fun _ => rfl
    | symIn b =>
      obtain ⟨rfl, inside⟩ := hbuffer (.inl htarget)
      exact .inr (.inr (.inr ⟨haligned, inside, fun _ => rfl⟩))
    | bitbuf b =>
      obtain ⟨rfl, inside⟩ := hbuffer (.inr htarget)
      exact .inr (.inr (.inr ⟨haligned, inside, fun _ => rfl⟩))
    | _ => exact .inl fun _ => rfl
  · exact .inl fun s => if_neg aligned

/-- Two equal writes in a row, each with the effect f, leave the block as one of them does, if f takes no input off the list and nothing of
the block that it leaves is changed by f again. -/
theorem step_write_twice {s : State} {rest : List HostInput} {a : Addr} {w : Word} {f : State → State}
    (hw : ∀ s : State, s.hostWrite a w = .next (f s)) (kept : ∀ s : State, (f s).pending = s.pending)
    (again : ∀ s : State, (f s).SameBlock (f ((f s).takeInput rest)))
    (h : s.pending = writeInput a w :: writeInput a w :: rest) :
    ∃ t u, step s = .next t ∧ step t = .next u ∧ t.SameBlock u :=
  ⟨_, _, (step_writeInput h).trans (hw _), (step_writeInput (kept _)).trans (hw _), again _⟩

/-- A byte stored below others can be stored after them. -/
theorem Memory.write_writeBytes (m : Memory) {a b : Nat} (v : Byte) (vs : List Byte) (h : a < b) :
    (m.writeBytes b vs).write a v = (m.write a v).writeBytes b vs := by
  induction vs generalizing m b with
  | nil => rfl
  | cons x xs ih =>
    have hswap : (m.write b x).write a v = (m.write a v).write b x := by simp [Memory.write, putCell_comm _ v x h]
    rw [Memory.writeBytes, ih _ (Nat.lt_succ_of_lt h), hswap, Memory.writeBytes]

/-- Storing the same bytes twice is storing them once. -/
theorem Memory.writeBytes_writeBytes (m : Memory) (a : Nat) (vs : List Byte) :
    (m.writeBytes a vs).writeBytes a vs = m.writeBytes a vs := by
  induction vs generalizing m a with
  | nil => rfl
  | cons v vs ih =>
    rw [Memory.writeBytes, Memory.writeBytes, Memory.write_writeBytes _ v vs (Nat.lt_succ_self a), Memory.write_write, ih]

theorem Memory.writeWord_writeWord (m : Memory) (a : Nat) (w : Word) : (m.writeWord a w).writeWord a w = m.writeWord a w :=
  m.writeBytes_writeBytes a (wordBytes w)

/-- A word stored to SYM_IN or BITBUF leaves SYM_OUT alone (rule R65). -/
theorem Memory.read_writeWord_of_inSymOut (m : Memory) {a b : Nat} (w : Word) (aligned : a % 4 = 0)
    (ha : inSymIn a = true ∨ inBitbuf a = true) (hb : inSymOut b = true) : (m.writeWord a w).read b = m.read b := by
  rw [inSymIn_eq_true, inBitbuf_eq_true] at ha
  rw [inSymOut_eq_true] at hb
  exact m.read_writeWord_outside a w (by omega)

/-! ### The bits of the stream -/

theorem getLsbD_setBit (v : Byte) {i j : Nat} (b : Bool) (hj : j < 8) :
    (setBit v i b).getLsbD j = if j = i then b else v.getLsbD j := by
  have hbit : (1#8 <<< i).getLsbD j = decide (j = i) := by
    rw [← BitVec.twoPow_eq, BitVec.getLsbD_twoPow]
    grind
  cases b with
  | false =>
    rw [setBit, if_neg Bool.false_ne_true, BitVec.getLsbD_and, BitVec.getLsbD_not, hbit, decide_eq_true hj]
    by_cases e : j = i <;> simp [e]
  | true =>
    rw [setBit, if_pos rfl, BitVec.getLsbD_or, hbit]
    by_cases e : j = i <;> simp [e]

/-- Two stream positions of the same byte are the same when they are the same bit of it (rule R72). -/
theorem streamBit_inj {j k : Nat} (hbyte : j / 8 = k / 8) : 7 - j % 8 = 7 - k % 8 ↔ j = k := by omega

/-! ## The statements on transactions and buffers -/

/-- Settles O11: the port turns a misaligned transaction away before it looks at its target. -/
theorem misalignedAccessIsAnError : Obligations.MisalignedAccessIsAnError :=
  fun _ _ _ _ _ misaligned h => step_refused h (.inl misaligned)

/-- Settles O12: an address in a gap of the map names nothing to read or to write. -/
theorem unmappedAccessIsAnError : Obligations.UnmappedAccessIsAnError := by
  intro s rest kind a d _ gap h
  refine step_refused h (.inr ?_)
  rw [Target.ofAddr, Target.ofNat_unmapped gap]
  exact Target.refuses_unmapped kind

/-- Settles O13: every read-only place refuses a write. -/
theorem readOnlyWriteIsAnError : Obligations.ReadOnlyWriteIsAnError := by
  intro s rest a d _ place h
  obtain ⟨hstep, same, answered⟩ := step_refused h (.inr (Target.writable_ofNat_readOnly place))
  exact ⟨hstep, same, _, answered⟩

/-- Settles O21: a read gives one of the two answers and changes nothing else. -/
theorem readsChangeNoState : Obligations.ReadsChangeNoState := by
  intro s rest a d h
  refine ⟨_, step_transaction h, (s.takeInput rest).hostRead_sameBlock a, ?_⟩
  obtain ⟨w, -, hr⟩ | hr := (s.takeInput rest).hostRead_cases a
  · rw [hr]
    exact ⟨rfl, _, rfl⟩
  · rw [hr]
    exact ⟨rfl, _, rfl⟩

/-- Settles O15: the address names its own buffer word, and the word's four bytes are stored there. -/
theorem bufferWriteStoresFourBytes : Obligations.BufferWriteStoresFourBytes := by
  intro s rest a w aligned range h
  rw [← ofNat_toNat_addr a] at h
  obtain ⟨notCmd, stores⟩ := (s.takeInput rest).writeTarget_buffer w range
  exact ⟨_, step_write h aligned a.isLt notCmd stores, rfl,
    fun j hj => s.mem.read_writeWord_inside a.toNat w hj, fun b hb => s.mem.read_writeWord_outside a.toNat w hb⟩

/-- Settles O16: the address names its own buffer word, and lane j of the word read is byte j. -/
theorem bufferReadLanes : Obligations.BufferReadLanes := by
  intro s rest a d aligned range h
  rw [← ofNat_toNat_addr a] at h
  have mapped : s.readTarget (Target.ofNat a.toNat) = some (s.mem.readWord a.toNat) :=
    s.readTarget_buffer (range.imp_right (.imp_right fun symOut => ⟨symOut, a.isLt⟩))
  exact ⟨_, step_read h aligned a.isLt mapped, fun j hj => s.mem.extractLsb'_readWord a.toNat hj⟩

/-- Settles O22: a read changes nothing; a write not to CMD stores to IN_LEN, BIT_LEN, SYM_IN or BITBUF, or nowhere. -/
theorem hostCannotWriteTables : Obligations.HostCannotWriteTables := by
  intro s rest ⟨kind, a, w⟩ h notCmd
  rw [step_transaction h]
  cases kind with
  | read =>
    obtain ⟨herr, hinfo, -, -, hout, hcnt, hroot, hnode, hfreq, hcode, hmem⟩ := (s.takeInput rest).hostRead_sameBlock a
    exact ⟨_, rfl, hfreq, hnode, hcnt, hroot, hcode, hout, herr, hinfo, fun b _ => by rw [hmem]; rfl⟩
  | write =>
    obtain hw | hw | hw | ⟨aligned, inside, hw⟩ := State.hostWrite_of_ne_cmd w fun ha => notCmd ⟨rfl, ha⟩
    · exact ⟨_, hw _, rfl, rfl, rfl, rfl, rfl, rfl, rfl, rfl, fun _ _ => rfl⟩
    · exact ⟨_, hw _, rfl, rfl, rfl, rfl, rfl, rfl, rfl, rfl, fun _ _ => rfl⟩
    · exact ⟨_, hw _, rfl, rfl, rfl, rfl, rfl, rfl, rfl, rfl, fun _ _ => rfl⟩
    · exact ⟨_, hw _, rfl, rfl, rfl, rfl, rfl, rfl, rfl, rfl,
        fun b hb => s.mem.read_writeWord_of_inSymOut w aligned inside hb⟩

/-- Settles O23: both writes do the same, and no store depends on what was stored before. -/
theorem writesAreIdempotent : Obligations.WritesAreIdempotent := by
  intro s rest a w notCmd h
  obtain hw | hw | hw | ⟨-, -, hw⟩ := State.hostWrite_of_ne_cmd w notCmd
  · exact step_write_twice hw (fun _ => rfl) (fun _ => by simp [State.SameBlock]) h
  · exact step_write_twice hw (fun _ => rfl) (fun _ => by simp [State.SameBlock]) h
  · exact step_write_twice hw (fun _ => rfl) (fun _ => by simp [State.SameBlock]) h
  · refine step_write_twice hw (fun _ => rfl) (fun u => ?_) h
    simp [State.SameBlock, u.mem.writeWord_writeWord]

/-- Settles O24: another position is in another byte or is another bit of the same byte. -/
theorem streamBitReadAfterWrite : Obligations.StreamBitReadAfterWrite := by
  intro m k j b _ _
  unfold Memory.bitGet Memory.bitPut
  by_cases hbyte : j / 8 = k / 8
  · have haddr : streamByteAddr j = streamByteAddr k := congrArg (Config.bitbufBase + ·) hbyte
    rw [haddr, Memory.read_write_self, getLsbD_setBit _ b (by omega)]
    simp only [streamBit_inj hbyte]
  · have haddr : streamByteAddr j ≠ streamByteAddr k := fun e => hbyte (Nat.add_left_cancel e)
    have hne : j ≠ k := fun e => hbyte (congrArg (· / 8) e)
    rw [Memory.read_write_of_ne _ _ haddr, if_neg hne]

end Sys2Proof.Machine

/-! ## The command words -/

namespace Sys2Proof.Machine

/-- The words of rule R94 by their fields. -/
theorem commandWordLegal_eq_false (w : Word) : commandWordLegal w = false ↔
    (w.extractLsb' 4 28 ≠ 0#28 ∨ (6 ≤ (w.extractLsb' 0 4).toNat ∧ (w.extractLsb' 0 4).toNat ≤ 14)) := by
  simp [commandWordLegal, zeroField, opcodeField, reservedOpcode, BitVec.le_def, or_iff_not_imp_left]

theorem commandWordLegal_encode (i : Instr) : commandWordLegal (encode i) = true := by
  cases i <;> rfl

theorem decode_encode (i : Instr) : decode (encode i) = .ok i := by
  cases i <;> rfl

/-- A word is its two fields (rule R90). -/
theorem toNat_eq_fields (w : Word) : w.toNat = 16 * (zeroField w).toNat + (opcodeField w).toNat := by
  have := w.isLt
  simp only [zeroField, opcodeField, BitVec.extractLsb'_toNat]
  omega

theorem encode_of_decode {w : Word} {i : Instr} (h : decode w = .ok i) : encode i = w := by
  have fields := toNat_eq_fields w
  apply BitVec.eq_of_toNat_eq
  rw [fields]
  unfold decode at h
  split at h
  · cases h
  · rename_i zero
    rw [not_not.mp zero]
    split at h <;> cases h
    all_goals
      rename_i opcode
      rw [opcode]
      rfl

/-- A word that decodes to nothing is one of rule R94. -/
theorem commandWordLegal_of_decode_error {w : Word} {e : DecodeError} (h : decode w = .error e) :
    commandWordLegal w = false := by
  rw [commandWordLegal_eq_false]
  unfold decode at h
  split at h
  · exact .inl ‹_›
  · have bound := (opcodeField w).isLt
    split at h <;> cases h
    exact .inr (show 6 ≤ (opcodeField w).toNat ∧ (opcodeField w).toNat ≤ 14 by grind)

/-- The decoder turns away exactly the words of rule R94. -/
theorem decode_eq_error_iff {w : Word} : (∃ e, decode w = .error e) ↔ commandWordLegal w = false := by
  constructor
  · rintro ⟨e, he⟩
    exact commandWordLegal_of_decode_error he
  · intro illegal
    cases h : decode w with
    | error e => exact ⟨e, rfl⟩
    | ok i =>
      rw [← encode_of_decode h, commandWordLegal_encode] at illegal
      cases illegal

theorem decodeTableWord_eq_some {nbits w : Nat} {i : Instr} (h : decodeTableWord nbits w = some i) :
    decode (tableWord nbits w) = .ok i := by
  unfold decodeTableWord at h
  split at h <;> cases h
  assumption

/-! ### Issuing a command -/

/-- A write to CMD is answered OKAY and issues its word (rules R68, R91). -/
theorem step_commandWrite {s : State} {rest : List HostInput} {w : Word}
    (h : s.pending = writeInput 0x0000000#25 w :: rest) : step s = issueCommand w (s.afterOkay rest) :=
  step_writeInput h

theorem issueCommand_of_ok {w : Word} {i : Instr} (h : decode w = .ok i) (s : State) : issueCommand w s = exec i s := by
  simp only [issueCommand, h]

theorem issueCommand_of_error {w : Word} {e : DecodeError} (h : decode w = .error e) (s : State) :
    issueCommand w s = execIllegal w s := by
  simp only [issueCommand, h]

/-- A faulted block does nothing for any word but CLEAR's (rules R91, R208). -/
theorem issueCommand_ignored {s : State} {w : Word} (fault : s.err ≠ 0#3) (notClear : w ≠ 0x0000000F#32) :
    issueCommand w s = .next s := by
  cases h : decode w with
  | ok i =>
    have hi : i ≠ .clear := fun hi => notClear (decode_eq_clear (hi ▸ h))
    rw [issueCommand_of_ok h, exec_of_fault fault hi]
  | error e => rw [issueCommand_of_error h, execIllegal, State.runCommand_of_fault _ fault]

/-- No command changes the answer to the last transaction (rule R91). -/
theorem exec_response {i : Instr} {s t : State} (h : exec i s = .next t) : t.response = s.response := by
  obtain rfl | c := exec_effect h
  · rfl
  · cases c <;> rfl

theorem issueCommand_response {w : Word} {s t : State} (h : issueCommand w s = .next t) : t.response = s.response := by
  cases hw : decode w with
  | ok i => exact exec_response ((issueCommand_of_ok hw s).symm.trans h)
  | error e =>
    obtain ⟨-, rfl⟩ | ⟨-, h⟩ := State.runCommand_cases ((issueCommand_of_error hw s).symm.trans h)
    · rfl
    · cases h; rfl

/-! ### The fault class of a command -/

/-- The ERR code of the one fault class of a command; 0 for a command that cannot fault (rules R92, R200). -/
def faultCode : Instr → BitVec 3
  | .buildTree => ErrClass.emptyInput.code
  | .buildCodes => ErrClass.invariantViolation.code
  | .encode => ErrClass.unknownSymbol.code
  | .decode => ErrClass.malformedBitstream.code
  | _ => 0#3

theorem exec_err {i : Instr} {s t : State} (notFaulted : s.err = 0#3) (h : exec i s = .next t) :
    t.err = 0#3 ∨ t.err = faultCode i := by
  obtain rfl | c := exec_effect h
  · exact .inl notFaulted
  · cases c with
    | emptyInput => exact .inr rfl
    | invariantViolation k => exact .inr rfl
    | unknownSymbol i x => exact .inr rfl
    | malformedBitstream e => exact .inr rfl
    | clear => exact .inl rfl
    | _ => exact .inl notFaulted

/-! ### The statements on the command words -/

/-- Settles O9: a command has one word, and the words without a command are those of rule R94. -/
theorem decodeAndEncodeAgree : Obligations.DecodeAndEncodeAgree :=
  ⟨fun i _ => decode_encode i, fun _ _ => encode_of_decode,
    fun w => decode_eq_error_iff.trans (commandWordLegal_eq_false w)⟩

/-- Settles O6: the fault is tested first, then the word. -/
theorem commandWriteCases : Obligations.CommandWriteCases := by
  intro s rest w h
  rw [step_commandWrite h, ← commandWordLegal_eq_false]
  refine ⟨?_, issueCommand_ignored (s := s.afterOkay rest), ?_, ?_, ?_⟩
  · rintro - rfl
    exact issueCommand_of_ok (decode_encode .clear) _
  · intro notFaulted illegal
    obtain ⟨e, he⟩ := decode_eq_error_iff.mpr illegal
    rw [issueCommand_of_error he, execIllegal, State.runCommand_of_ok (s := s.afterOkay rest) _ notFaulted]
    rfl
  · intro _ upper opcode
    cases hw : decode w with
    | ok i => exact ⟨i, encode_of_decode hw, issueCommand_of_ok hw _⟩
    | error e =>
      have illegal := (commandWordLegal_eq_false w).mp (commandWordLegal_of_decode_error hw)
      exact absurd illegal (not_or.mpr ⟨not_not.mpr upper, opcode⟩)
  · intro t ht
    exact ⟨_, issueCommand_response ht⟩

/-- Settles O7: a CMD write issues its word, and issuing a word that decodes is exec of its command. -/
theorem stepRunsTheDecodedCommand : Obligations.StepRunsTheDecodedCommand := by
  refine ⟨fun s rest w i h hw => (step_commandWrite h).trans (issueCommand_of_ok hw _), fun s w i hw => ?_⟩
  have input : (s.withFetchWord 32 w).pending = writeInput 0x0000000#25 (tableWord 32 w) :: s.pending := rfl
  exact (step_commandWrite input).trans (issueCommand_of_ok (decodeTableWord_eq_some hw) _)

/-- Settles O8: the seven words are the encodings of their commands; the other four are turned away by their fields. -/
theorem opcodeTableWordsDecode : Obligations.OpcodeTableWordsDecode :=
  ⟨decode_encode .nop, decode_encode .freq, decode_encode .buildTree, decode_encode .buildCodes, decode_encode .encode,
    decode_encode .decode, decode_encode .clear, rfl, rfl, rfl, rfl⟩

/-- Settles O53: each way a command can end keeps ERR, makes it 0 or raises the command's own fault class. -/
theorem eachCommandHasOneFaultClass : Obligations.EachCommandHasOneFaultClass :=
  fun _ _ ok => ⟨fun h => (exec_err ok h).elim id id, fun h => (exec_err ok h).elim id id,
    fun h => (exec_err ok h).elim id id, exec_err ok, exec_err ok, exec_err ok, exec_err ok⟩

end Sys2Proof.Machine

/-! ## LOADSYM -/

namespace Sys2Proof.Machine

/-! ### Runs of host writes -/

theorem run_succ_of_step (M : Host.Core) {s t : M.State} (h : M.step s = .next t) (k : Nat) :
    M.run (k + 1) s = M.run k t := by
  rw [Host.Core.run, h]

theorem Memory.writeBytes_append (m : Memory) (a : Nat) (xs ys : List Byte) :
    m.writeBytes a (xs ++ ys) = (m.writeBytes a xs).writeBytes (a + xs.length) ys := by
  induction xs generalizing m a with
  | nil => rfl
  | cons x xs ih => rw [List.cons_append, Memory.writeBytes, ih, List.length_cons, Nat.add_assoc, Nat.add_comm 1]; rfl

/-- The lines that store words to SYM_IN, the first at word k (rule R97). -/
def storeLines (k : Nat) (ws : List Word) : List Line := (ws.zipIdx k).map fun x => .wr (.symIn (4 * x.2)) x.1

theorem loadSym_eq (bytes : List Byte) :
    loadSym bytes = storeLines 0 (packWords bytes) ++ [.wr (.reg .inLen) (BitVec.ofNat 32 bytes.length)] := rfl

theorem length_loadSym (bytes : List Byte) : (loadSym bytes).length = (packWords bytes).length + 1 := by
  simp [loadSym]

/-- The state after a transaction that stores a word in a buffer (rule R65). -/
def State.afterStore (s : State) (rest : List HostInput) (a : Nat) (w : Word) : State :=
  { s.takeInput rest with mem := s.mem.writeWord a w }.answerNoData .okay

theorem step_storeSymIn {s : State} {rest : List HostInput} {k : Nat} {w : Word} (inside : 4 * k < 0x10000)
    (h : s.pending = writeInput (BitVec.ofNat 25 (0x10000 + 4 * k)) w :: rest) :
    step s = .next (s.afterStore rest (0x10000 + 4 * k) w) := by
  obtain ⟨notCmd, stores⟩ := (s.takeInput rest).writeTarget_buffer w (n := 0x10000 + 4 * k) (.inl (by omega))
  exact step_write h (by omega) (by omega) notCmd stores

/-- The lines that store words to SYM_IN run to the end and store the words' bytes one after another (rules R65, R69). -/
theorem run_storeLines {s : State} {rest : List HostInput} (k : Nat) (ws : List Word)
    (inside : 4 * (k + ws.length) ≤ 0x10000) (h : s.pending = scriptInputs (storeLines k ws) ++ rest) :
    ∃ t : State, (∀ n, Host.Core.run core (ws.length + n) s = Host.Core.run core n t) ∧
      t = { s with
        mem := s.mem.writeBytes (Config.symInBase + 4 * k) (ws.flatMap wordBytes),
        pending := rest, response := t.response, freeCtr := t.freeCtr } := by
  induction ws generalizing s k with
  | nil =>
    have hrest : s.pending = rest := h
    exact ⟨s, fun n => by rw [List.length_nil, Nat.zero_add], by rw [← hrest]; rfl⟩
  | cons w ws ih =>
    rw [List.length_cons] at inside
    have hstep := step_storeSymIn (w := w) (rest := scriptInputs (storeLines (k + 1) ws) ++ rest) (by omega) h
    obtain ⟨t, hrun, ht⟩ := ih (s := s.afterStore _ (0x10000 + 4 * k) w) (k + 1) (by omega) rfl
    refine ⟨t, fun n => ?_, ?_⟩
    · rw [List.length_cons, Nat.add_right_comm, run_succ_of_step core hstep, hrun]
    · rw [List.flatMap_cons, Memory.writeBytes_append]
      exact ht

/-! ### The bytes of packed words -/

/-- The bytes of a word made of four bytes (rules R69, R71). -/
theorem wordBytes_append (a b c d : Byte) : wordBytes (d ++ c ++ b ++ a) = [a, b, c, d] := by
  have word : (d ++ c ++ b ++ a).toNat = a.toNat + 2 ^ 8 * b.toNat + 2 ^ 16 * c.toNat + 2 ^ 24 * d.toNat := by
    rw [toNat_append_eq_add, toNat_append_eq_add, toNat_append_eq_add]
    omega
  have ha := a.isLt
  have hb := b.isLt
  have hc := c.isLt
  have hd := d.isLt
  simp only [wordBytes, List.cons.injEq, extractLsb'_eq_iff, and_true]
  refine ⟨?_, ?_, ?_, ?_⟩ <;> omega

/-- Packing a list four at a time and taking the packs apart again lists it in order. -/
theorem flatMap_range_four {α : Type} (f : Nat → α) (n : Nat) :
    (List.range n).flatMap (fun w => [f (4 * w), f (4 * w + 1), f (4 * w + 2), f (4 * w + 3)]) =
      (List.range (4 * n)).map f := by
  induction n with
  | zero => rfl
  | succ n ih => simp [List.range_succ, ih, Nat.mul_succ]

@[simp] theorem length_packWords (bytes : List Byte) : (packWords bytes).length = (bytes.length + 3) / 4 := by
  simp [packWords]

/-- The bytes of packed words are the packed bytes in order, and 0x00 after them (rules R69, R97). -/
theorem flatMap_wordBytes_packWords (bytes : List Byte) : (packWords bytes).flatMap wordBytes =
    (List.range (4 * ((bytes.length + 3) / 4))).map (fun i => bytes.getD i 0#8) := by
  rw [← flatMap_range_four, packWords, List.flatMap_map]
  simp only [wordBytes_append]

/-- The bytes stored by the words of LOADSYM, read back (rules R69, R97). -/
theorem Memory.read_writeBytes_packWords (m : Memory) (a : Nat) (bytes : List Byte) {i : Nat} (h : i < bytes.length) :
    (m.writeBytes a ((packWords bytes).flatMap wordBytes)).read (a + i) = bytes.getD i 0#8 := by
  rw [flatMap_wordBytes_packWords, Memory.read_writeBytes_inside _ _ _ (by simp; omega)]
  simp

/-! ### The statement on LOADSYM -/

/-- Settles O25: the words are stored one after another, and then the number of bytes to IN_LEN. -/
theorem loadsymLoadsTheInput : Obligations.LoadsymLoadsTheInput := by
  intro s rest bytes hlen h
  rw [loadSym_eq, scriptInputs, List.map_append, List.append_assoc] at h
  obtain ⟨t, hrun, ht⟩ := run_storeLines 0 (packWords bytes) (by rw [length_packWords]; omega) h
  have last : t.pending = writeInput 0x000000C#25 (BitVec.ofNat 32 bytes.length) :: rest := congrArg State.pending ht
  have hstep := (lengthRegisterWrites t rest _).1 last
  have hmem : t.mem = s.mem.writeBytes Config.symInBase ((packWords bytes).flatMap wordBytes) := congrArg State.mem ht
  rw [length_loadSym]
  refine ⟨_, (hrun 1).trans (run_succ_of_step core hstep 0), ?_, ?_, fun i hi => ?_, fun a outside => ?_⟩
  · rw [ht]
    rfl
  · simp only [BitVec.extractLsb'_toNat, BitVec.toNat_ofNat]
    omega
  · exact (congrArg (·.read (Config.symInBase + i)) hmem).trans (s.mem.read_writeBytes_packWords _ bytes hi)
  · refine (congrArg (·.read a) hmem).trans (Memory.read_writeBytes_outside _ _ _ ?_)
    rw [Bool.eq_false_iff, ne_eq, inSymIn_eq_true] at outside
    rw [flatMap_wordBytes_packWords, List.length_map, List.length_range, Config.symInBase]
    omega

end Sys2Proof.Machine

/-! ## FREQ -/

namespace Sys2Proof.Machine

theorem countOne_at (t : FreqTable) (x y : Symbol) :
    (countOne t x).at y = t.at y + BitVec.ofNat 16 (if x = y then 1 else 0) := by
  by_cases h : x = y
  · subst h
    simp [countOne]
  · simp [countOne, FreqTable.at_put_of_ne _ _ (Ne.symm h), h]

theorem foldl_countOne_at (t : FreqTable) (xs : List Symbol) (y : Symbol) :
    (xs.foldl countOne t).at y = t.at y + BitVec.ofNat 16 (xs.count y) := by
  induction xs generalizing t with
  | nil => simp
  | cons x xs ih =>
    simp only [List.foldl_cons, ih, countOne_at, List.count_cons, beq_iff_eq, BitVec.ofNat_add]
    rw [BitVec.add_assoc, BitVec.add_comm (BitVec.ofNat 16 (xs.count y))]

/-- No count of an input that IN_LEN can describe wraps (rule R110). -/
theorem countSymbols_at_toNat {xs : List Symbol} (short : xs.length < 2 ^ 16) (x : Symbol) :
    ((countSymbols xs).at x).toNat = xs.count x := by
  have hcount : xs.count x < 2 ^ 16 := List.count_le_length.trans_lt short
  rw [countSymbols, foldl_countOne_at, FreqTable.at_empty, BitVec.zero_add, BitVec.toNat_ofNat, Nat.mod_eq_of_lt hcount]

theorem State.count_input (s : State) (x : Symbol) :
    s.input.count x = ((List.range s.inLen.toNat).filter (fun i => s.symIn i == x)).length := by
  rw [State.input, List.count, List.countP_map, List.countP_eq_length_filter]
  rfl

theorem exec_freq_of_ok {s : State} (ok : s.err = 0#3) : exec .freq s = .next { s with freq := countSymbols s.input } := by
  rw [exec, execFreq, State.runCommand_of_ok _ ok]

/-- Settles O26: the fold adds one for each occurrence and cannot wrap, and the input it reads is no part of what it writes. -/
theorem freqCountsTheInput : Obligations.FreqCountsTheInput := by
  refine ⟨fun s ok => ⟨_, exec_freq_of_ok ok, rfl, fun x => ?_, exec_freq_of_ok ok⟩, fun s fault => exec_of_fault fault nofun⟩
  have short : s.input.length < 2 ^ 16 := s.length_input ▸ s.inLen.isLt
  rw [← s.count_input, ← countSymbols_at_toNat short]

end Sys2Proof.Machine

/-! ## BUILD_TREE -/

namespace Sys2Proof.Machine

theorem FreqTable.mem_keys {t : FreqTable} {x : Symbol} : x ∈ t.keys ↔ 0 < (t.at x).toNat := by
  have listed : x ∈ (List.range 256).map (BitVec.ofNat 8) :=
    List.mem_map.mpr ⟨x.toNat, List.mem_range.mpr x.isLt, by simp⟩
  simp [FreqTable.keys, List.mem_filter, listed, Nat.pos_iff_ne_zero, ← BitVec.toNat_inj]

theorem FreqTable.length_keys (t : FreqTable) : t.keys.length = t.keyCount := by
  rw [FreqTable.keys, List.filter_map, List.length_map, FreqTable.keyCount]
  congr 2
  funext i
  simp [Nat.pos_iff_ne_zero, ← BitVec.toNat_inj, bne, Bool.beq_eq_decide_eq]

/-- The state that BUILD_TREE leaves when there is a key (rule R120). -/
def State.builtTree (s : State) : State := { s with
  node := builtArena s.freq,
  nodeCnt := BitVec.ofNat 10 (2 * s.freq.keys.length - 1),
  root := BitVec.ofNat 9 (2 * s.freq.keys.length - 2) }

theorem exec_buildTree_of_noKey {s : State} (ok : s.err = 0#3) (noKey : s.freq.keys.length = 0) :
    exec .buildTree s = .next (s.raise .emptyInput 0#32 .tree) := by
  rw [exec, execBuildTree, State.runCommand_of_ok _ ok, if_pos noKey]

theorem exec_buildTree_of_key {s : State} (ok : s.err = 0#3) (key : s.freq.keys.length ≠ 0) :
    exec .buildTree s = .next s.builtTree := by
  rw [exec, execBuildTree, State.runCommand_of_ok _ ok, if_neg key]
  rfl

/-- BUILD_TREE over at least one key, counts that do not overflow, holds a tree (rules R41, R128). -/
theorem State.builtTree_holdsTree {s : State} (bounded : s.FreqBounded) (key : 0 < s.freq.keys.length) :
    s.builtTree.HoldsTree s.freq.keys.length :=
  ⟨builtArena_isTree bounded key, rfl, rfl⟩

/-- The first nodes of the built arena are the leaves of the keys (rule R123). -/
theorem builtArena_leaf {t : FreqTable} (bounded : t.total ≤ Config.inMax) {k : Nat} (h : k < t.keys.length) :
    (builtArena t).at k = leafOf t t.keys[k] := by
  obtain ⟨m, harena, hi, -⟩ := mergeAll_startMerging bounded (Nat.zero_lt_of_lt h)
  rw [← harena, hi.leaves k h]

/-! ### The order of the merges -/

/-- A property that every merge keeps holds at the end of the merge loop. -/
theorem mergeAll_keeps {P : Merging → Prop} (keeps : ∀ m m', mergeOnce m = some m' → P m → P m') (fuel : Nat) {m : Merging}
    (h : P m) : P (mergeAll fuel m) := by
  induction fuel generalizing m with
  | zero => exact h
  | succ fuel ih =>
    rw [mergeAll]
    split
    · exact h
    · exact ih (keeps _ _ ‹_› h)

/-- Node k and the collection it is made of are the same in two arenas that agree up to k. -/
theorem NodeArena.MadeOfLowest.congr {t u : NodeArena} {n k : Nat} (h : t.MadeOfLowest n k) (same : ∀ i ≤ k, u.at i = t.at i) :
    u.MadeOfLowest n k := by
  have queue (i : Nat) : u.inQueue n k i ↔ t.inQueue n k i :=
    and_congr_right fun _ => forall₂_congr fun j hj => by rw [NodeArena.hasChild, same j hj.le]
  have before {a b : Nat} (ha : a < k) (hb : b < k) : u.before a b ↔ t.before a b := by
    rw [NodeArena.before, same a ha.le, same b hb.le]
  obtain ⟨left, right, differ, first, second⟩ := h
  constructor <;> rw [same k le_rfl]
  case left => exact (queue _).mpr left
  case right => exact (queue _).mpr right
  case differ => exact differ
  case first => exact fun i hi hq hl => (before left.1 hi).mpr (first i hi ((queue i).mp hq) hl)
  case second => exact fun i hi hq hl hr => (before right.1 hi).mpr (second i hi ((queue i).mp hq) hl hr)

/-- Every internal node made so far was made of the two lowest of the collection of its time. -/
def Merging.MadeInOrder (n : Nat) (m : Merging) : Prop := ∀ k < m.free, n ≤ k → m.arena.MadeOfLowest n k

/-- The node that a merge of the two lowest makes (rules R122, R124). -/
theorem Merging.Inv.madeOfLowest_merged_free {t : FreqTable} {m : Merging} (hi : m.Inv t) {a b : Nat} (ha : a ∈ m.queue)
    (hb : b ∈ m.queue) (hab : a ≠ b) (lowest : ∀ c ∈ m.queue, c = a ∨ m.arena.before a c)
    (next : ∀ c ∈ m.queue.erase a, c = b ∨ m.arena.before b c) :
    (m.merged a b).arena.MadeOfLowest t.keys.length m.free := by
  have hfree := hi.free_lt ha hb hab
  have hal := hi.mem_queue_lt ha
  have hbl := hi.mem_queue_lt hb
  have made : (m.merged a b).arena.at m.free = internalOf m.arena a b := m.arena.at_put_self _ hfree
  have left : ((m.merged a b).arena.at m.free).left.toNat = a := by
    rw [made]; exact Nat.mod_eq_of_lt (by omega)
  have right : ((m.merged a b).arena.at m.free).right.toNat = b := by
    rw [made]; exact Nat.mod_eq_of_lt (by omega)
  have queue (c : Nat) : (m.merged a b).arena.inQueue t.keys.length m.free c ↔ c ∈ m.queue := by
    rw [hi.queue c]
    exact and_congr_right fun _ => forall₂_congr fun j hj => by rw [NodeArena.hasChild, m.merged_at_of_ne a b hj.ne]
  have before {c d : Nat} (hc : c < m.free) (hd : d < m.free) : (m.merged a b).arena.before c d ↔ m.arena.before c d := by
    rw [NodeArena.before, m.merged_at_of_ne a b hc.ne, m.merged_at_of_ne a b hd.ne]
  constructor
  case left => rw [left]; exact (queue a).mpr ha
  case right => rw [right]; exact (queue b).mpr hb
  case differ => exact fun e => hab (left.symm.trans ((congrArg BitVec.toNat e).trans right))
  case first =>
    rw [left]
    exact fun i hi' hq hne => (before hal hi').mpr ((lowest i ((queue i).mp hq)).resolve_left hne)
  case second =>
    rw [left, right]
    intro i hi' hq hne hne'
    have hmem := hi.nodup.mem_erase_iff.mpr ⟨hne, (queue i).mp hq⟩
    exact (before hbl hi').mpr ((next i hmem).resolve_left hne')

theorem mergeOnce_madeInOrder {t : FreqTable} {m m' : Merging} (hi : m.Inv t) (made : m.MadeInOrder t.keys.length)
    (h : mergeOnce m = some m') : m'.MadeInOrder t.keys.length := by
  obtain ⟨a, b, ha, hb, lowest, next, rfl⟩ := mergeOnce_eq_some h
  obtain ⟨hba, hb⟩ := hi.nodup.mem_erase_iff.mp hb
  intro k hk hn
  rcases Nat.lt_succ_iff_lt_or_eq.mp hk with hk | rfl
  · exact (made k hk hn).congr fun i hik => m.merged_at_of_ne a b (hik.trans_lt hk).ne
  · exact hi.madeOfLowest_merged_free ha hb hba.symm lowest next

/-- Every internal node of the built arena was made of the two lowest (rules R122, R124). -/
theorem builtArena_madeOfLowest {t : FreqTable} (bounded : t.total ≤ Config.inMax) (key : 0 < t.keys.length) {k : Nat}
    (hk : k < 2 * t.keys.length - 1) (hn : t.keys.length ≤ k) : (builtArena t).MadeOfLowest t.keys.length k := by
  have start : (startMerging t).Inv t ∧ (startMerging t).MadeInOrder t.keys.length :=
    ⟨startMerging_inv key, fun _ hlt hle => absurd hlt (Nat.not_lt.mpr hle)⟩
  have keeps (m m' : Merging) (h : mergeOnce m = some m') (hm : m.Inv t ∧ m.MadeInOrder t.keys.length) :
      m'.Inv t ∧ m'.MadeInOrder t.keys.length :=
    ⟨(mergeOnce_inv hm.1 bounded h).1, mergeOnce_madeInOrder hm.1 hm.2 h⟩
  obtain ⟨-, made⟩ := mergeAll_keeps keeps t.keys.length start
  obtain ⟨hi, hlen⟩ := mergeAll_inv bounded t.keys.length start.1 (by simp [startMerging])
  have hcount := hi.count
  exact made k (by omega) hn

/-! ### The statements on BUILD_TREE -/

/-- Settles O28: an empty table has no key, and the fault makes the tree invalid. -/
theorem buildTreeOfEmptyTableFaults : Obligations.BuildTreeOfEmptyTableFaults := by
  intro s ok empty
  have noKey : s.freq.keys = [] := List.eq_nil_iff_forall_not_mem.mpr fun x hx => FreqTable.at_ne_zero_of_mem_keys hx (empty x)
  exact ⟨_, exec_buildTree_of_noKey ok (congrArg List.length noKey), rfl, rfl, State.nodeWord_of_noTree rfl⟩

/-- Settles O29: the merge loop leaves a tree whose first nodes are the leaves of the keys. -/
theorem buildTreeBuildsATree : Obligations.BuildTreeBuildsATree := by
  intro s ok bounded key
  rw [← s.freq.length_keys] at key ⊢
  have tree := State.builtTree_holdsTree bounded key
  refine ⟨_, exec_buildTree_of_key ok (Nat.ne_of_gt key), rfl, tree, fun x => ?_, ?_⟩
  · rw [← FreqTable.mem_keys, List.mem_iff_getElem]
    refine exists_congr fun k => ⟨?_, ?_⟩
    · rintro ⟨hk, rfl⟩
      have leaf : s.builtTree.node.at k = leafOf s.freq s.freq.keys[k] := builtArena_leaf bounded hk
      exact ⟨hk, congrArg NodeRec.sym leaf, congrArg NodeRec.weight leaf⟩
    · rintro ⟨hk, hsym, -⟩
      exact ⟨hk, (congrArg NodeRec.sym (builtArena_leaf bounded hk)).symm.trans hsym⟩
  · rw [tree.root_toNat, tree.tree.rootWeight]
    exact sum_leaf_weights fun _ => builtArena_leaf bounded

/-- Settles O30: the merge loop extracts the lowest twice, and no later merge changes the node it makes. -/
theorem buildTreeMergesTheTwoLowest : Obligations.BuildTreeMergesTheTwoLowest := by
  intro s ok bounded key
  rw [← s.freq.length_keys] at key ⊢
  exact ⟨_, exec_buildTree_of_key ok (Nat.ne_of_gt key), fun k hk hn => builtArena_madeOfLowest bounded key hk hn⟩

/-! ### Building again -/

theorem State.raise_err_ne (s : State) (e : ErrClass) (info : Word) (out : OutputObject) : (s.raise e info out).err ≠ 0#3 :=
  s.raise_err e info out ▸ e.code_range.1

/-- BUILD_CODES does not read CODE (rule R140). -/
theorem exec_buildCodes_withCode {s : State} (ok : s.err = 0#3) (c : CodeTable) :
    exec .buildCodes { s with code := c } = exec .buildCodes s := by
  rw [exec, exec, execBuildCodes, execBuildCodes, State.runCommand_of_ok _ ok,
    State.runCommand_of_ok (s := { s with code := c }) _ ok]
  rfl

/-- BUILD_CODES writes no part of what it reads (rule R147). -/
theorem exec_buildCodes_again {s t : State} (ok : s.err = 0#3) (h : exec .buildCodes s = .next t) :
    exec .buildCodes t = .next t := by
  obtain rfl | c := exec_effect h
  · exact h
  · cases c with
    | invariantViolation k => exact exec_of_fault (s.raise_err_ne _ _ _) nofun
    | codes c => rw [exec_buildCodes_withCode ok, h]

/-- Settles O36: neither command writes a part of what it reads, and a block that it leaves faulted ignores it. -/
theorem rebuildingGivesTheSame : Obligations.RebuildingGivesTheSame := by
  refine ⟨fun s ok => ?_, fun s n ok tree => ?_⟩
  · by_cases noKey : s.freq.keys.length = 0
    · exact ⟨_, exec_buildTree_of_noKey ok noKey, rfl, exec_of_fault (s.raise_err_ne _ _ _) nofun⟩
    · exact ⟨_, exec_buildTree_of_key ok noKey, rfl, exec_buildTree_of_key (s := s.builtTree) ok noKey⟩
  · obtain ⟨t, h⟩ := exec_completes .buildCodes (.inr ⟨n, tree⟩)
    refine ⟨t, h, ?_, exec_buildCodes_again ok h⟩
    obtain ⟨-, -, -, -, -, htree, -⟩ := commandsWriteOnlyTheirOutput .buildCodes s t nofun h
    obtain ⟨hnode, hcnt, hroot⟩ := htree nofun
    exact ⟨hnode ▸ tree.tree, hcnt.trans tree.cnt, hroot.trans tree.root⟩

end Sys2Proof.Machine

/-! ## Depths that fill a binary tree

The depths of the leaves of a binary tree are known by Kraft's sum alone, so that depths can be exchanged and merged as numbers,
without taking trees apart. -/

namespace Sys2Proof.Machine

/-- The depths of some nodes are those of all the leaves of a binary tree: Kraft's sum is 1. -/
def FillsTree (S : Finset ℕ) (d : ℕ → ℕ) : Prop := ∑ c ∈ S, (1 / 2 : ℚ) ^ d c = 1

/-- The sum of weight times depth over some nodes (rule R129). -/
def weightedDepth (w d : ℕ → ℕ) (S : Finset ℕ) : ℕ := ∑ c ∈ S, w c * d c

theorem sum_eq_add_add_erase {M : Type} [AddCommMonoid M] (f : ℕ → M) {S : Finset ℕ} {a b : ℕ} (ha : a ∈ S) (hb : b ∈ S)
    (hab : a ≠ b) : ∑ c ∈ S, f c = f a + (f b + ∑ c ∈ (S.erase a).erase b, f c) := by
  rw [Finset.add_sum_erase _ f (Finset.mem_erase.mpr ⟨hab.symm, hb⟩), Finset.add_sum_erase _ f ha]

/-- A sum over the nodes that are left when a parent k at depth e takes the place of its children a and b. -/
theorem sum_parent {M : Type} [AddCommMonoid M] (f : ℕ → ℕ → M) (d : ℕ → ℕ) {S : Finset ℕ} {a b k : ℕ} (hk : k ∉ S) (e : ℕ) :
    ∑ c ∈ insert k ((S.erase a).erase b), f c (Function.update d k e c) = f k e + ∑ c ∈ (S.erase a).erase b, f c (d c) := by
  have hk' : k ∉ (S.erase a).erase b := fun h => hk (Finset.mem_of_mem_erase (Finset.mem_of_mem_erase h))
  rw [Finset.sum_insert hk', Function.update_self]
  congr 1
  refine Finset.sum_congr rfl fun c hc => ?_
  rw [Function.update_of_ne (ne_of_mem_of_not_mem hc hk')]

/-- Kraft's sum over the common denominator of a bound on the depths. -/
theorem FillsTree.sum_pow {S : Finset ℕ} {d : ℕ → ℕ} (h : FillsTree S d) {D : ℕ} (hD : ∀ c ∈ S, d c ≤ D) :
    ∑ c ∈ S, 2 ^ (D - d c) = 2 ^ D := by
  have cast : ∑ c ∈ S, (2 : ℚ) ^ (D - d c) = 2 ^ D := by
    calc ∑ c ∈ S, (2 : ℚ) ^ (D - d c) = ∑ c ∈ S, 2 ^ D * (1 / 2 : ℚ) ^ d c :=
          Finset.sum_congr rfl fun c hc => by rw [pow_sub₀ _ two_ne_zero (hD c hc), one_div, inv_pow]
      _ = 2 ^ D := by rw [← Finset.mul_sum, show ∑ c ∈ S, (1 / 2 : ℚ) ^ d c = 1 from h, mul_one]
  exact_mod_cast cast

/-- The deepest leaves of a binary tree come in pairs: the other terms of Kraft's sum are even. -/
theorem FillsTree.exists_deepest {S : Finset ℕ} {d : ℕ → ℕ} (h : FillsTree S d) (hS : S.Nontrivial) :
    ∃ x ∈ S, ∃ y ∈ S, y ≠ x ∧ d y = d x ∧ 0 < d x ∧ ∀ c ∈ S, d c ≤ d x := by
  obtain ⟨x, hx, deepest⟩ := S.exists_max_image d hS.nonempty
  have hsum := h.sum_pow deepest
  have pos : 0 < d x := by
    by_contra hzero
    have hcard := Finset.one_lt_card_iff_nontrivial.mpr hS
    simp [Nat.eq_zero_of_not_pos hzero] at hsum
    omega
  by_contra hnone
  have even : Even (∑ c ∈ S.erase x, 2 ^ (d x - d c)) := by
    refine Finset.even_sum _ fun c hc => ?_
    obtain ⟨hne, hc⟩ := Finset.mem_erase.mp hc
    have hlt : d c < d x := (deepest c hc).lt_of_ne fun e => hnone ⟨x, hx, c, hc, hne, e, pos, deepest⟩
    exact Nat.even_pow.mpr ⟨even_two, by omega⟩
  rw [← Finset.add_sum_erase _ _ hx, Nat.sub_self, pow_zero] at hsum
  have odd : Odd (2 ^ d x) := hsum ▸ even.one_add
  exact Nat.not_odd_iff_even.mpr (Nat.even_pow.mpr ⟨even_two, pos.ne'⟩) odd

section
variable {S : Finset ℕ} {d w : ℕ → ℕ} {a x : ℕ} (ha : a ∈ S) (hx : x ∈ S)
include ha hx

theorem FillsTree.swap (h : FillsTree S d) : FillsTree S (d ∘ Equiv.swap a x) := by
  have inside : {c | Equiv.swap a x c ≠ c} ⊆ (S : Set ℕ) := by
    intro c hc
    obtain ⟨-, rfl | rfl⟩ := Equiv.swap_apply_ne_self_iff.mp hc
    · exact ha
    · exact hx
  exact (Equiv.Perm.sum_comp (Equiv.swap a x) S (fun c => (1 / 2 : ℚ) ^ d c) inside).trans h

/-- To give the lighter of two nodes the greater depth costs nothing. -/
theorem weightedDepth_swap_le (hw : w a ≤ w x) (hd : d a ≤ d x) :
    weightedDepth w (d ∘ Equiv.swap a x) S ≤ weightedDepth w d S := by
  by_cases hax : a = x
  · simp [hax]
  have others : ∑ c ∈ (S.erase a).erase x, w c * (d ∘ Equiv.swap a x) c = ∑ c ∈ (S.erase a).erase x, w c * d c := by
    refine Finset.sum_congr rfl fun c hc => ?_
    obtain ⟨hcx, hc⟩ := Finset.mem_erase.mp hc
    rw [Function.comp_apply, Equiv.swap_apply_of_ne_of_ne (Finset.ne_of_mem_erase hc) hcx]
  have two := mul_add_mul_le_mul_add_mul hw hd
  rw [weightedDepth, weightedDepth, sum_eq_add_add_erase _ ha hx hax, sum_eq_add_add_erase _ ha hx hax, others]
  simp only [Function.comp_apply, Equiv.swap_apply_left, Equiv.swap_apply_right]
  omega

end

section
variable {S : Finset ℕ} {d w : ℕ → ℕ} {a b k : ℕ} (ha : a ∈ S) (hb : b ∈ S) (hab : a ≠ b)
include ha hb hab

/-- The two lightest nodes can be made siblings at the greatest depth, and the sum does not grow. -/
theorem FillsTree.exists_siblings (h : FillsTree S d) (lowest : ∀ c ∈ S, w a ≤ w c) (next : ∀ c ∈ S, c ≠ a → w b ≤ w c) :
    ∃ d', FillsTree S d' ∧ weightedDepth w d' S ≤ weightedDepth w d S ∧ 0 < d' a ∧ d' b = d' a := by
  obtain ⟨x, hx, y, hy, hyx, same, pos, deepest⟩ := h.exists_deepest ⟨a, ha, b, hb, hab⟩
  have swap_mem {c : ℕ} (hc : c ∈ S) : Equiv.swap a x c ∈ S := by
    rw [Equiv.swap_apply_def]
    split_ifs <;> assumption
  have hz := swap_mem hy
  have hza : Equiv.swap a x y ≠ a := fun e => hyx ((Equiv.swap_apply_eq_iff.mp e).trans (Equiv.swap_apply_left a x))
  have first := weightedDepth_swap_le (w := w) ha hx (lowest x hx) (deepest a ha)
  have second : weightedDepth w ((d ∘ Equiv.swap a x) ∘ Equiv.swap b (Equiv.swap a x y)) S ≤
      weightedDepth w (d ∘ Equiv.swap a x) S := by
    refine weightedDepth_swap_le hb hz (next _ hz hza) ?_
    simpa [same] using deepest _ (swap_mem hb)
  refine ⟨_, (h.swap ha hx).swap hb hz, second.trans first, ?_, ?_⟩
  · simpa [Equiv.swap_apply_of_ne_of_ne hab hza.symm] using pos
  · simpa [Equiv.swap_apply_of_ne_of_ne hab hza.symm] using same

/-- Two siblings give way to their parent, one level up. -/
theorem FillsTree.parent (h : FillsTree S d) (hk : k ∉ S) {e : ℕ} (hda : d a = e + 1) (hdb : d b = e + 1) :
    FillsTree (insert k ((S.erase a).erase b)) (Function.update d k e) := by
  rw [FillsTree, sum_eq_add_add_erase _ ha hb hab, hda, hdb] at h
  rw [FillsTree, sum_parent (fun _ i => (1 / 2 : ℚ) ^ i) d hk]
  refine Eq.trans ?_ h
  ring

theorem weightedDepth_parent (hk : k ∉ S) {e : ℕ} (hda : d a = e + 1) (hdb : d b = e + 1) (hw : w k = w a + w b) :
    weightedDepth w d S = weightedDepth w (Function.update d k e) (insert k ((S.erase a).erase b)) + w k := by
  rw [weightedDepth, weightedDepth, sum_parent (fun c i => w c * i) d hk, sum_eq_add_add_erase _ ha hb hab, hda, hdb, hw]
  ring

end

/-! ## The depth of a node in a tree -/

/-- The lengths of the paths from the root to a node. -/
def State.pathLengths (s : State) (c : ℕ) : Set ℕ :=
  {d | ∃ p k, s.node.follow s.root p = some k ∧ k.toNat = c ∧ p.length = d}

/-- The number of edges from the root to a node (rule R129): the length of a shortest path, and in a tree that of every path
(`State.HoldsTree.depth_eq`). -/
noncomputable def State.depth (s : State) (c : ℕ) : ℕ := sInf (s.pathLengths c)

/-- Where the last step of a path comes from (rule R141). -/
theorem NodeArena.follow_concat_eq_some {t : NodeArena} {r j : NodeIdx} {p : List Bool} {b : Bool}
    (h : t.follow r (p ++ [b]) = some j) :
    ∃ k, t.follow r p = some k ∧ (t.at k.toNat).leaf = false ∧ (t.at k.toNat).child b = j := by
  rw [NodeArena.follow_append, Option.bind_eq_some_iff] at h
  obtain ⟨k, hk, h⟩ := h
  cases hleaf : (t.at k.toNat).leaf with
  | true => simp [NodeArena.follow, hleaf] at h
  | false => exact ⟨k, hk, hleaf, by simpa [NodeArena.follow, hleaf] using h⟩

/-- A path goes down by one index at least at each step. -/
theorem NodeArena.IsTree.follow_le {t : NodeArena} {n : ℕ} (h : t.IsTree n) {k j : NodeIdx} {p : List Bool}
    (hk : k.toNat < 2 * n - 1) (hp : t.follow k p = some j) : j.toNat + p.length ≤ k.toNat := by
  induction p generalizing k with
  | nil => rw [Option.some.inj hp]; exact le_rfl
  | cons b p ih =>
    cases hleaf : (t.at k.toNat).leaf with
    | true => simp [NodeArena.follow, hleaf] at hp
    | false =>
      obtain ⟨-, hint⟩ := h.isInternal hk hleaf
      have hlt := hint.child_lt (t.hasChild_child k.toNat b)
      have := ih (hlt.trans hk) (by simpa [NodeArena.follow, hleaf] using hp)
      rw [List.length_cons]
      omega

section
variable {s : State} {n : ℕ} (h : s.HoldsTree n)
include h

/-- All paths from the root to a node have the same length, since a node has one parent (rule R41 (d)). -/
theorem State.HoldsTree.length_path_unique {p q : List Bool} {j : NodeIdx} (hp : s.node.follow s.root p = some j)
    (hq : s.node.follow s.root q = some j) : p.length = q.length := by
  induction p using List.reverseRecOn generalizing q j with
  | nil =>
    have := h.tree.follow_le h.root_lt hq
    rw [← Option.some.inj hp] at this
    rw [List.length_nil]
    omega
  | append_singleton p b ih =>
    have hle := h.tree.follow_le h.root_lt hp
    obtain rfl | ⟨q, c, rfl⟩ := q.eq_nil_or_concat'
    · rw [← Option.some.inj hq] at hle
      simp at hle
    · obtain ⟨k, hk, hkleaf, hkj⟩ := NodeArena.follow_concat_eq_some hp
      obtain ⟨i, hi, hileaf, hij⟩ := NodeArena.follow_concat_eq_some hq
      have hkle := h.tree.follow_le h.root_lt hk
      have hile := h.tree.follow_le h.root_lt hi
      have hroot := h.root_toNat
      have hlt := h.root_lt
      obtain ⟨hkn, -⟩ := h.tree.isInternal (by omega) hkleaf
      obtain ⟨hin, -⟩ := h.tree.isInternal (by omega) hileaf
      rw [List.length_append, List.length_singleton] at hle
      obtain ⟨m, -, -, unique⟩ := h.tree.oneParent j.toNat (by omega)
      have hkm := unique k.toNat (by omega) ⟨hkn, hkj ▸ s.node.hasChild_child _ _⟩
      have him := unique i.toNat (by omega) ⟨hin, hij ▸ s.node.hasChild_child _ _⟩
      have hki : k = i := BitVec.eq_of_toNat_eq (hkm.trans him.symm)
      simp [ih hk (hki ▸ hi)]

theorem State.HoldsTree.depth_eq {p : List Bool} {k : NodeIdx} (hp : s.node.follow s.root p = some k) :
    s.depth k.toNat = p.length := by
  obtain ⟨q, j, hq, hj, hlen⟩ := Nat.sInf_mem (s := s.pathLengths k.toNat) ⟨_, p, k, hp, rfl, rfl⟩
  rw [State.depth, ← hlen]
  exact h.length_path_unique (BitVec.eq_of_toNat_eq hj ▸ hq) hp

theorem State.HoldsTree.depth_root : s.depth (2 * n - 2) = 0 :=
  h.root_toNat ▸ h.depth_eq (p := []) rfl

/-- A path to an internal node goes on to its children. -/
theorem State.HoldsTree.exists_path_child {k c : ℕ} (hk : k < 2 * n - 1) (hn : n ≤ k) (hc : s.node.hasChild k c) {p : List Bool}
    {i : NodeIdx} (hp : s.node.follow s.root p = some i) (hi : i.toNat = k) :
    ∃ b j, s.node.follow s.root (p ++ [b]) = some j ∧ j.toNat = c := by
  obtain ⟨inner, -⟩ := h.tree.internals k hk hn
  subst hi
  obtain rfl | rfl := hc
  · exact ⟨false, _, NodeArena.follow_child hp inner false, rfl⟩
  · exact ⟨true, _, NodeArena.follow_child hp inner true, rfl⟩

/-- A path leads from the root to each node, through its parent (rule R41 (d)). -/
theorem State.HoldsTree.exists_path {c : ℕ} (hc : c ≤ 2 * n - 2) : ∃ p k, s.node.follow s.root p = some k ∧ k.toNat = c := by
  induction c using Nat.strong_decreasing_induction with
  | base => exact ⟨2 * n - 2, fun m hm hle => absurd hle (Nat.not_le.mpr hm)⟩
  | step c ih =>
    rcases Nat.eq_or_lt_of_le hc with rfl | hlt
    · exact ⟨[], s.root, rfl, h.root_toNat⟩
    · obtain ⟨k, hk, ⟨hn, hchild⟩, -⟩ := h.tree.oneParent c hlt
      have hck : c < k := by
        obtain ⟨inner, -⟩ := h.tree.internals k hk hn
        exact (h.tree.isInternal hk inner).2.child_lt hchild
      obtain ⟨p, i, hp, hi⟩ := ih k hck (by omega)
      obtain ⟨b, j, hj⟩ := h.exists_path_child hk hn hchild hp hi
      exact ⟨_, j, hj⟩

theorem State.HoldsTree.depth_child {k c : ℕ} (hk : k < 2 * n - 1) (hn : n ≤ k) (hc : s.node.hasChild k c) :
    s.depth c = s.depth k + 1 := by
  obtain ⟨p, i, hp, hi⟩ := h.exists_path (c := k) (by omega)
  obtain ⟨b, j, hj, rfl⟩ := h.exists_path_child hk hn hc hp hi
  rw [h.depth_eq hj, ← hi, h.depth_eq hp, List.length_append, List.length_singleton]

end

end Sys2Proof.Machine

/-! ## Optimality -/

namespace Sys2Proof.Machine

/-- The collection when node k of a tree of n leaves is made (rule R120). -/
def NodeArena.queueAt (t : NodeArena) (n k : ℕ) : Finset ℕ := (Finset.range k).filter (t.inQueue n k)

theorem NodeArena.mem_queueAt {t : NodeArena} {n k c : ℕ} : c ∈ t.queueAt n k ↔ t.inQueue n k c := by
  rw [NodeArena.queueAt, Finset.mem_filter, Finset.mem_range, and_iff_right_of_imp fun h => h.1]

theorem NodeArena.notMem_queueAt_self (t : NodeArena) (n k : ℕ) : k ∉ t.queueAt n k :=
  fun h => Nat.lt_irrefl k (NodeArena.mem_queueAt.mp h).1

/-- Before the first merge the collection is the leaves (rule R120). -/
theorem NodeArena.queueAt_start (t : NodeArena) (n : ℕ) : t.queueAt n n = Finset.range n := by
  ext c
  rw [NodeArena.mem_queueAt, Finset.mem_range]
  exact and_iff_left fun j hj hn => absurd hj (Nat.not_lt.mpr hn)

/-- A merge takes the children of the new node out of the collection and puts the node in (rule R120). -/
theorem NodeArena.IsTree.queueAt_succ {t : NodeArena} {n k : ℕ} (h : t.IsTree n) (hn : n ≤ k) (hk : k < 2 * n - 1) :
    t.queueAt n (k + 1) = insert k (((t.queueAt n k).erase (t.at k).left.toNat).erase (t.at k).right.toNat) := by
  obtain ⟨inner, -⟩ := h.internals k hk hn
  obtain ⟨-, hint⟩ := h.isInternal hk inner
  ext c
  simp only [Finset.mem_insert, Finset.mem_erase, NodeArena.mem_queueAt]
  constructor
  · rintro ⟨hlt, hnone⟩
    rcases Nat.lt_succ_iff_lt_or_eq.mp hlt with hlt | rfl
    · obtain ⟨hl, hr⟩ := not_or.mp (hnone k (Nat.lt_succ_self k) hn)
      exact .inr ⟨Ne.symm hr, Ne.symm hl, hlt, fun j hj => hnone j (Nat.lt_succ_of_lt hj)⟩
    · exact .inl rfl
  · rintro (rfl | ⟨hr, hl, hlt, hnone⟩)
    · refine ⟨Nat.lt_succ_self _, fun j hj hnj hc => ?_⟩
      obtain ⟨jinner, -⟩ := h.internals j (by omega) hnj
      have := (h.isInternal (by omega) jinner).2.child_lt hc
      omega
    · refine ⟨Nat.lt_succ_of_lt hlt, fun j hj hnj hc => ?_⟩
      rcases Nat.lt_succ_iff_lt_or_eq.mp hj with hj | rfl
      · exact hnone j hj hnj hc
      · exact hc.elim (Ne.symm hl) (Ne.symm hr)

/-- After the last merge the collection holds the root alone (rule R120). -/
theorem NodeArena.IsTree.eq_root_of_mem_queueAt {t : NodeArena} {n c : ℕ} (h : t.IsTree n) (hc : c ∈ t.queueAt n (2 * n - 1)) :
    c = 2 * n - 2 := by
  obtain ⟨hlt, hnone⟩ := NodeArena.mem_queueAt.mp hc
  by_contra hne
  obtain ⟨k, hk, ⟨hn, hchild⟩, -⟩ := h.oneParent c (by omega)
  exact hnone k hk hn hchild

/-- The weight of a node as a number. -/
def NodeArena.weightOf (t : NodeArena) (c : ℕ) : ℕ := (t.at c).weight.toNat

theorem NodeArena.before.weight_le {t : NodeArena} {a b : ℕ} (h : t.before a b) : t.weightOf a ≤ t.weightOf b := by
  obtain hlt | ⟨heq, -⟩ := h
  · exact Nat.le_of_lt hlt
  · exact Nat.le_of_eq (congrArg BitVec.toNat heq)

section
variable {t : NodeArena} {n k : ℕ} (h : t.MadeOfLowest n k) {c : ℕ} (hc : c ∈ t.queueAt n k)
include h hc

/-- The left child is the lightest of the collection (rules R122, R124). -/
theorem NodeArena.MadeOfLowest.weight_left_le : t.weightOf (t.at k).left.toNat ≤ t.weightOf c := by
  by_cases e : c = (t.at k).left.toNat
  · rw [e]
  · have queued := NodeArena.mem_queueAt.mp hc
    exact (h.first c queued.1 queued e).weight_le

/-- The right child is the lightest of the rest of the collection (rules R122, R124). -/
theorem NodeArena.MadeOfLowest.weight_right_le (hne : c ≠ (t.at k).left.toNat) :
    t.weightOf (t.at k).right.toNat ≤ t.weightOf c := by
  by_cases e : c = (t.at k).right.toNat
  · rw [e]
  · have queued := NodeArena.mem_queueAt.mp hc
    exact (h.second c queued.1 queued hne e).weight_le

end

/-- In a tree made of the two lowest each time, the depths weigh the least of all depths that fill a binary tree, over the collection
of each merge: the two lowest may be taken to be siblings at the greatest depth, and so they are merged in both trees alike. -/
theorem State.HoldsTree.weightedDepth_le {s : State} {n : ℕ} (h : s.HoldsTree n)
    (made : ∀ k < 2 * n - 1, n ≤ k → s.node.MadeOfLowest n k) {k : ℕ} (hn : n ≤ k) (hk : k ≤ 2 * n - 1) :
    ∀ d, FillsTree (s.node.queueAt n k) d →
      weightedDepth s.node.weightOf s.depth (s.node.queueAt n k) ≤ weightedDepth s.node.weightOf d (s.node.queueAt n k) := by
  induction hk using Nat.decreasingInduction with
  | self =>
    intro d _
    refine Nat.le_trans (Nat.le_of_eq (Finset.sum_eq_zero fun c hc => ?_)) (Nat.zero_le _)
    rw [h.tree.eq_root_of_mem_queueAt hc, h.depth_root, Nat.mul_zero]
  | of_succ k hk ih =>
    intro d fills
    have lowest := made k hk hn
    obtain ⟨-, -, -, -, -, weight⟩ := h.tree.internals k hk hn
    have hl := NodeArena.mem_queueAt.mpr lowest.left
    have hr := NodeArena.mem_queueAt.mpr lowest.right
    have hlr : (s.node.at k).left.toNat ≠ (s.node.at k).right.toNat := fun e => lowest.differ (BitVec.eq_of_toNat_eq e)
    have hk' := s.node.notMem_queueAt_self n k
    obtain ⟨d', fills', hle, pos, same⟩ := fills.exists_siblings hl hr hlr
      (fun _ => lowest.weight_left_le) (fun _ => lowest.weight_right_le)
    obtain ⟨e, he⟩ := Nat.exists_eq_add_one_of_ne_zero pos.ne'
    have merged := ih (Nat.le_succ_of_le hn) (Function.update d' k e)
      (h.tree.queueAt_succ hn hk ▸ fills'.parent hl hr hlr hk' he (same.trans he))
    have built := weightedDepth_parent (w := s.node.weightOf) hl hr hlr hk' (h.depth_child hk hn (.inl rfl))
      (h.depth_child hk hn (.inr rfl)) weight
    have other := weightedDepth_parent (w := s.node.weightOf) hl hr hlr hk' he (same.trans he) weight
    rw [Function.update_eq_self, ← h.tree.queueAt_succ hn hk] at built
    rw [← h.tree.queueAt_succ hn hk] at other
    omega

/-! ### Any tree over the keys -/

/-- The depth of a symbol's leaf in a tree. -/
def AnyTree.depthOf : AnyTree → Symbol → ℕ
  | .leaf _, _ => 0
  | .node l r, x => (if x ∈ l.symbols then l.depthOf x else r.depthOf x) + 1

/-- A sum over the leaves of a node, by the depths in its two subtrees. -/
theorem AnyTree.sum_node {M : Type} [AddCommMonoid M] {l r : AnyTree} (nodup : (AnyTree.node l r).symbols.Nodup)
    (f : Symbol → ℕ → M) : ((AnyTree.node l r).symbols.map fun x => f x ((AnyTree.node l r).depthOf x)).sum =
      (l.symbols.map fun x => f x (l.depthOf x + 1)).sum + (r.symbols.map fun x => f x (r.depthOf x + 1)).sum := by
  have disjoint := (List.nodup_append'.mp nodup).2.2
  rw [AnyTree.symbols, List.map_append, List.sum_append]
  congr 2
  · exact List.map_congr_left fun x hx => by rw [AnyTree.depthOf, if_pos hx]
  · exact List.map_congr_left fun x hx => by rw [AnyTree.depthOf, if_neg fun hl => disjoint hl hx]

theorem AnyTree.cost_eq_sum {T : AnyTree} (nodup : T.symbols.Nodup) (w : Symbol → ℕ) (d : ℕ) :
    T.cost w d = (T.symbols.map fun x => w x * (d + T.depthOf x)).sum := by
  induction T generalizing d with
  | leaf x => simp [AnyTree.cost, AnyTree.symbols, AnyTree.depthOf]
  | node l r ihl ihr =>
    obtain ⟨hl, hr, -⟩ := List.nodup_append'.mp nodup
    rw [AnyTree.sum_node nodup fun x i => w x * (d + i), AnyTree.cost, ihl hl, ihr hr]
    simp only [Nat.add_assoc, Nat.add_comm 1]

/-- Kraft's sum over the leaves of a binary tree. -/
theorem AnyTree.kraft {T : AnyTree} (nodup : T.symbols.Nodup) :
    (T.symbols.map fun x => (1 / 2 : ℚ) ^ T.depthOf x).sum = 1 := by
  induction T with
  | leaf x => simp [AnyTree.symbols, AnyTree.depthOf]
  | node l r ihl ihr =>
    obtain ⟨hl, hr, -⟩ := List.nodup_append'.mp nodup
    rw [AnyTree.sum_node nodup fun _ i => (1 / 2 : ℚ) ^ i]
    simp only [pow_succ, List.sum_map_mul_right, ihl hl, ihr hr]
    norm_num

/-! ### The statement on optimality -/

/-- A sum over the leaves of the built arena is a sum over the keys. -/
theorem sum_builtArena_leaves {M : Type} [AddCommMonoid M] {t : FreqTable} (bounded : t.total ≤ Config.inMax)
    (f : Symbol → M) : ∑ k ∈ Finset.range t.keys.length, f ((builtArena t).at k).sym = (t.keys.map f).sum := by
  have leaves : (List.range t.keys.length).map (fun k => f ((builtArena t).at k).sym) = t.keys.map f := by
    refine List.ext_getElem (by simp) fun k hk _ => ?_
    simp [builtArena_leaf bounded (by simpa using hk), leafOf]
  exact congrArg List.sum leaves

theorem NodeArena.IsTree.lt_of_leaf {t : NodeArena} {n k : ℕ} (h : t.IsTree n) (hk : k < 2 * n - 1)
    (hleaf : (t.at k).leaf = true) : k < n := by
  by_contra hn
  obtain ⟨inner, -⟩ := h.internals k hk (Nat.le_of_not_lt hn)
  simp [inner] at hleaf

/-- No two leaves have the same symbol (rule R41 (b)). -/
theorem NodeArena.IsTree.leaf_unique {t : NodeArena} {n j k : ℕ} (h : t.IsTree n) (hj : j < n) (hk : k < n)
    (hsym : (t.at j).sym = (t.at k).sym) : j = k := by
  rcases Nat.lt_trichotomy j k with hlt | heq | hlt
  · exact absurd (h.ascending k hk j hlt) (hsym ▸ BitVec.lt_irrefl _)
  · exact heq
  · exact absurd (h.ascending j hj k hlt) (hsym ▸ BitVec.lt_irrefl _)

/-- A leaf of the built arena weighs the count of its symbol (rule R123). -/
theorem State.builtTree_weight {s : State} (bounded : s.FreqBounded) {k : ℕ} (hk : k < s.freq.keys.length) :
    (s.builtTree.node.at k).weight = s.freq.at (s.builtTree.node.at k).sym := by
  have leaf : s.builtTree.node.at k = leafOf s.freq s.freq.keys[k] := builtArena_leaf bounded hk
  rw [leaf]
  rfl

/-- The leaves of the built arena, weighed by depths of their symbols, are the keys weighed by their counts. -/
theorem State.weightedDepth_builtTree {s : State} (bounded : s.FreqBounded) (d : Symbol → ℕ) :
    weightedDepth s.builtTree.node.weightOf (fun k => d (s.builtTree.node.at k).sym) (Finset.range s.freq.keys.length) =
      (s.freq.keys.map fun x => (s.freq.at x).toNat * d x).sum := by
  rw [← sum_builtArena_leaves bounded]
  refine Finset.sum_congr rfl fun k hk => ?_
  rw [NodeArena.weightOf, State.builtTree_weight bounded (Finset.mem_range.mp hk)]
  rfl

/-- Symbols that are no keys add nothing to a sum weighed by the counts. -/
theorem FreqTable.sum_keys_mul (t : FreqTable) (f : Symbol → ℕ) : (t.keys.map fun x => (t.at x).toNat * f x).sum =
    ((List.range 256).map fun i => (t.at (BitVec.ofNat 8 i)).toNat * f (BitVec.ofNat 8 i)).sum := by
  have noCount (x : Symbol) (hx : (t.at x != 0#16) = false) : (t.at x).toNat * f x = 0 := by
    simp [bne_eq_false_iff_eq.mp hx]
  rw [FreqTable.keys, sum_map_filter_eq _ _ _ (fun x _ => noCount x), List.map_map]
  rfl

/-- A path to a leaf's symbol is as long as the leaf is deep. -/
theorem State.HoldsTree.depth_leaf {s : State} {n k : ℕ} (h : s.HoldsTree n) (hk : k < n) {p : List Bool}
    (hp : s.leafPath (s.node.at k).sym p) : s.depth k = p.length := by
  obtain ⟨j, hj, hleaf, hsym⟩ := hp
  have hjlt : j.toNat < 2 * n - 1 := lt_of_le_of_lt ((Nat.le_add_right ..).trans (h.tree.follow_le h.root_lt hj)) h.root_lt
  have hjk : j.toNat = k := h.tree.leaf_unique (h.tree.lt_of_leaf hjlt hleaf) hk hsym
  rw [← hjk, h.depth_eq hj]

/-- Settles O31: the depths of any tree over the keys fill a binary tree, and of all depths that do the built tree's weigh least. -/
theorem buildTreeIsOptimal : Obligations.BuildTreeIsOptimal := by
  intro s ok bounded key
  rw [← s.freq.length_keys] at key
  have tree := State.builtTree_holdsTree bounded (Nat.zero_lt_of_lt key)
  refine ⟨_, exec_buildTree_of_key ok (Nat.ne_of_gt (Nat.zero_lt_of_lt key)), fun depth paths T nodup symbols => ?_⟩
  have perm : T.symbols.Perm s.freq.keys := by
    refine (List.perm_ext_iff_of_nodup nodup s.freq.keys_pairwise.nodup).mpr fun x => ?_
    rw [symbols x, FreqTable.mem_keys]
  have fills : FillsTree (Finset.range s.freq.keys.length) (fun k => T.depthOf (s.builtTree.node.at k).sym) := by
    refine (sum_builtArena_leaves bounded fun x => (1 / 2 : ℚ) ^ T.depthOf x).trans ?_
    rw [← (perm.map _).sum_eq, AnyTree.kraft nodup]
  have built : weightedDepth s.builtTree.node.weightOf s.builtTree.depth (Finset.range s.freq.keys.length) =
      ((List.range 256).map fun i => (s.freq.at (BitVec.ofNat 8 i)).toNat * depth (BitVec.ofNat 8 i)).sum := by
    rw [← s.freq.sum_keys_mul, ← State.weightedDepth_builtTree bounded]
    refine Finset.sum_congr rfl fun k hk => congrArg _ ?_
    have hk := Finset.mem_range.mp hk
    obtain ⟨-, -, -, positive⟩ := tree.tree.leaves k hk
    obtain ⟨p, hp, hlen⟩ := paths (s.builtTree.node.at k).sym (State.builtTree_weight bounded hk ▸ positive)
    exact (tree.depth_leaf hk hp).trans hlen
  have other : weightedDepth s.builtTree.node.weightOf (fun k => T.depthOf (s.builtTree.node.at k).sym)
      (Finset.range s.freq.keys.length) = T.cost (fun x => (s.freq.at x).toNat) 0 := by
    rw [AnyTree.cost_eq_sum nodup]
    simp only [Nat.zero_add]
    exact (State.weightedDepth_builtTree bounded T.depthOf).trans (perm.map _).sum_eq.symm
  have least := tree.weightedDepth_le (fun k => builtArena_madeOfLowest bounded (Nat.zero_lt_of_lt key)) le_rfl (by omega) _
    (NodeArena.queueAt_start .. ▸ fills)
  rwa [NodeArena.queueAt_start, built, other] at least

end Sys2Proof.Machine

/-! ## BUILD_CODES

A walk over a tree meets no malformed node, records paths to leaves only (`codeWalk_records`) and reaches every leaf; each leaf has
one path, so the table is the paths (rules R140, R141). -/

namespace Sys2Proof.Machine

/-! ### How the command ends -/

section
variable {s : State} (ok : s.err = 0#3)
include ok

theorem exec_buildCodes_of_noTree (noTree : s.nodeCnt = 0#10) :
    exec .buildCodes s = .next (s.raise .invariantViolation (nodeInfo Config.nil) .codes) := by
  rw [exec, execBuildCodes, State.runCommand_of_ok _ ok, if_pos noTree]

theorem exec_buildCodes_of_leaf (held : s.nodeCnt ≠ 0#10) (leaf : (s.node.at s.root.toNat).leaf = true) :
    exec .buildCodes s = .next { s with
      code := CodeTable.empty.put (s.node.at s.root.toNat).sym (CodeEntry.ofString [false]) } := by
  rw [exec, execBuildCodes, State.runCommand_of_ok _ ok, if_neg held]
  exact if_pos leaf

theorem exec_buildCodes_of_malformed (held : s.nodeCnt ≠ 0#10) (inner : (s.node.at s.root.toNat).leaf = false) {k : NodeIdx}
    (walk : codeWalk s.node s.nodeCnt.toNat Config.nodeMax [(s.root, [])] CodeTable.empty = .malformed k) :
    exec .buildCodes s = .next (s.raise .invariantViolation (nodeInfo k) .codes) := by
  rw [exec, execBuildCodes, State.runCommand_of_ok _ ok, if_neg held]
  simp [inner, walk]

theorem exec_buildCodes_of_table (held : s.nodeCnt ≠ 0#10) (inner : (s.node.at s.root.toNat).leaf = false) {codes : CodeTable}
    (walk : codeWalk s.node s.nodeCnt.toNat Config.nodeMax [(s.root, [])] CodeTable.empty = .table codes) :
    exec .buildCodes s = .next { s with code := codes } := by
  rw [exec, execBuildCodes, State.runCommand_of_ok _ ok, if_neg held]
  simp [inner, walk]

end

/-! ### Malformed nodes -/

theorem badChild_eq_true {cnt : Nat} {k : NodeIdx} : badChild cnt k = true ↔ k = Config.nil ∨ cnt ≤ k.toNat := by
  simp [badChild]

/-- The walk ends at an internal node that lacks a valid child (rule R144 (b)). -/
theorem codeWalk_of_badChild {t : NodeArena} {cnt fuel : Nat} {k : NodeIdx} {p : List Bool} {stack : List (NodeIdx × List Bool)}
    {codes : CodeTable} (inner : (t.at k.toNat).leaf = false)
    (bad : badChild cnt (t.at k.toNat).left = true ∨ badChild cnt (t.at k.toNat).right = true) :
    codeWalk t cnt (fuel + 1) ((k, p) :: stack) codes = .malformed k := by
  simp [codeWalk, inner, bad]

/-- An internal node of a tree has two valid children (rule R41 (c)). -/
theorem NodeArena.IsTree.badChild_child {t : NodeArena} {n k : Nat} (h : t.IsTree n) (hk : k < 2 * n - 1)
    (inner : (t.at k).leaf = false) (b : Bool) : badChild (2 * n - 1) ((t.at k).child b) = false := by
  obtain ⟨-, hint⟩ := h.isInternal hk inner
  have hlt := (hint.child_lt (t.hasChild_child k b)).trans hk
  obtain ⟨-, hn⟩ := h.size
  refine Bool.eq_false_of_not_eq_true fun bad => ?_
  obtain hnil | hle := badChild_eq_true.mp bad
  · rw [hnil] at hlt
    have : Config.nil.toNat = 511 := rfl
    omega
  · omega

/-- Over a tree the walk meets no malformed node (rule R144). -/
theorem codeWalk_ne_malformed {t : NodeArena} {n fuel : Nat} (tree : t.IsTree n) {stack : List (NodeIdx × List Bool)}
    {codes : CodeTable} (valid : ∀ e ∈ stack, e.1.toNat < 2 * n - 1) (j : NodeIdx) :
    codeWalk t (2 * n - 1) fuel stack codes ≠ .malformed j := by
  induction fuel generalizing stack codes with
  | zero => cases stack <;> simp [codeWalk]
  | succ fuel ih =>
    cases stack with
    | nil => simp [codeWalk]
    | cons e stack =>
      obtain ⟨k, p⟩ := e
      obtain ⟨hk, valid⟩ := List.forall_mem_cons.mp valid
      cases hleaf : (t.at k.toNat).leaf with
      | true => simpa [codeWalk, hleaf] using ih valid
      | false =>
        obtain ⟨-, hint⟩ := tree.isInternal hk hleaf
        have hl : badChild (2 * n - 1) (t.at k.toNat).left = false := tree.badChild_child hk hleaf false
        have hr : badChild (2 * n - 1) (t.at k.toNat).right = false := tree.badChild_child hk hleaf true
        simp only [codeWalk, hleaf, hl, hr, Bool.false_eq_true, if_false, Bool.or_self]
        exact ih (List.forall_mem_cons.mpr ⟨hint.left.trans hk, List.forall_mem_cons.mpr ⟨hint.right.trans hk, valid⟩⟩)

/-! ### The walk reaches every leaf -/

/-- Every leaf's symbol has a code already or its path goes through a node on the stack. -/
def State.Covered (s : State) (stack : List (NodeIdx × List Bool)) (codes : CodeTable) : Prop :=
  ∀ x p, s.leafPath x p → (codes.at x).present = true ∨ ∃ e ∈ stack, e.2 <+: p

/-- Recording a code leaves every entry that is present so. -/
theorem CodeTable.present_put {c : CodeTable} {x y : Symbol} {p : List Bool} (h : (c.at y).present = true) :
    ((c.put x (CodeEntry.ofString p)).at y).present = true := by
  by_cases hy : y = x
  · rw [hy, CodeTable.at_put_self, CodeEntry.ofString]
  · rwa [c.at_put_of_ne _ hy]

/-- A leaf's path through an internal node goes on through one of its children. -/
theorem State.leafPath_child {s : State} {x : Symbol} {p q : List Bool} {k : NodeIdx} (hp : s.leafPath x p)
    (hk : s.node.follow s.root q = some k) (inner : (s.node.at k.toNat).leaf = false) (h : q <+: p) : ∃ b, q ++ [b] <+: p := by
  obtain ⟨r, rfl⟩ := h
  cases r with
  | nil =>
    obtain ⟨j, hj, hleaf, -⟩ := hp
    rw [List.append_nil, hk] at hj
    simp [← Option.some.inj hj, inner] at hleaf
  | cons b r => exact ⟨b, r, by simp⟩

/-- A visit of a leaf gives a code to the symbol whose path went through it. -/
theorem State.Covered.leaf {s : State} {k : NodeIdx} {q : List Bool} {stack : List (NodeIdx × List Bool)} {codes : CodeTable}
    (h : s.Covered ((k, q) :: stack) codes) (hk : s.node.follow s.root q = some k) (leaf : (s.node.at k.toNat).leaf = true) :
    s.Covered stack (codes.put (s.node.at k.toNat).sym (CodeEntry.ofString q)) := by
  intro x p hp
  obtain hx | ⟨e, he, hq⟩ := h x p hp
  · exact .inl (CodeTable.present_put hx)
  · obtain rfl | he := List.mem_cons.mp he
    · rw [← State.leafPath_prefix ⟨k, hk, leaf, rfl⟩ hp hq, CodeTable.at_put_self]
      exact .inl rfl
    · exact .inr ⟨e, he, hq⟩

/-- A visit of an internal node leaves the paths through it to its children. -/
theorem State.Covered.inner {s : State} {k : NodeIdx} {q : List Bool} {stack : List (NodeIdx × List Bool)} {codes : CodeTable}
    (h : s.Covered ((k, q) :: stack) codes) (hk : s.node.follow s.root q = some k) (inner : (s.node.at k.toNat).leaf = false) :
    s.Covered (((s.node.at k.toNat).left, q ++ [false]) :: ((s.node.at k.toNat).right, q ++ [true]) :: stack) codes := by
  intro x p hp
  obtain hx | ⟨e, he, hq⟩ := h x p hp
  · exact .inl hx
  · obtain rfl | he := List.mem_cons.mp he
    · obtain ⟨b, hb⟩ := State.leafPath_child hp hk inner hq
      cases b with
      | false => exact .inr ⟨_, List.mem_cons_self, hb⟩
      | true => exact .inr ⟨_, List.mem_cons_of_mem _ List.mem_cons_self, hb⟩
    · exact .inr ⟨e, List.mem_cons_of_mem _ (List.mem_cons_of_mem _ he), hq⟩

/-- The walk ends with a code for the symbol of each leaf (rule R145). -/
theorem codeWalk_covered {s : State} {cnt fuel : Nat} {stack : List (NodeIdx × List Bool)} {codes codes' : CodeTable}
    (hstack : ∀ e ∈ stack, s.node.follow s.root e.2 = some e.1) (covered : s.Covered stack codes)
    (h : codeWalk s.node cnt fuel stack codes = .table codes') : s.Covered [] codes' := by
  induction fuel generalizing stack codes with
  | zero =>
    cases stack with
    | nil => cases h; exact covered
    | cons e stack => cases h
  | succ fuel ih =>
    cases stack with
    | nil => cases h; exact covered
    | cons e stack =>
      obtain ⟨k, p⟩ := e
      obtain ⟨hk, hstack⟩ := List.forall_mem_cons.mp hstack
      simp only [codeWalk] at h
      split at h
      · exact ih hstack (covered.leaf hk ‹_›) h
      · split at h
        · cases h
        · have inner := Bool.eq_false_of_not_eq_true ‹¬ (s.node.at k.toNat).leaf = true›
          refine ih (List.forall_mem_cons.mpr ⟨?_, List.forall_mem_cons.mpr ⟨?_, hstack⟩⟩) (covered.inner hk inner) h
          · exact NodeArena.follow_child hk inner false
          · exact NodeArena.follow_child hk inner true

/-! ### The command over a tree -/

section
variable {s : State} {n : Nat} (h : s.HoldsTree n)
include h

theorem State.HoldsTree.nodeCnt_toNat : s.nodeCnt.toNat = 2 * n - 1 := by
  obtain ⟨-, hn⟩ := h.tree.size
  rw [h.cnt, BitVec.toNat_ofNat]
  exact Nat.mod_eq_of_lt (by omega)

theorem State.HoldsTree.nodeCnt_ne : s.nodeCnt ≠ 0#10 := by
  obtain ⟨hn, -⟩ := h.tree.size
  intro h0
  have := h.nodeCnt_toNat
  rw [h0, BitVec.toNat_ofNat] at this
  omega

/-- The root of a tree of two or more leaves is internal. -/
theorem State.HoldsTree.root_inner (hn : 2 ≤ n) : (s.node.at s.root.toNat).leaf = false := by
  obtain ⟨inner, -⟩ := h.tree.internals s.root.toNat h.root_lt (by rw [h.root_toNat]; omega)
  exact inner

/-- From the root of a tree the walk ends with a table. -/
theorem State.HoldsTree.exists_table :
    ∃ codes, codeWalk s.node s.nodeCnt.toNat Config.nodeMax [(s.root, [])] CodeTable.empty = .table codes := by
  cases hw : codeWalk s.node s.nodeCnt.toNat Config.nodeMax [(s.root, [])] CodeTable.empty with
  | table codes => exact ⟨codes, rfl⟩
  | malformed k =>
    rw [h.nodeCnt_toNat] at hw
    exact absurd hw (codeWalk_ne_malformed h.tree (List.forall_mem_singleton.mpr h.root_lt) k)
  | unbounded => exact absurd hw (codeWalk_root_ne_unbounded h _)

/-- Where a path ends in a tree there is a valid node. -/
theorem State.HoldsTree.follow_lt {p : List Bool} {k : NodeIdx} (hp : s.node.follow s.root p = some k) : k.toNat < 2 * n - 1 :=
  lt_of_le_of_lt ((Nat.le_add_right ..).trans (h.tree.follow_le h.root_lt hp)) h.root_lt

/-- A node has one parent and is one of its two children only (rule R41 (c), (d)). -/
theorem State.HoldsTree.edge_unique {i k : NodeIdx} {b c : Bool} (hi : i.toNat < 2 * n - 1) (hk : k.toNat < 2 * n - 1)
    (innerI : (s.node.at i.toNat).leaf = false) (innerK : (s.node.at k.toNat).leaf = false)
    (same : (s.node.at i.toNat).child b = (s.node.at k.toNat).child c) : i = k ∧ b = c := by
  obtain ⟨hin, hint⟩ := h.tree.isInternal hi innerI
  obtain ⟨hkn, -⟩ := h.tree.isInternal hk innerK
  have hlt := hint.child_lt (s.node.hasChild_child i.toNat b)
  obtain ⟨m, -, -, unique⟩ := h.tree.oneParent ((s.node.at i.toNat).child b).toNat (by omega)
  have him := unique i.toNat hi ⟨hin, s.node.hasChild_child ..⟩
  have hkm := unique k.toNat hk ⟨hkn, same ▸ s.node.hasChild_child ..⟩
  obtain rfl : i = k := BitVec.eq_of_toNat_eq (him.trans hkm.symm)
  refine ⟨rfl, ?_⟩
  cases b <;> cases c
  · rfl
  · exact absurd same hint.differ
  · exact absurd same.symm hint.differ
  · rfl

/-- One path leads from the root to a node. -/
theorem State.HoldsTree.path_unique {p q : List Bool} {j : NodeIdx} (hp : s.node.follow s.root p = some j)
    (hq : s.node.follow s.root q = some j) : p = q := by
  have hlen := h.length_path_unique hp hq
  induction p using List.reverseRecOn generalizing q j with
  | nil => exact (List.length_eq_zero_iff.mp hlen.symm).symm
  | append_singleton p b ih =>
    obtain rfl | ⟨q, c, rfl⟩ := q.eq_nil_or_concat'
    · simp at hlen
    · obtain ⟨i, hi, innerI, hij⟩ := NodeArena.follow_concat_eq_some hp
      obtain ⟨k, hk, innerK, hkj⟩ := NodeArena.follow_concat_eq_some hq
      obtain ⟨rfl, rfl⟩ := h.edge_unique (h.follow_lt hi) (h.follow_lt hk) innerI innerK (hij.trans hkj.symm)
      rw [ih hi hk (by simpa using hlen)]

/-- A symbol has one leaf, to which one path leads (rule R41). -/
theorem State.HoldsTree.leafPath_unique {x : Symbol} {p q : List Bool} (hp : s.leafPath x p) (hq : s.leafPath x q) : p = q := by
  obtain ⟨j, hj, hjleaf, hjx⟩ := hp
  obtain ⟨k, hk, hkleaf, hkx⟩ := hq
  have hjk : j.toNat = k.toNat := h.tree.leaf_unique (h.tree.lt_of_leaf (h.follow_lt hj) hjleaf)
    (h.tree.lt_of_leaf (h.follow_lt hk) hkleaf) (hjx.trans hkx.symm)
  exact h.path_unique hj (BitVec.eq_of_toNat_eq hjk ▸ hk)

/-- The symbols to which a path leads are those of the leaves. -/
theorem State.HoldsTree.exists_leafPath_iff {x : Symbol} : (∃ p, s.leafPath x p) ↔ ∃ k < n, (s.node.at k).sym = x := by
  constructor
  · rintro ⟨p, k, hk, hleaf, hsym⟩
    exact ⟨k.toNat, h.tree.lt_of_leaf (h.follow_lt hk) hleaf, hsym⟩
  · rintro ⟨k, hk, hsym⟩
    obtain ⟨p, j, hj, rfl⟩ := h.exists_path (c := k) (by omega)
    obtain ⟨hleaf, -⟩ := h.tree.leaves j.toNat hk
    exact ⟨p, j, hj, hleaf, hsym⟩

end

/-- A present entry of a table of bit-strings holds one of its symbol's. -/
theorem CodeTable.Records.string {c : CodeTable} {P : Symbol → List Bool → Prop} (h : c.Records P)
    (len : ∀ x p, P x p → p.length ≤ 255) {x : Symbol} (present : (c.at x).present = true) : P x (c.at x).string := by
  obtain hx | ⟨p, hp, hx⟩ := h x
  · simp [hx, CodeEntry.absent] at present
  · rwa [hx, CodeEntry.string_ofString p (len x p hp)]

/-! ### The statements on BUILD_CODES -/

/-- Settles O35: every present entry is a path to its symbol's leaf, every leaf is reached, and a leaf has one path. -/
theorem buildCodesRecordsThePaths : Obligations.BuildCodesRecordsThePaths := by
  intro s n ok tree hn
  have inner := tree.root_inner hn
  obtain ⟨codes, walk⟩ := tree.exists_table
  have root : ∀ e ∈ [(s.root, ([] : List Bool))], s.node.follow s.root e.2 = some e.1 := List.forall_mem_singleton.mpr rfl
  have records : codes.Records s.leafPath := codeWalk_records root (CodeTable.records_empty _) walk
  have covered : s.Covered [] codes :=
    codeWalk_covered root (fun _ p _ => .inr ⟨_, List.mem_singleton_self _, p.nil_prefix⟩) walk
  have present {x p} (hp : s.leafPath x p) : (codes.at x).present = true := (covered x p hp).resolve_right (by simp)
  have path {x} (hx : (codes.at x).present = true) : s.leafPath x (codes.at x).string := by
    refine records.string (fun x p hp => (tree.length_leafPath hp).trans ?_) hx
    obtain ⟨-, hle⟩ := tree.tree.size
    omega
  obtain ⟨legal, -⟩ := State.codesInv_of_walk (t := { s with code := codes }) tree inner walk
  refine ⟨_, exec_buildCodes_of_table ok tree.nodeCnt_ne inner walk, rfl, legal, fun x => ?_, fun x => path, fun x p hp => ?_⟩
  · rw [← tree.exists_leafPath_iff]
    exact ⟨fun hx => ⟨_, path hx⟩, fun ⟨_, hp⟩ => present hp⟩
  · exact tree.leafPath_unique (path (present hp)) hp

/-- Settles O37: a root that is a leaf gives the only code; otherwise the codes are paths to leaves, and no leaf lies below another. -/
theorem builtCodesArePrefixFree : Obligations.BuiltCodesArePrefixFree := by
  intro s n ok tree
  cases hroot : (s.node.at s.root.toNat).leaf with
  | true =>
    obtain ⟨-, prefixFree⟩ := State.codesInv_of_oneCode (s := { s with
      code := CodeTable.empty.put (s.node.at s.root.toNat).sym (CodeEntry.ofString [false]) }) rfl
    exact ⟨_, exec_buildCodes_of_leaf ok tree.nodeCnt_ne hroot, prefixFree⟩
  | false =>
    obtain ⟨codes, walk⟩ := tree.exists_table
    obtain ⟨-, prefixFree⟩ := State.codesInv_of_walk (t := { s with code := codes }) tree hroot walk
    exact ⟨_, exec_buildCodes_of_table ok tree.nodeCnt_ne hroot walk, prefixFree⟩

/-- Settles O32: without a tree the command faults at once, and the fault empties CODE. -/
theorem buildCodesWithoutTreeFaults : Obligations.BuildCodesWithoutTreeFaults :=
  fun _ ok noTree => ⟨_, exec_buildCodes_of_noTree ok noTree, rfl, CodeTable.at_empty⟩

/-- Settles O33: the root is the first node that the walk visits, and the fault empties CODE. -/
theorem buildCodesReportsAMalformedRoot : Obligations.BuildCodesReportsAMalformedRoot := by
  intro s ok held inner malformed
  have bad : badChild s.nodeCnt.toNat (s.node.at s.root.toNat).left = true ∨
      badChild s.nodeCnt.toNat (s.node.at s.root.toNat).right = true := by
    rw [badChild_eq_true, badChild_eq_true]
    obtain hl | hr | hl | hr := malformed
    · exact .inl (.inl hl)
    · exact .inr (.inl hr)
    · exact .inl (.inr hl)
    · exact .inr (.inr hr)
  refine ⟨_, exec_buildCodes_of_malformed ok held inner (codeWalk_of_badChild inner bad), ?_, CodeTable.at_empty⟩
  rw [BitVec.ofNat_toNat]
  rfl

/-- Settles O34: the symbol of a root that is a leaf is the only one that gets a code. -/
theorem buildCodesOfASingleLeaf : Obligations.BuildCodesOfASingleLeaf :=
  fun _ ok held leaf => ⟨_, exec_buildCodes_of_leaf ok held leaf, rfl, CodeTable.at_put_self ..,
    fun x hx => (CodeTable.at_put_of_ne _ _ hx).trans (CodeTable.at_empty x)⟩

end Sys2Proof.Machine

/-! ## ENCODE -/

namespace Sys2Proof.Machine

/-! ### What the command does -/

/-- What is made of each symbol of the input, by the positions in SYM_IN (rules R27, R69). -/
theorem State.map_input {α : Type} (s : State) (f : Symbol → α) :
    s.input.map f = (List.range s.inLen.toNat).map fun i => f (s.symIn i) :=
  List.map_map

theorem State.forall_mem_input {s : State} {P : Symbol → Prop} :
    (∀ x ∈ s.input, P x) ↔ ∀ i < s.inLen.toNat, P (s.symIn i) := by
  simp [State.input]

theorem exec_encode_of_found {s : State} (ok : s.err = 0#3) {bits : List Bool} (found : encodeFrom s.code 0 s.input = .ok bits) :
    exec .encode s = .next { s with
      mem := s.mem.writeBytes Config.bitbufBase (packBits bits), bitLen := BitVec.ofNat 24 bits.length } := by
  rw [exec, execEncode, State.runCommand_of_ok _ ok]
  simp only [found]

theorem exec_encode_of_unknown {s : State} (ok : s.err = 0#3) {i : Nat} {x : Symbol}
    (unknown : encodeFrom s.code 0 s.input = .error (i, x)) :
    exec .encode s = .next (s.raise .unknownSymbol (unknownSymbolInfo i x) .bitstream) := by
  rw [exec, execEncode, State.runCommand_of_ok _ ok]
  simp only [unknown]

/-- BIT_LEN is as wide as the longest stream needs (rule R9). -/
theorem toNat_bitLen_encode {s : State} {bits : List Bool} (found : encodeFrom s.code 0 s.input = .ok bits) :
    (BitVec.ofNat 24 bits.length).toNat = bits.length := by
  have hbits := encodeFrom_length found
  have hlen := s.inLen.isLt
  rw [State.length_input, Config.codeMax] at hbits
  rw [BitVec.toNat_ofNat]
  omega

@[simp] theorem CodeEntry.length_string (e : CodeEntry) : e.string.length = e.len.toNat := by
  simp [CodeEntry.string]

/-- ERR_INFO of an UnknownSymbol by its fields (rule R203). -/
theorem unknownSymbolInfo_fields {i : Nat} (h : i < 2 ^ 16) (x : Symbol) :
    (unknownSymbolInfo i x).extractLsb' 0 8 = x ∧ ((unknownSymbolInfo i x).extractLsb' 8 16).toNat = i ∧
    (unknownSymbolInfo i x).extractLsb' 24 8 = 0#8 := by
  have hword : (unknownSymbolInfo i x).toNat = x.toNat + 0x100 * i := by
    rw [unknownSymbolInfo, toNat_append_eq_add, toNat_append_eq_add, BitVec.toNat_ofNat, BitVec.toNat_ofNat]
    omega
  have hx := x.isLt
  simp only [extractLsb'_eq_iff, BitVec.extractLsb'_toNat, Nat.shiftRight_eq_div_pow, BitVec.toNat_ofNat]
  omega

/-! ### The bytes that the packer writes -/

/-- A packed byte lies in BITBUF where its first bit is stored (rule R72). -/
theorem streamByteAddr_byte (q : Nat) {j : Nat} (hj : j < 8) : streamByteAddr (8 * q + j) = Config.bitbufBase + q := by
  rw [streamByteAddr]
  omega

/-- The bits of the written stream, 0 after its end up to the end of its last byte (rules R72, R73, R157). -/
theorem Memory.bitGet_writeBytes_packBits (m : Memory) (bits : List Bool) {k : Nat} (h : k < 8 * ((bits.length + 7) / 8)) :
    (m.writeBytes Config.bitbufBase (packBits bits)).bitGet k = bits.getD k false := by
  have hbyte : k / 8 < (packBits bits).length := by
    rw [length_packBits]
    omega
  rw [Memory.bitGet, streamByteAddr, Memory.read_writeBytes_inside _ _ _ hbyte]
  simp only [packBits, List.getElem_map, List.getElem_range]
  rw [getLsbD_byteOfBits _ _ (Nat.mod_lt _ (by decide)), Nat.div_add_mod]

/-! ### The BitPut loop -/

theorem Memory.putBits_append (m : Memory) (pos : Nat) (xs ys : List Bool) :
    m.putBits pos (xs ++ ys) = (m.putBits pos xs).putBits (pos + xs.length) ys := by
  induction xs generalizing m pos with
  | nil => rfl
  | cons x xs ih => rw [List.cons_append, Memory.putBits, ih, List.length_cons, Nat.add_assoc, Nat.add_comm 1]; rfl

/-- The loop of rule R155 makes the lookups of ENCODE and puts the bits they give. -/
theorem encodeLoop_eq (codes : CodeTable) (m : Memory) (pos i : Nat) (xs : List Symbol) :
    encodeLoop codes m pos i xs =
      (encodeFrom codes i xs).map fun bits => (m.putBits pos bits, pos + bits.length) := by
  induction xs generalizing m pos i with
  | nil => rfl
  | cons x xs ih =>
    by_cases hx : (codes.at x).present = true
    · simp only [encodeLoop, encodeFrom, hx, if_true, ih]
      cases encodeFrom codes (i + 1) xs with
      | ok bits => simp [Except.map, Memory.putBits_append, Nat.add_assoc]
      | error e => rfl
    · rw [encodeLoop, encodeFrom, if_neg hx, if_neg hx]
      rfl

/-- Setting every bit of a byte forgets what it held (rule R72). -/
theorem setBit_eight (v : Byte) (b : Nat → Bool) :
    setBit (setBit (setBit (setBit (setBit (setBit (setBit (setBit v 7 (b 0)) 6 (b 1)) 5 (b 2)) 4 (b 3)) 3 (b 4)) 2 (b 5)) 1 (b 6))
      0 (b 7) = byteOfBits b := by
  apply BitVec.eq_of_getLsbD_eq
  intro i hi
  have hb := getLsbD_byteOfBits b (7 - i) (by omega)
  rw [show 7 - (7 - i) = i by omega] at hb
  simp only [hb, getLsbD_setBit _ _ hi]
  interval_cases i <;> rfl

theorem Memory.bitPut_byte (m : Memory) (q : Nat) {j : Nat} (hj : j < 8) (b : Bool) :
    m.bitPut (8 * q + j) b =
      m.write (Config.bitbufBase + q) (setBit (m.read (Config.bitbufBase + q)) (7 - j) b) := by
  rw [Memory.bitPut, streamByteAddr_byte q hj, Nat.mul_add_mod, Nat.mod_eq_of_lt hj]

/-- Eight bits put from a byte's first position are one store of the packed byte. -/
theorem Memory.putBits_byte (m : Memory) (q : Nat) (b : Nat → Bool) :
    m.putBits (8 * q) ((List.range 8).map b) = m.write (Config.bitbufBase + q) (byteOfBits b) := by
  have eight : (List.range 8).map b = [b 0, b 1, b 2, b 3, b 4, b 5, b 6, b 7] := rfl
  have first := m.bitPut_byte q (j := 0) (by decide) (b 0)
  rw [Nat.add_zero] at first
  simp only [eight, Memory.putBits, Nat.add_assoc, Nat.reduceAdd, first]
  simp only [Memory.bitPut_byte _ q, Nat.reduceLT, Memory.read_write_self, Memory.write_write, Nat.reduceSub, setBit_eight]

/-- Whole bytes put bit by bit are the packed bytes stored one after another. -/
theorem Memory.putBits_bytes (m : Memory) (b : Nat → Bool) (n : Nat) :
    m.putBits 0 ((List.range (8 * n)).map b) =
      m.writeBytes Config.bitbufBase ((List.range n).map fun i => byteOfBits fun j => b (8 * i + j)) := by
  induction n with
  | zero => rfl
  | succ n ih =>
    have last := (m.putBits 0 ((List.range (8 * n)).map b)).putBits_byte n fun j => b (8 * n + j)
    rw [Nat.mul_succ, List.range_add, List.map_append, List.map_map, Memory.putBits_append, List.length_map, List.length_range,
      Nat.zero_add]
    refine last.trans ?_
    rw [ih, List.range_succ, List.map_append, Memory.writeBytes_append, List.length_map, List.length_range]
    rfl

/-- The padding completes the last byte (rule R157). -/
theorem Memory.zeroFill_eq (m : Memory) (pos : Nat) :
    m.zeroFill pos = m.putBits pos (List.replicate (8 * ((pos + 7) / 8) - pos) false) := by
  rw [Memory.zeroFill]
  split
  · rw [show 8 * ((pos + 7) / 8) - pos = 0 by omega]
    rfl
  · rw [show 8 * ((pos + 7) / 8) - pos = 8 - pos % 8 by omega]

/-- A bit-string with zeros after it, by its positions. -/
theorem append_replicate_false (bits : List Bool) {n : Nat} (h : bits.length ≤ n) :
    bits ++ List.replicate (n - bits.length) false = (List.range n).map fun k => bits.getD k false := by
  apply List.ext_getElem
  · simp [h]
  · intro k hk _
    by_cases hlt : k < bits.length
    · simp [hlt]
    · simp [List.getElem_append, hlt]

/-- The BitPut loop with its padding stores the packed bytes (rules R72, R73, R155, R157). -/
theorem Memory.zeroFill_putBits (m : Memory) (bits : List Bool) :
    (m.putBits 0 bits).zeroFill bits.length = m.writeBytes Config.bitbufBase (packBits bits) := by
  have append := m.putBits_append 0 bits (List.replicate (8 * ((bits.length + 7) / 8) - bits.length) false)
  rw [Nat.zero_add] at append
  rw [Memory.zeroFill_eq, ← append, append_replicate_false bits (by omega), Memory.putBits_bytes]
  rfl

/-! ### The statements on ENCODE -/

/-- Settles O39: the lookups give the codes in order, and the packer writes their bits and the fill bits and no other byte. -/
theorem encodePacksTheCodes : Obligations.EncodePacksTheCodes := by
  intro s ok present
  have found : encodeFrom s.code 0 s.input =
      .ok ((List.range s.inLen.toNat).map fun i => (s.code.at (s.symIn i)).string).flatten :=
    encodeFrom_eq_ok.mpr ⟨State.forall_mem_input.mpr present, by rw [s.map_input]⟩
  have bitLen := toNat_bitLen_encode found
  refine ⟨_, _, exec_encode_of_found ok found, rfl, ?_, bitLen, bitLen.trans ?_, fun k hk => ?_, fun k hle hk => ?_,
    fun a outside => ?_⟩
  · rw [Memory.writeBytes_draws]
  · simp [List.length_flatten, Function.comp_def]
  · exact s.mem.bitGet_writeBytes_packBits _ (by omega)
  · exact (s.mem.bitGet_writeBytes_packBits _ hk).trans (List.getD_eq_default _ _ hle)
  · exact s.mem.read_writeBytes_outside _ _ (by rwa [length_packBits])

/-- Settles O40: the lookups end at the first symbol without a code, and the fault makes the bitstream invalid. -/
theorem encodeReportsTheFirstUnknownSymbol : Obligations.EncodeReportsTheFirstUnknownSymbol := by
  intro s i ok hi absent before
  have unknown : encodeFrom s.code 0 s.input = .error (i, s.symIn i) :=
    encodeFrom_eq_error.mpr ⟨i, by rwa [s.length_input], (Nat.zero_add i).symm, by simp [State.input], absent,
      fun l hl => by simpa [State.input] using before l hl⟩
  obtain ⟨symbol, index, above⟩ := unknownSymbolInfo_fields (hi.trans s.inLen.isLt) (s.symIn i)
  exact ⟨_, exec_encode_of_unknown ok unknown, rfl, symbol, index, above, fun _ => s.mem.read_havocBitbuf_inside _,
    Nat.lt_succ_self _, fun _ => s.mem.read_havocBitbuf_outside _⟩

/-- Settles O42: the loop makes the same lookups, and its BitPuts with the padding store the packed bytes. -/
theorem encodeMatchesTheBitLoop : Obligations.EncodeMatchesTheBitLoop := by
  intro s m pos ok _ loop
  rw [encodeLoop_eq] at loop
  cases found : encodeFrom s.code 0 s.input with
  | error e =>
    rw [found] at loop
    cases loop
  | ok bits =>
    rw [found] at loop
    cases loop
    rw [exec_encode_of_found ok found, Nat.zero_add, Memory.zeroFill_putBits]

/-- Settles O41: there is nothing to look up and no byte to write. -/
theorem encodeOfEmptyInput : Obligations.EncodeOfEmptyInput := by
  intro s ok empty
  have input : s.input = [] := List.length_eq_zero_iff.mp (by rw [s.length_input, empty]; rfl)
  have found : encodeFrom s.code 0 s.input = .ok [] := by rw [input]; rfl
  exact exec_encode_of_found ok found

end Sys2Proof.Machine

/-! ## DECODE

The walk follows the bits through the tree: over a path to an internal node it only moves its cursor (`decodeWalk_inner`), over a
path to a leaf it gives one symbol and starts again at the root (`decodeWalk_leaf`). So it reads a stream as whole codes and a rest
(rules R170, R171, R175). -/

namespace Sys2Proof.Machine

/-! ### How the command ends -/

/-- What DECODE makes of the stream: the recovered symbols or the malformation (rules R170 to R176). -/
def State.decoded (s : State) : Except Malformed (List Symbol) :=
  if s.bitLen = 0#24 then .ok []
  else if s.nodeCnt = 0#10 then .error ⟨3#8, 0⟩
  else if (s.node.at s.root.toNat).leaf then .ok (List.replicate s.bitLen.toNat (s.node.at s.root.toNat).sym)
  else decodeWalk s.node s.root s.stream s.root 0 0

/-- The state that DECODE leaves: the symbols in SYM_OUT, or the fault (rules R171, R177). -/
def State.conclude (s : State) : Except Malformed (List Symbol) → State
  | .ok out => s.deliver out
  | .error e => s.raise .malformedBitstream (malformedInfo e) .recovered

theorem exec_decode {s : State} (ok : s.err = 0#3) {r : Except Malformed (List Symbol)} (decoded : s.decoded = r) :
    exec .decode s = .next (s.conclude r) := by
  rw [← decoded, exec, execDecode, State.runCommand_of_ok _ ok, State.decoded]
  dsimp only
  split
  · rfl
  · split
    · rfl
    · split
      · rfl
      · cases decodeWalk s.node s.root s.stream s.root 0 0 <;> rfl

section
variable {s : State}

theorem State.decoded_of_noBits (empty : s.bitLen = 0#24) : s.decoded = .ok [] := if_pos empty

theorem State.decoded_of_noTree (bits : s.bitLen ≠ 0#24) (noTree : s.nodeCnt = 0#10) : s.decoded = .error ⟨3#8, 0⟩ := by
  rw [State.decoded, if_neg bits, if_pos noTree]

theorem State.decoded_of_leaf (bits : s.bitLen ≠ 0#24) (held : s.nodeCnt ≠ 0#10) (leaf : (s.node.at s.root.toNat).leaf = true) :
    s.decoded = .ok (List.replicate s.bitLen.toNat (s.node.at s.root.toNat).sym) := by
  rw [State.decoded, if_neg bits, if_neg held, if_pos leaf]

/-- With an internal root the walk decides; over no bits it gives no symbol, as rule R173 asks. -/
theorem State.decoded_of_inner (held : s.nodeCnt ≠ 0#10) (inner : (s.node.at s.root.toNat).leaf = false) :
    s.decoded = decodeWalk s.node s.root s.stream s.root 0 0 := by
  by_cases empty : s.bitLen = 0#24
  · have noBits : s.stream = [] := List.length_eq_zero_iff.mp (by rw [s.length_stream, empty]; rfl)
    rw [State.decoded_of_noBits empty, noBits, decodeWalk, if_pos rfl]
  · rw [State.decoded, if_neg empty, if_neg held, if_neg (Bool.eq_false_iff.mp inner)]

/-- DECODE gives at most one symbol for each bit (rules R171, R172). -/
theorem State.length_decoded {out : List Symbol} (h : s.decoded = .ok out) : out.length ≤ s.bitLen.toNat := by
  rw [State.decoded] at h
  split at h
  · cases h; exact Nat.zero_le _
  · split at h
    · cases h
    · split at h
      · cases h; exact (List.length_replicate ..).le
      · exact (decodeWalk_length h).trans_eq s.length_stream

/-- The bits below BIT_LEN are the stream (rule R180). -/
theorem State.stream_congr {s' : State} (len : s'.bitLen = s.bitLen) (bits : ∀ k < s.bitLen.toNat, s'.bitGet k = s.bitGet k) :
    s'.stream = s.stream := by
  rw [State.stream, len]
  exact List.map_congr_left fun k hk => bits k (List.mem_range.mp hk)

end

/-! ### The recovered symbols and the fault -/

theorem State.symOut_deliver (s : State) (out : List Symbol) {i : Nat} (h : i < out.length) : (s.deliver out).symOut i = out[i] :=
  s.mem.read_writeBytes_inside _ _ h

theorem State.read_deliver_outside (s : State) (out : List Symbol) {a : Nat}
    (h : ¬ (Config.symOutBase ≤ a ∧ a < Config.symOutBase + out.length)) : (s.deliver out).mem.read a = s.mem.read a :=
  s.mem.read_writeBytes_outside _ _ h

/-- DECODE changes the listed bytes and OUT_LEN only (rule R51). -/
theorem State.deliver_eq (s : State) (out : List Symbol) :
    s.deliver out =
      { s with mem := { s.mem with cells := (s.deliver out).mem.cells }, outLen := (s.deliver out).outLen } := by
  rw [State.deliver, ← Memory.writeBytes_draws]

/-- OUT_LEN is as wide as the longest result needs (rule R9). -/
theorem State.toNat_outLen_deliver {s : State} {out : List Symbol} (h : s.decoded = .ok out) :
    (s.deliver out).outLen.toNat = out.length := by
  have hle := s.length_decoded h
  have hlen := s.bitLen.isLt
  rw [State.deliver, BitVec.toNat_ofNat]
  omega

/-- ERR_INFO of a MalformedBitstream by its fields (rule R204). -/
theorem malformedInfo_fields (sub : BitVec 8) {pos : Nat} (h : pos < 2 ^ 24) :
    (malformedInfo ⟨sub, pos⟩).extractLsb' 24 8 = sub ∧ ((malformedInfo ⟨sub, pos⟩).extractLsb' 0 24).toNat = pos := by
  have hword : (malformedInfo ⟨sub, pos⟩).toNat = pos + 0x1000000 * sub.toNat := by
    rw [malformedInfo, toNat_append_eq_add, BitVec.toNat_ofNat, Nat.mod_eq_of_lt h, Nat.add_comm]
    rfl
  have hsub := sub.isLt
  simp only [extractLsb'_eq_iff, BitVec.extractLsb'_toNat, Nat.shiftRight_eq_div_pow]
  omega

/-! ### The walk over a path -/

/-- The first step of a path to an internal node goes to an internal node. -/
theorem NodeArena.follow_cons_inner {t : NodeArena} {cur j : NodeIdx} {b : Bool} {p : List Bool}
    (hp : t.follow cur (b :: p) = some j) (inner : (t.at j.toNat).leaf = false) :
    (t.at cur.toNat).leaf = false ∧ (t.at ((t.at cur.toNat).child b).toNat).leaf = false ∧
      t.follow ((t.at cur.toNat).child b) p = some j := by
  cases hcur : (t.at cur.toNat).leaf with
  | true => simp [NodeArena.follow, hcur] at hp
  | false =>
    have hrest : t.follow ((t.at cur.toNat).child b) p = some j := by simpa [NodeArena.follow, hcur] using hp
    refine ⟨rfl, ?_, hrest⟩
    cases p with
    | nil => rwa [Option.some.inj hrest]
    | cons c p =>
      refine Bool.eq_false_of_not_eq_true fun hleaf => ?_
      simp [NodeArena.follow, hleaf] at hrest

/-- Over a path to an internal node the walk only moves its cursor (rule R170). -/
theorem decodeWalk_inner {t : NodeArena} {root cur j : NodeIdx} {p : List Bool} (hp : t.follow cur p = some j)
    (inner : (t.at j.toNat).leaf = false) (bits : List Bool) (k start : Nat) :
    decodeWalk t root (p ++ bits) cur k start = decodeWalk t root bits j (k + p.length) start := by
  induction p generalizing cur k with
  | nil => rw [Option.some.inj hp]; rfl
  | cons b p ih =>
    obtain ⟨hcur, hnext, hrest⟩ := NodeArena.follow_cons_inner hp inner
    rw [List.cons_append, decodeWalk, if_neg (Bool.eq_false_iff.mp hcur)]
    dsimp only
    rw [if_neg (Bool.eq_false_iff.mp hnext), ih hrest, List.length_cons, Nat.add_assoc, Nat.add_comm 1]

/-- Over a path to a leaf below its root the walk gives the leaf's symbol and starts the next code (rules R170, R171). -/
theorem decodeWalk_leaf {t : NodeArena} {root cur j : NodeIdx} {p : List Bool} (hp : t.follow cur p = some j) (hne : p ≠ [])
    (leaf : (t.at j.toNat).leaf = true) (bits : List Bool) (k start : Nat) :
    decodeWalk t root (p ++ bits) cur k start =
      (decodeWalk t root bits root (k + p.length) (k + p.length)).map ((t.at j.toNat).sym :: ·) := by
  obtain ⟨q, b, rfl⟩ := p.eq_nil_or_concat'.resolve_left hne
  obtain ⟨i, hi, inner, rfl⟩ := NodeArena.follow_concat_eq_some hp
  rw [List.append_assoc, List.singleton_append, decodeWalk_inner hi inner, decodeWalk, if_neg (Bool.eq_false_iff.mp inner)]
  dsimp only
  rw [if_pos leaf, List.length_append, List.length_singleton, Nat.add_assoc]
  cases decodeWalk t root bits root (k + (q.length + 1)) (k + (q.length + 1)) <;> rfl

/-- The stream of whole codes, one after another. -/
def codeBits (codes : List (Symbol × List Bool)) : List Bool := (codes.map fun c => c.2).flatten

theorem codeBits_cons (c : Symbol × List Bool) (codes : List (Symbol × List Bool)) :
    codeBits (c :: codes) = c.2 ++ codeBits codes := rfl

/-- The walk from the root reads whole codes as their symbols and goes on with what follows them (rules R170, R171). -/
theorem decodeWalk_codes {s : State} (inner : (s.node.at s.root.toNat).leaf = false) {codes : List (Symbol × List Bool)}
    (paths : ∀ c ∈ codes, s.leafPath c.1 c.2) (bits : List Bool) (k : Nat) :
    decodeWalk s.node s.root (codeBits codes ++ bits) s.root k k =
      (decodeWalk s.node s.root bits s.root (k + (codeBits codes).length) (k + (codeBits codes).length)).map
        ((codes.map fun c => c.1) ++ ·) := by
  induction codes generalizing k with
  | nil => exact (congrFun Except.map_id _).symm
  | cons c codes ih =>
    obtain ⟨hc, paths⟩ := List.forall_mem_cons.mp paths
    have hne := List.ne_nil_of_length_pos (State.length_pos_leafPath hc inner)
    obtain ⟨j, hj, leaf, hsym⟩ := hc
    rw [codeBits_cons, List.append_assoc, decodeWalk_leaf hj hne leaf, ih paths, hsym, List.length_append, Nat.add_assoc]
    cases decodeWalk s.node s.root bits s.root _ _ <;> rfl

/-! ### The command over a tree -/

section
variable {s : State} {n : Nat} (h : s.HoldsTree n) (hn : 2 ≤ n) {codes : List (Symbol × List Bool)}
  (paths : ∀ c ∈ codes, s.leafPath c.1 c.2)
include h hn paths

/-- What DECODE makes of whole codes and a path to an internal node. -/
theorem State.HoldsTree.decoded_eq {q : List Bool} {j : NodeIdx} (hq : s.node.follow s.root q = some j)
    (inner : (s.node.at j.toNat).leaf = false) (stream : s.stream = codeBits codes ++ q) :
    s.decoded = (decodeWalk s.node s.root [] j ((codeBits codes).length + q.length)
      (codeBits codes).length).map ((codes.map fun c => c.1) ++ ·) := by
  have rest := decodeWalk_inner (root := s.root) hq inner []
  rw [List.append_nil] at rest
  rw [State.decoded_of_inner h.nodeCnt_ne (h.root_inner hn), stream, decodeWalk_codes (h.root_inner hn) paths, rest, Nat.zero_add]

/-- Whole codes decode to their symbols. -/
theorem State.HoldsTree.decoded_of_codes (stream : s.stream = codeBits codes) :
    s.decoded = .ok (codes.map fun c => c.1) := by
  rw [h.decoded_eq hn paths rfl (h.root_inner hn) (stream.trans (List.append_nil _).symm), decodeWalk, if_pos rfl]
  exact congrArg _ (List.append_nil _)

/-- A path that ends short of a leaf is an incomplete code, for only the empty path ends at the root (rule R175). -/
theorem State.HoldsTree.decoded_of_truncated {q : List Bool} (hq : s.innerPath q) (hne : q ≠ [])
    (stream : s.stream = codeBits codes ++ q) :
    s.decoded = .error ⟨2#8, (codeBits codes).length⟩ := by
  obtain ⟨j, hj, inner⟩ := hq
  have notRoot : j ≠ s.root := fun hroot => hne (h.path_unique hj (hroot ▸ rfl))
  rw [h.decoded_eq hn paths hj inner stream, decodeWalk, if_neg notRoot]
  rfl

end

/-! ### The statements on DECODE -/

/-- Settles O45: the root's symbol is delivered once per bit, and no bit is looked at. -/
theorem decodeWithASingleLeaf : Obligations.DecodeWithASingleLeaf := by
  intro s ok bits held leaf
  have decoded := s.decoded_of_leaf bits held leaf
  have outLen : (s.deliver (List.replicate s.bitLen.toNat (s.node.at s.root.toNat).sym)).outLen = s.bitLen :=
    BitVec.eq_of_toNat_eq ((State.toNat_outLen_deliver decoded).trans (List.length_replicate ..))
  refine ⟨_, exec_decode ok decoded, ?_, fun i hi => ?_, fun a outside => ?_⟩
  · exact (s.deliver_eq _).trans (by rw [outLen]; rfl)
  · exact (s.symOut_deliver _ (by rwa [List.length_replicate])).trans (List.getElem_replicate ..)
  · exact s.read_deliver_outside _ (by rwa [List.length_replicate])

/-- Settles O46: the walk goes from the root to a leaf once for each code. -/
theorem decodeRecoversWholeCodes : Obligations.DecodeRecoversWholeCodes := by
  intro s n codes ok tree hn paths stream
  have decoded := tree.decoded_of_codes hn paths stream
  refine ⟨_, exec_decode ok decoded, s.deliver_eq _, ?_, fun i hi => ?_, fun a outside => ?_⟩
  · exact (State.toNat_outLen_deliver decoded).trans (List.length_map _)
  · have hi' : i < (codes.map fun c => c.1).length := by rwa [List.length_map]
    exact (s.symOut_deliver _ hi').trans (List.getD_eq_getElem _ _ hi').symm
  · exact s.read_deliver_outside _ (by rwa [List.length_map])

/-- Settles O47: the walk ends below the root, and the current code began where the whole codes end. -/
theorem decodeReportsTruncation : Obligations.DecodeReportsTruncation := by
  intro s n codes q ok tree hn paths hq hne stream
  have decoded := tree.decoded_of_truncated hn paths hq hne stream
  have short : (codeBits codes).length < 2 ^ 24 := by
    have hlen := congrArg List.length (a₂ := codeBits codes ++ q) stream
    have := s.bitLen.isLt
    rw [s.length_stream, List.length_append] at hlen
    omega
  obtain ⟨sub, pos⟩ := malformedInfo_fields 2#8 short
  exact ⟨_, exec_decode ok decoded, rfl, sub, pos, fun _ => s.mem.read_havocSymOut_inside _, Nat.lt_succ_self _,
    fun _ => s.mem.read_havocSymOut_outside _⟩

/-- Settles O48, by induction on the bits from the end: one more bit either completes the current code or goes on inside it. -/
theorem everyStreamIsCodesAndAnInnerPath : Obligations.EveryStreamIsCodesAndAnInnerPath := by
  intro s n bits tree hn
  have root : s.innerPath [] := ⟨s.root, rfl, tree.root_inner hn⟩
  induction bits using List.reverseRecOn with
  | nil => exact ⟨[], [], by simp, root, rfl⟩
  | append_singleton bits b ih =>
    obtain ⟨codes, q, paths, ⟨j, hj, inner⟩, rfl⟩ := ih
    have next := NodeArena.follow_child hj inner b
    cases hleaf : (s.node.at ((s.node.at j.toNat).child b).toNat).leaf with
    | true =>
      refine ⟨codes ++ [((s.node.at ((s.node.at j.toNat).child b).toNat).sym, q ++ [b])], [], ?_, root, by simp⟩
      exact List.forall_mem_append.mpr ⟨paths, List.forall_mem_singleton.mpr ⟨_, next, hleaf, rfl⟩⟩
    | false => exact ⟨codes, q ++ [b], paths, ⟨_, next, hleaf⟩, List.append_assoc ..⟩

/-- Settles O50: both states make the same of the stream, and what they deliver or report is that alone. -/
theorem decodeReadsOnlyTheStream : Obligations.DecodeReadsOnlyTheStream := by
  intro s s' ok ok' len cnt root node bits
  have same : s'.decoded = s.decoded := by
    rw [State.decoded, State.stream_congr len bits, len, cnt, root, node]
    rfl
  refine ⟨_, _, exec_decode ok rfl, exec_decode ok' same, ?_⟩
  cases decoded : s.decoded with
  | ok out =>
    refine ⟨ok'.trans ok.symm, rfl, fun faulted => absurd ok faulted, fun i hi => ?_⟩
    have hi : i < out.length := (State.toNat_outLen_deliver decoded) ▸ hi
    exact (s'.symOut_deliver out hi).trans (s.symOut_deliver out hi).symm
  | error e => exact ⟨rfl, rfl, fun _ => rfl, fun i hi => absurd hi (Nat.not_lt_zero i)⟩

/-- Settles O43: no symbol is delivered, and the tree is not looked at. -/
theorem decodeOfEmptyStream : Obligations.DecodeOfEmptyStream :=
  fun s ok empty => exec_decode ok (s.decoded_of_noBits empty)

/-- Settles O44: the fault is raised before the walk, at position 0. -/
theorem decodeWithoutTreeFaults : Obligations.DecodeWithoutTreeFaults :=
  fun s ok bits noTree => ⟨_, exec_decode ok (s.decoded_of_noTree bits noTree), rfl,
    fun _ => s.mem.read_havocSymOut_inside _, Nat.lt_succ_self _, fun _ => s.mem.read_havocSymOut_outside _⟩

end Sys2Proof.Machine

/-! ## NOP and CLEAR (spec/45_control.md) -/

namespace Sys2Proof.Machine

/-- The gate of rules R91 and R208 makes no difference to a command without effect. -/
@[simp] theorem State.runCommand_next (s : State) : s.runCommand .next = .next s := by
  by_cases ok : s.err = 0#3
  · exact State.runCommand_of_ok _ ok
  · exact State.runCommand_of_fault _ ok

/-- Settles O3: CLEAR has no gate, and the registers and tables it leaves are the empty ones. -/
theorem clearResetsAllButBuffers : Obligations.ClearResetsAllButBuffers := by
  intro s
  have noTree : s.clearAll.nodeCnt = 0#10 := s.clearAll_nodeCnt
  have noCodes : s.clearAll.code = CodeTable.empty := s.clearAll_code
  exact ⟨s.clearAll, exec_clear s, rfl, rfl, rfl, rfl, rfl, rfl, rfl, rfl, State.codesValid_of_empty noCodes,
    State.nodeWord_of_noTree noTree, FreqTable.at_empty, CodeTable.at_empty, rfl, rfl, rfl, rfl⟩

/-- Settles O4: a faulted block ignores NOP, and in any other state NOP has no effect. -/
theorem nopChangesNothing : Obligations.NopChangesNothing :=
  fun s => s.runCommand_next

end Sys2Proof.Machine

/-! ## The faulted condition (spec/60_exceptions.md) -/

namespace Sys2Proof.Machine

/-- Taking a transaction off the list and answering it OKAY touches the model's own fields only. -/
theorem State.sameBlock_afterOkay (s : State) (rest : List HostInput) : s.SameBlock (s.afterOkay rest) :=
  ⟨rfl, rfl, rfl, rfl, rfl, rfl, rfl, rfl, rfl, rfl, rfl⟩

/-- Settles O5: every command but CLEAR has the gate of rule R208, and a write to CMD has been answered before its word is issued. -/
theorem faultedBlockExecutesOnlyClear : Obligations.FaultedBlockExecutesOnlyClear := by
  refine ⟨fun s i => exec_of_fault, fun s rest w fault input notClear => ?_⟩
  have ignored : issueCommand w (s.afterOkay rest) = .next (s.afterOkay rest) := issueCommand_ignored fault notClear
  exact ⟨(step_commandWrite input).trans ignored, s.sameBlock_afterOkay rest, _, rfl⟩

end Sys2Proof.Machine

/-! ## The tree and the counts under every step -/

namespace Sys2Proof.Machine

/-- Settles O57: a BUILD_TREE needs the counts bounded, so that the two invariants are kept together. -/
theorem stepKeepsTheTree : Obligations.StepKeepsTheTree :=
  fun _ _ bounded tree h => step_keeps (P := fun s => s.FreqBounded ∧ s.TreeInv)
    (fun _ _ c ⟨bounded, tree⟩ => ⟨c.keeps_freqBounded bounded, c.keeps_treeInv bounded tree⟩) h ⟨bounded, tree⟩

end Sys2Proof.Machine

/-! ## The reset input (spec/70_reset_and_hazards.md) -/

namespace Sys2Proof.Machine

theorem step_reset {s : State} {rest : List HostInput} (h : s.pending = .reset :: rest) :
    step s = .next (s.takeInput rest).applyReset := by
  rw [step, State.advance, h]
  rfl

/-- Settles O2: CLEAR's effect gives the registers and tables, and no byte is listed, so that each reads as its buffer's draw. -/
theorem resetInputGivesResetState : Obligations.ResetInputGivesResetState :=
  fun s _ input => ⟨_, _, step_reset input, exec_clear _, rfl, rfl, fun _ => Memory.unlisted_of_inSymIn _,
    fun _ => Memory.unlisted_of_inBitbuf _, fun _ => Memory.unlisted_of_inSymOut _, le_refl s.freeCtr,
    Nat.lt_succ_self _, Nat.lt_succ_self _, Nat.lt_succ_self _⟩

end Sys2Proof.Machine

/-! ## The counts of an input (rule R113) -/

namespace Sys2Proof.Machine

theorem State.length_input_lt (s : State) : s.input.length < 2 ^ 16 := s.length_input ▸ s.inLen.isLt

/-- The keys are the symbols that occur (rule R113). -/
theorem mem_keys_countSymbols {xs : List Symbol} (short : xs.length < 2 ^ 16) {x : Symbol} :
    x ∈ (countSymbols xs).keys ↔ x ∈ xs := by
  rw [FreqTable.mem_keys, countSymbols_at_toNat short, List.count_pos_iff]

/-- Each symbol of the input is counted once (rules R34, R113). -/
theorem total_countSymbols {xs : List Symbol} (short : xs.length < 2 ^ 16) : (countSymbols xs).total = xs.length := by
  have keys : (countSymbols xs).keys.toFinset = xs.toFinset := by
    ext x
    rw [List.mem_toFinset, List.mem_toFinset, mem_keys_countSymbols short]
  calc (countSymbols xs).total
      = ((countSymbols xs).keys.map fun x => ((countSymbols xs).at x).toNat).sum := (FreqTable.sum_keys _).symm
    _ = ∑ x ∈ xs.toFinset, xs.count x := by
        rw [← List.sum_toFinset _ (countSymbols xs).keys_pairwise.nodup, keys]
        exact Finset.sum_congr rfl fun x _ => countSymbols_at_toNat short x
    _ = xs.length := List.sum_toFinset_count_eq_length xs

/-- Settles O27: the keys' counts are the numbers of occurrences, and these sum to the input's length. -/
theorem freqTotalIsInputLength : Obligations.FreqTotalIsInputLength := by
  refine fun s ok => ⟨_, exec_freq_of_ok ok, (total_countSymbols s.length_input_lt).trans s.length_input, fun x => ?_⟩
  rw [← FreqTable.mem_keys, mem_keys_countSymbols s.length_input_lt]
  simp [State.input]

end Sys2Proof.Machine

/-! ## The lengths of the paths in a tree (rule R146) -/

namespace Sys2Proof.Machine

/-- Settles O38: the root of two or more leaves is internal, and the indices fall along a path through n - 1 internal nodes. -/
theorem codeLengthIsBounded : Obligations.CodeLengthIsBounded :=
  fun _ _ _ _ tree hn hp => ⟨State.length_pos_leafPath hp (tree.root_inner hn), tree.length_leafPath hp⟩

end Sys2Proof.Machine

/-! ## The malformations that DECODE reports (rules R174 to R176)

The walk's cursor is never a leaf: it starts at an internal root, and on meeting a leaf it goes back to the root. -/

namespace Sys2Proof.Machine

/-- From an internal node, with an internal root, the walk can only end inside a code (rule R175). -/
theorem decodeWalk_sub_of_error {t : NodeArena} {root cur : NodeIdx} {bits : List Bool} {k start : Nat} {e : Malformed}
    (rootInner : (t.at root.toNat).leaf = false) (curInner : (t.at cur.toNat).leaf = false)
    (h : decodeWalk t root bits cur k start = .error e) : e.sub = 2#8 := by
  induction bits generalizing cur k start e with
  | nil =>
    rw [decodeWalk] at h
    split at h <;> cases h
    rfl
  | cons b bits ih =>
    rw [decodeWalk, if_neg (Bool.eq_false_iff.mp curInner)] at h
    dsimp only at h
    split at h
    · split at h <;> cases h
      exact ih rootInner ‹_›
    · exact ih (Bool.eq_false_of_not_eq_true ‹_›) h

/-- DECODE's malformations are a truncation and a missing tree. -/
theorem State.decoded_sub_of_error {s : State} {e : Malformed} (h : s.decoded = .error e) : e.sub = 2#8 ∨ e.sub = 3#8 := by
  rw [State.decoded] at h
  split at h
  · cases h
  · split at h
    · cases h
      exact .inr rfl
    · split at h
      · cases h
      · have inner := Bool.eq_false_of_not_eq_true ‹¬ (s.node.at s.root.toNat).leaf = true›
        exact .inl (decodeWalk_sub_of_error inner inner h)

/-- The sub-cause has bits of its own in ERR_INFO, whatever the position (rule R204). -/
theorem extractLsb'_malformedInfo_sub (e : Malformed) : (malformedInfo e).extractLsb' 24 8 = e.sub := by
  have wrapped : malformedInfo e = malformedInfo ⟨e.sub, e.pos % 2 ^ 24⟩ :=
    congrArg (e.sub ++ ·) (BitVec.eq_of_toNat_eq (by simp))
  obtain ⟨sub, -⟩ := malformedInfo_fields e.sub (Nat.mod_lt e.pos (Nat.two_pow_pos 24))
  rw [wrapped, sub]

/-- Settles O49: what DECODE makes of the stream is symbols or one of the two other malformations. -/
theorem decodeNeverDescendsFromALeaf : Obligations.DecodeNeverDescendsFromALeaf := by
  refine fun s ok => ⟨_, exec_decode ok rfl, ?_⟩
  cases decoded : s.decoded with
  | ok out => exact .inl ok
  | error e =>
    refine .inr ⟨rfl, fun leafDescent => ?_⟩
    have sub : e.sub = 1#8 := (extractLsb'_malformedInfo_sub e).symm.trans leafDescent
    obtain truncated | noTree := State.decoded_sub_of_error decoded
    · cases sub.symm.trans truncated
    · cases sub.symm.trans noTree

end Sys2Proof.Machine

/-! ## The round trip (rule R178)

ENCODE writes the codes of the input's symbols, and DECODE reads them back as those symbols: over a tree of two or more leaves as
the paths to their leaves, over a single leaf as one bit for each symbol. -/

namespace Sys2Proof.Machine

/-! ### ENCODE before DECODE -/

/-- The codes of the input's symbols, one after another (rule R155). -/
def State.inputCodes (s : State) : List Bool := (s.input.map fun x => (s.code.at x).string).flatten

/-- The state that ENCODE leaves when every input symbol has a code (rules R155, R157). -/
def State.encoded (s : State) : State := { s with
  mem := s.mem.writeBytes Config.bitbufBase (packBits s.inputCodes), bitLen := BitVec.ofNat 24 s.inputCodes.length }

section
variable {s : State} (present : ∀ x ∈ s.input, (s.code.at x).present = true)
include present

theorem encodeFrom_of_present : encodeFrom s.code 0 s.input = .ok s.inputCodes := encodeFrom_eq_ok.mpr ⟨present, rfl⟩

theorem exec_encode_of_present (ok : s.err = 0#3) : exec .encode s = .next s.encoded :=
  exec_encode_of_found ok (encodeFrom_of_present present)

theorem State.encoded_bitLen_toNat : s.encoded.bitLen.toNat = s.inputCodes.length :=
  toNat_bitLen_encode (encodeFrom_of_present present)

/-- The stream that ENCODE leaves is the codes. -/
theorem State.encoded_stream : s.encoded.stream = s.inputCodes := by
  refine List.ext_getElem (by rw [State.length_stream, State.encoded_bitLen_toNat present]) fun k _ hk => ?_
  have bit : s.encoded.bitGet k = s.inputCodes.getD k false :=
    s.mem.bitGet_writeBytes_packBits s.inputCodes (by omega)
  simpa [State.stream, hk] using bit

end

/-- When the code of each input symbol is a path to its leaf, the stream decodes to the input (rules R170, R171). -/
theorem State.HoldsTree.decoded_encoded {s : State} {n : Nat} (tree : s.HoldsTree n) (hn : 2 ≤ n)
    (present : ∀ x ∈ s.input, (s.code.at x).present = true) (paths : ∀ x ∈ s.input, s.leafPath x (s.code.at x).string) :
    s.encoded.decoded = .ok s.input := by
  have held : s.encoded.HoldsTree n := ⟨tree.tree, tree.cnt, tree.root⟩
  have stream : s.encoded.stream = codeBits (s.input.map fun x => (x, (s.code.at x).string)) := by
    rw [State.encoded_stream present, codeBits, List.map_map]
    rfl
  have decoded := held.decoded_of_codes hn (List.forall_mem_map.mpr paths) stream
  simpa [Function.comp_def] using decoded

/-- When the root is the leaf of the only input symbol and its code is one bit, the stream decodes to the input (rule R172). -/
theorem State.decoded_encoded_of_leaf {s : State} (nonempty : s.inLen ≠ 0#16) (held : s.nodeCnt ≠ 0#10)
    (leaf : (s.node.at s.root.toNat).leaf = true) (only : ∀ x ∈ s.input, x = (s.node.at s.root.toNat).sym)
    (bit : s.code.at (s.node.at s.root.toNat).sym = CodeEntry.ofString [false]) : s.encoded.decoded = .ok s.input := by
  have input : s.input = List.replicate s.inLen.toNat (s.node.at s.root.toNat).sym :=
    List.eq_replicate_iff.mpr ⟨s.length_input, only⟩
  have bits : s.encoded.bitLen.toNat = s.inLen.toNat := by
    have present : ∀ x ∈ s.input, (s.code.at x).present = true := fun x hx => by rw [only x hx, bit, CodeEntry.ofString]
    rw [State.encoded_bitLen_toNat present, State.inputCodes, input]
    simp [bit, CodeEntry.ofString]
  have someBits : s.encoded.bitLen ≠ 0#24 := fun h => nonempty (BitVec.eq_of_toNat_eq (by rw [← bits, h]; rfl))
  have decoded := State.decoded_of_leaf someBits held leaf
  rwa [bits, show s.encoded.node = s.node from rfl, show s.encoded.root = s.root from rfl, ← input] at decoded

/-! ### BUILD_CODES before them -/

/-- Over a tree with a leaf for each symbol of a non-empty input, BUILD_CODES makes a table by which the input is recovered. -/
theorem State.HoldsTree.exists_decodable {s : State} {n : Nat} (tree : s.HoldsTree n) (ok : s.err = 0#3)
    (nonempty : s.inLen ≠ 0#16) (leaves : ∀ x ∈ s.input, ∃ k < n, (s.node.at k).sym = x) :
    ∃ t, exec .buildCodes s = .next t ∧ t.err = 0#3 ∧ t.input = s.input ∧ (∀ x ∈ t.input, (t.code.at x).present = true) ∧
      t.encoded.decoded = .ok t.input := by
  obtain ⟨hpos, -⟩ := tree.tree.size
  obtain rfl | hn := Nat.eq_or_lt_of_le hpos
  · have root : s.root.toNat = 0 := tree.root_toNat
    obtain ⟨leaf, -⟩ := tree.tree.leaves s.root.toNat (by omega)
    have only : ∀ x ∈ s.input, x = (s.node.at s.root.toNat).sym := fun x hx => by
      obtain ⟨k, hk, rfl⟩ := leaves x hx
      rw [root, Nat.lt_one_iff.mp hk]
    refine ⟨_, exec_buildCodes_of_leaf ok tree.nodeCnt_ne leaf, ok, rfl, fun x hx => ?_,
      State.decoded_encoded_of_leaf nonempty tree.nodeCnt_ne leaf only ?_⟩
    · rw [only x hx, CodeTable.at_put_self, CodeEntry.ofString]
    · exact CodeTable.at_put_self ..
  · obtain ⟨t, built, frame, -, coded, paths, -⟩ := buildCodesRecordsThePaths s n ok tree hn
    generalize t.code = c at frame coded paths
    subst frame
    have present : ∀ x ∈ s.input, (c.at x).present = true := fun x hx => (coded x).mpr (leaves x hx)
    have held : State.HoldsTree { s with code := c } n := ⟨tree.tree, tree.cnt, tree.root⟩
    exact ⟨_, built, ok, rfl, present, held.decoded_encoded hn present fun x hx => paths x (present x hx)⟩

/-! ### FREQ and BUILD_TREE before them -/

/-- The leaves of the built tree are the keys (rule R123). -/
theorem State.exists_leaf_builtTree {s : State} (bounded : s.FreqBounded) {x : Symbol} (hx : x ∈ s.freq.keys) :
    ∃ k < s.freq.keys.length, (s.builtTree.node.at k).sym = x := by
  obtain ⟨k, hk, rfl⟩ := List.mem_iff_getElem.mp hx
  exact ⟨k, hk, congrArg NodeRec.sym (builtArena_leaf bounded hk)⟩

/-- The state that FREQ leaves (rule R110). -/
def State.counted (s : State) : State := { s with freq := countSymbols s.input }

theorem State.counted_freqBounded (s : State) : s.counted.FreqBounded := by
  have total : s.counted.freq.total = s.inLen.toNat := (total_countSymbols s.length_input_lt).trans s.length_input
  rw [State.FreqBounded, total]
  exact Nat.le_of_lt_succ s.inLen.isLt

theorem State.mem_keys_counted {s : State} {x : Symbol} : x ∈ s.counted.freq.keys ↔ x ∈ s.input :=
  mem_keys_countSymbols s.length_input_lt

theorem State.length_keys_counted_pos {s : State} (nonempty : s.inLen ≠ 0#16) : 0 < s.counted.freq.keys.length := by
  have someSymbol : 0 < s.input.length := by
    rw [s.length_input, Nat.pos_iff_ne_zero]
    exact fun h => nonempty (BitVec.eq_of_toNat_eq h)
  exact List.length_pos_of_mem (State.mem_keys_counted.mpr (List.getElem_mem someSymbol))

/-! ### The statement on the round trip -/

/-- Settles O51: FREQ makes a key of each input symbol, BUILD_TREE a leaf of each key and BUILD_CODES a code of each leaf, by
which DECODE reads the stream that ENCODE leaves. -/
theorem roundTripRecoversTheInput : Obligations.RoundTripRecoversTheInput := by
  refine ⟨fun s ok nonempty => ?_, fun s ok empty => ?_⟩
  · have bounded := s.counted_freqBounded
    have key := State.length_keys_counted_pos nonempty
    obtain ⟨t, codes, okT, input, present, decoded⟩ := (State.builtTree_holdsTree bounded key).exists_decodable ok nonempty
      fun x hx => State.exists_leaf_builtTree bounded (State.mem_keys_counted.mpr hx)
    have input : t.input = s.input := input
    have outLen := State.toNat_outLen_deliver decoded
    rw [input] at decoded outLen
    refine ⟨_, _, _, _, _, exec_freq_of_ok ok, exec_buildTree_of_key (s := s.counted) ok (Nat.ne_of_gt key), codes,
      exec_encode_of_present present okT, exec_decode (s := t.encoded) okT decoded, okT, outLen.trans s.length_input,
      fun i hi => ?_⟩
    exact (t.encoded.symOut_deliver _ (by rwa [s.length_input])).trans (by simp [State.input])
  · exact ⟨_, _, encodeOfEmptyInput s ok empty, decodeOfEmptyStream _ ok rfl, ok, rfl⟩

end Sys2Proof.Machine
